-- ==== Sys2Proof/Word.lean ====
section
/-! DEFINITION. The word types of the paw CORE (spec/00_scope.md R7, R8): command words, register
words and the bit patterns of binary32 values. The arithmetic on them is in Machine/Float.lean. -/

namespace Sys2Proof

/-- A 64-bit command word (R55). -/
abbrev Word := BitVec 64

/-- A `u32` register value (R8). -/
abbrev U32 := BitVec 32

/-- A binary32 value, held as its IEEE 754 bit pattern (R8, R44). -/
abbrev F32 := BitVec 32

/-- A byte of a command word on a byte-wide link (R44). -/
abbrev Byte := BitVec 8

end Sys2Proof
end

