-- ==== Sys2Proof/Syntax.lean ====
section
/-! DEFINITION. The commands of the PAW-CORE command set, version 1: one constructor for each row of
spec/opcode_table.json (R56, R57). A field is as wide as its place in the command word, so every
term of `Instr` has a word. -/

namespace Sys2Proof

/-- A decoded command (R61). Its operands are fields of the word; their ranges are checked when the
command executes. -/
inductive Instr where
  /-- `NOP` (R69) -/
  | nop
  /-- `TICK` (R70) -/
  | tick
  /-- `NOTE_ON note, velocity` (R71) -/
  | noteOn (note : BitVec 8) (velocity : F32)
  /-- `NOTE_OFF note, velocity` (R72) -/
  | noteOff (note : BitVec 8) (velocity : F32)
  /-- `WR a, value` (R73) -/
  | wr (a : BitVec 16) (value : U32)
  /-- `RD a` (R81) -/
  | rd (a : BitVec 16)
  /-- `WT_WR row, col, sample` (R82) -/
  | wtWr (row : BitVec 8) (col : BitVec 16) (sample : F32)
  /-- `WT_SEAL` (R83) -/
  | wtSeal
deriving DecidableEq, Repr

end Sys2Proof
end

