-- ==== Sys2Proof/Decode.lean ====
section
/-! DEFINITION. The command encoding (spec/30_encoding.md): decoding, a total function from 64-bit words that
refuses every word R61 maps to ILLEGAL, the encoder, and the serialisation of a word on a byte-wide
link (R44). -/

namespace Sys2Proof

/-! ### The fields of a command word (R55) -/

def opcField (w : Word) : BitVec 8 := w.extractLsb' 56 8
def addrField (w : Word) : BitVec 16 := w.extractLsb' 40 16
def argField (w : Word) : BitVec 8 := w.extractLsb' 32 8
def dataField (w : Word) : U32 := w.extractLsb' 0 32

/-- The word with the given fields. -/
def commandWord (opc : BitVec 8) (addr : BitVec 16) (arg : BitVec 8) (data : U32) : Word :=
  opc ++ addr ++ arg ++ data

/-! ### Decoding (R61) -/

/-- The command a word stands for; `none` is R61's ILLEGAL. A field the command does not use must be zero
(R57). -/
def decode (w : Word) : Option Instr :=
  let opc := opcField w
  let addr := addrField w
  let arg := argField w
  let data := dataField w
  if opc = 0x00#8 then (if addr = 0 ∧ arg = 0 ∧ data = 0 then some .nop else none)
  else if opc = 0x01#8 then (if addr = 0 ∧ arg = 0 ∧ data = 0 then some .tick else none)
  else if opc = 0x02#8 then (if addr = 0 then some (.noteOn arg data) else none)
  else if opc = 0x03#8 then (if addr = 0 then some (.noteOff arg data) else none)
  else if opc = 0x10#8 then (if arg = 0 then some (.wr addr data) else none)
  else if opc = 0x11#8 then (if arg = 0 ∧ data = 0 then some (.rd addr) else none)
  else if opc = 0x20#8 then some (.wtWr arg addr data)
  else if opc = 0x21#8 then (if addr = 0 ∧ arg = 0 ∧ data = 0 then some .wtSeal else none)
  else none

/-! ### Encoding (R56, R57) -/

/-- The word of a command. -/
def encode : Instr → Word
  | .nop => commandWord 0x00#8 0 0 0
  | .tick => commandWord 0x01#8 0 0 0
  | .noteOn note velocity => commandWord 0x02#8 0 note velocity
  | .noteOff note velocity => commandWord 0x03#8 0 note velocity
  | .wr a value => commandWord 0x10#8 a 0 value
  | .rd a => commandWord 0x11#8 a 0 0
  | .wtWr row col sample => commandWord 0x20#8 col row sample
  | .wtSeal => commandWord 0x21#8 0 0 0

/-! ### Serialisation (R44): byte k of a word holds its bits 8k+7 : 8k -/

/-- The eight bytes of a word, in the order they are sent. -/
def wordBytes (w : Word) : List Byte := (List.range 8).map fun k => w.extractLsb' (8 * k) 8

/-- The word that eight bytes make. The port takes no partial word (R45). -/
def wordOfBytes : List Byte → Option (Word × List Byte)
  | b0 :: b1 :: b2 :: b3 :: b4 :: b5 :: b6 :: b7 :: rest =>
    some (b7 ++ b6 ++ b5 ++ b4 ++ b3 ++ b2 ++ b1 ++ b0, rest)
  | _ => none

/-- The command at the head of a byte stream, with the rest of the stream. -/
def decodeBytes (bytes : List Byte) : Option (Instr × List Byte) :=
  match wordOfBytes bytes with
  | some (w, rest) => (decode w).map fun i => (i, rest)
  | none => none

/-- The word of an opcode-table row: `nbits` bits, every bit above them 0. -/
def tableWord (nbits w : Nat) : Word := BitVec.ofNat 64 (w % 2 ^ nbits)

/-- The command the decoder reads from the bits `w`, numbered as spec/opcode_table.json numbers them. A
command is one word and its bytes go least significant first (R44), so that numbering is the word's. -/
def decodeTableWord (nbits w : Nat) : Option Instr :=
  (decodeBytes (wordBytes (tableWord nbits w))).map (·.1)

end Sys2Proof
end

