-- ==== Sys2Proof/Config.lean ====
section
/-! DEFINITION. What an implementation of the paw CORE fixes (spec/00_scope.md R5): the record of its
parameters, and the values the spec leaves free, as constants without a body. The parameters' default
values and the identities the spec assumes of the numerics functions are in Machine/Numerics.lean. -/

namespace Sys2Proof

/-- `RESYNC_MODE`, the resynchronisation threshold of the phase accumulator (R5, R92). -/
inductive ResyncMode where
  | invFreq
  | step
deriving DecidableEq, Repr

/-- `FM_MODE`, the rule of frequency modulation (R5, R139). -/
inductive FmMode where
  | symmetric
  | asymmetric
deriving DecidableEq, Repr

/-- The implementation parameters of R5 that are data. They are fixed for a given core (R14): the machine
carries them in `State.par`, which no step changes, so that a statement about every state speaks about
every core (log entry 1). -/
structure Params where
  /-- `VOICES`, 1..64 -/
  voices     : Nat
  /-- `OSCS`, 1..16 -/
  oscs       : Nat
  /-- `LFOS`, 0..16 -/
  lfos       : Nat
  /-- `ENVS`, 0..16 -/
  envs       : Nat
  /-- `DEPTH`, 1..256 -/
  depth      : Nat
  /-- `LENGTH`, 1..65536 -/
  length     : Nat
  resyncMode : ResyncMode
  fmMode     : FmMode
  /-- `AM_EXP`, a binary32 greater than 0 -/
  amExp      : F32
  /-- `EPS_DETUNE`, a binary32 at least 0 -/
  epsDetune  : F32
  /-- `NOTE_FREQ`, 128 finite binary32 values greater than 0 -/
  noteFreq   : List F32
deriving DecidableEq, Repr

/-! ### Free values

Nothing can be proved of these but what holds of every function of their type. -/

/-- FREE VALUE (log entry 3). `NUM_SIN` away from +0 (R5, D11). -/
opaque Config.numSin : F32 → F32

/-- FREE VALUE (log entry 3). `NUM_EXP2` away from the arguments D11 fixes it on. -/
opaque Config.numExp2 : F32 → F32

/-- FREE VALUE (log entry 3). `NUM_POW` away from the arguments D11 fixes it on. -/
opaque Config.numPow : F32 → F32 → F32

/-- FREE VALUE (log entry 4). The sign and payload of a NaN result: the operation's number, then its
operands. IEEE 754 says that the result is a NaN, not which (R9). -/
opaque Config.nanResult : Nat → F32 → F32 → F32

/-- FREE VALUE (log entry 5). `floor` of a value R9 does not define it on: a NaN, an infinity or a
negative value. -/
opaque Config.floorOutside : F32 → Nat

end Sys2Proof
end

