-- ==== Sys2Proof/Machine/Float.lean ====
section
/-! DEFINITION. Binary32 arithmetic (R9, D10): `+ - * /` and `sqrt` are computed exactly on integers and
rounded once, to nearest even; subnormals are kept and nothing is fused. The unit of the exact
integers is 2^-149, the smallest positive binary32, so that every finite value is a whole number of
units. -/

namespace Sys2Proof.F32

/-- +0.0 -/
abbrev zero : F32 := 0x00000000#32
/-- 0.25 -/
abbrev quarter : F32 := 0x3E800000#32
/-- 0.5 -/
abbrev half : F32 := 0x3F000000#32
/-- 0.75 -/
abbrev threeQuarters : F32 := 0x3F400000#32
/-- 1.0 -/
abbrev one : F32 := 0x3F800000#32
/-- -1.0 -/
abbrev negOne : F32 := 0xBF800000#32
/-- 2.0 -/
abbrev two : F32 := 0x40000000#32
/-- 4.0 -/
abbrev four : F32 := 0x40800000#32
/-- 12.0 -/
abbrev twelve : F32 := 0x41400000#32
/-- 16.0 -/
abbrev sixteen : F32 := 0x41800000#32
/-- 440.0 -/
abbrev a440 : F32 := 0x43DC0000#32
/-- 1200.0 -/
abbrev c1200 : F32 := 0x44960000#32
/-- 1048576.0, that is 2^20 -/
abbrev twoPow20 : F32 := 0x49800000#32
/-- `TAU`, the binary32 nearest 2π (D12) -/
abbrev tau : F32 := 0x40C90FDB#32

/-! ### The parts of a bit pattern -/

/-- The bit pattern without its sign. -/
def mag (a : F32) : Nat := a.toNat % 2 ^ 31

/-- The sign bit. -/
def sign (a : F32) : Bool := decide (2 ^ 31 ≤ a.toNat)

/-- The binary32 with sign `s` and the magnitude bits `m`. -/
def pack (s : Bool) (m : Nat) : F32 := BitVec.ofNat 32 (if s then 2 ^ 31 + m else m)

/-- The magnitude bits of an infinity. -/
abbrev infMag : Nat := 0x7F800000

def isNaN (a : F32) : Bool := decide (infMag < mag a)
def isInf (a : F32) : Bool := decide (mag a = infMag)
def isFinite (a : F32) : Bool := decide (mag a < infMag)
def isZero (a : F32) : Bool := decide (mag a = 0)

/-- The magnitude of a finite value, in units of 2^-149. -/
def magUnits (a : F32) : Nat :=
  if mag a < 2 ^ 23 then mag a else (2 ^ 23 + mag a % 2 ^ 23) * 2 ^ (mag a / 2 ^ 23 - 1)

/-- A finite value, in units of 2^-149. -/
def units (a : F32) : Int := if sign a then -(magUnits a : Int) else magUnits a

/-! ### Rounding -/

/-- The magnitude bits of the binary32 nearest to `n / d` units, ties to even, overflowing to the
infinity. With `sh` the number of places that fall below the 24 bits kept, a significand `m` in
[2^23, 2^24] has the bits `sh * 2^23 + m`, and one below 2^23 (then `sh = 0`) is subnormal. -/
def roundMag (n d : Nat) : Nat :=
  let sh := (n / d).log2 - 23
  let D := d * 2 ^ sh
  let m := n / D
  let r := n % D
  let m' := if D < 2 * r ∨ (2 * r = D ∧ m % 2 = 1) then m + 1 else m
  min (sh * 2 ^ 23 + m') infMag

/-- The binary32 nearest to `z / d` units; a zero takes the sign `zeroSign`. -/
def ofUnits (zeroSign : Bool) (z : Int) (d : Nat) : F32 :=
  if z = 0 then pack zeroSign 0 else pack (decide (z < 0)) (roundMag z.natAbs d)

/-- The NaN an operation answers with: some NaN, which is free (log entry 4). -/
def nan (op : Nat) (a b : F32) : F32 :=
  if isNaN (Config.nanResult op a b) then Config.nanResult op a b else 0x7FC00000#32

/-! ### The operations -/

def neg (a : F32) : F32 := pack (!sign a) (mag a)

/-- `abs` clears the sign (R9). -/
def abs (a : F32) : F32 := pack false (mag a)

/-- `fl(a + b)`. An exact zero sum is +0.0 unless both operands are negative. -/
def add (a b : F32) : F32 :=
  if isNaN a || isNaN b then nan 0 a b
  else if isInf a then (if isInf b && (sign a != sign b) then nan 0 a b else a)
  else if isInf b then b
  else ofUnits (sign a && sign b) (units a + units b) 1

/-- `fl(a - b)`. -/
def sub (a b : F32) : F32 := add a (neg b)

/-- `fl(a * b)`. -/
def mul (a b : F32) : F32 :=
  if isNaN a || isNaN b then nan 1 a b
  else if isInf a || isInf b then
    (if isZero a || isZero b then nan 1 a b else pack (sign a != sign b) infMag)
  else pack (sign a != sign b) (roundMag (magUnits a * magUnits b) (2 ^ 149))

/-- `fl(a / b)`. -/
def div (a b : F32) : F32 :=
  if isNaN a || isNaN b then nan 2 a b
  else if isInf a then (if isInf b then nan 2 a b else pack (sign a != sign b) infMag)
  else if isInf b then pack (sign a != sign b) 0
  else if isZero b then
    (if isZero a then nan 2 a b else pack (sign a != sign b) infMag)
  else pack (sign a != sign b) (roundMag (magUnits a * 2 ^ 149) (magUnits b))

/-- The bits of the integer square root of `n` below the place `k`, given those at and above it. -/
def isqrtFrom (n : Nat) : Nat → Nat → Nat
  | 0, acc => acc
  | k + 1, acc =>
    isqrtFrom n k (if (acc + 2 ^ k) * (acc + 2 ^ k) ≤ n then acc + 2 ^ k else acc)

/-- The integer square root: the largest `r` with `r * r ≤ n`. -/
def isqrt (n : Nat) : Nat := isqrtFrom n (n.log2 / 2 + 1) 0

/-- `sqrt(a)`, correctly rounded. The root in units is the root of `magUnits a * 2^149`; half a unit is
added to its integer part when it is not exact, far below the last bit kept. -/
def sqrt (a : F32) : F32 :=
  if isNaN a then nan 3 a a
  else if isZero a then a
  else if sign a then nan 3 a a
  else if isInf a then a
  else
    let n := magUnits a * 2 ^ 149
    let r := isqrt n
    pack false (roundMag (2 * r + (if r * r = n then 0 else 1)) 2)

/-! ### Comparisons (IEEE: a NaN compares false, and -0.0 equals +0.0) -/

/-- The place of a value in the order of the binary32 values. -/
def key (a : F32) : Int := if sign a then -(mag a : Int) else mag a

def lt (a b : F32) : Bool := !isNaN a && !isNaN b && decide (key a < key b)
def le (a b : F32) : Bool := !isNaN a && !isNaN b && decide (key a ≤ key b)

/-! ### Conversions -/

/-- `f32(n)` of a natural number, to nearest even (R9, D13). -/
def ofNat (n : Nat) : F32 := pack false (roundMag (n * 2 ^ 149) 1)

/-- `f32(z)` of an integer, to nearest even (R9, D13). -/
def ofInt (z : Int) : F32 := ofUnits false (z * 2 ^ 149) 1

/-- `floor(a)` of a non-negative value: its integer part (R9). On any other value R9 defines none, and the
result is free (log entry 5). -/
def floor (a : F32) : Nat :=
  if isFinite a && (!sign a || isZero a) then magUnits a / 2 ^ 149 else Config.floorOutside a

/-- `fract(a) = fl(a - f32(floor(a)))` (R9, R94). -/
def fract (a : F32) : F32 := sub a (ofNat (floor a))

end Sys2Proof.F32
end

