-- ==== Sys2Proof/Machine/Numerics.lean ====
section
/-! DEFINITION. The interval primitives (R11), the numerics functions with the identities the spec assumes of
them (D11), the ranges of the parameters (R5) and their default values (R5, D49 and the conventions of
spec/95_test_vectors.md). -/

namespace Sys2Proof

namespace F32

/-- `clamp_u`, `UnitInterval::new` (R11). -/
def clampU (x : F32) : F32 :=
  if isNaN x || le x zero then zero else if le one x then one else x

/-- `clamp_s`, `SignedUnitInterval::new` (R11). -/
def clampS (x : F32) : F32 :=
  if isNaN x || le x negOne then negOne else if le one x then one else x

/-- `clamp_h`, `HalfUnitInterval::new` (R11). -/
def clampH (x : F32) : F32 :=
  if isNaN x || le x zero then zero else if le half x then half else x

/-- `remap_u`, from a signed to an unsigned interval value (R11). -/
def remapU (s : F32) : F32 := div (add s one) two

/-- `remap_s`, from an unsigned to a signed interval value (R11). -/
def remapS (u : F32) : F32 := sub (mul u two) one

/-- `NUM_SIN`: any function with `NUM_SIN(+0) = +0` (D11). D11 assumes no more of it, so its results need not be
finite (DESIGN CHOICE, log entry 22). -/
def numSin (x : F32) : F32 := if x = zero then zero else Config.numSin x

/-- The integer `k` with the value `k`, for an integral value in [-126, 127]. -/
def smallInt (x : F32) : Option Int :=
  if isFinite x && decide (magUnits x % 2 ^ 149 = 0) then
    let k := units x / 2 ^ 149
    if -126 ≤ k ∧ k ≤ 127 then some k else none
  else none

/-- `NUM_EXP2`: any function with `NUM_EXP2(k) = 2^k` on the integers of [-126, 127] and a finite positive
value on [-16, 16] (D11). A free result that is neither finite nor positive there is replaced by
1.0; every function the spec admits is left as it is. -/
def numExp2 (x : F32) : F32 :=
  match smallInt x with
  | some k => pack false ((k + 127).toNat * 2 ^ 23)
  | none =>
    let y := Config.numExp2 x
    if le (abs x) sixteen && !(isFinite y && lt zero y) then one else y

/-- `NUM_POW`: any function with `NUM_POW(1, y) = 1`, and `NUM_POW(+0, y) = +0` for `y > 0` (D11). -/
def numPow (x y : F32) : F32 :=
  if x = one then one else if x = zero ∧ lt zero y then zero else Config.numPow x y

end F32

/-! ### Parameters -/

/-- `NOTE_FREQ(69 + j)` for `j` in 0..11: the binary32 nearest `440 * 2^(j/12)` (D49). -/
def noteOctave : List F32 :=
  [0x43DC0000#32, 0x43E914F6#32, 0x43F6F110#32, 0x4402D013#32, 0x440A9760#32, 0x4412D517#32,
   0x441B9041#32, 0x4424D054#32, 0x442E9D37#32, 0x4438FF49#32, 0x4443FF6A#32, 0x444FA700#32]

/-- The default `NOTE_FREQ(n) = fl(440 * 2^((n - 69)/12))` (D49): the octave of note 69, with the exponent
moved by the number of octaves. Note `n` lies `(n + 3) / 12 - 6` octaves above it. -/
def noteFreqDefault (n : Nat) : F32 :=
  F32.pack false ((noteOctave.getD ((n + 3) % 12) F32.a440).toNat + (n + 3) / 12 * 2 ^ 23 - 6 * 2 ^ 23)

/-- The ranges of R5. -/
abbrev Params.valid (p : Params) : Prop :=
  (1 ≤ p.voices ∧ p.voices ≤ 64) ∧ (1 ≤ p.oscs ∧ p.oscs ≤ 16) ∧ p.lfos ≤ 16 ∧ p.envs ≤ 16 ∧
  (1 ≤ p.depth ∧ p.depth ≤ 256) ∧ (1 ≤ p.length ∧ p.length ≤ 65536) ∧
  F32.lt F32.zero p.amExp = true ∧ F32.le F32.zero p.epsDetune = true ∧
  p.noteFreq.length = 128 ∧
  p.noteFreq.all (fun f => F32.isFinite f && F32.lt F32.zero f) = true

/-- The default configuration of spec/95_test_vectors.md, with the defaults of R5 (log entry 2). -/
def Params.vectors : Params where
  voices := 2
  oscs := 2
  lfos := 1
  envs := 1
  depth := 2
  length := 4
  resyncMode := .invFreq
  fmMode := .symmetric
  amExp := 0x402DF854#32
  epsDetune := 0x34000000#32
  noteFreq := (List.range 128).map noteFreqDefault

end Sys2Proof
end

