-- ==== Sys2Proof/Machine/State.lean ====
section
/-! DEFINITION. The state of the paw CORE as plain data (R14, R40), its values after reset (R182), and the
ways a step could stop. -/

namespace Sys2Proof.Machine

/-! ### Configuration records (R27 to R30) -/

/-- `ModTarget` (R13, R64). -/
inductive ModTarget where
  | globalLevel
  | globalPitch
  | oscWtPos (i : Nat)
deriving DecidableEq, Repr

/-- The waveform of an LFO (R64). The width of a pulse is a register of its own (D29). -/
inductive Waveform where
  | pulse
  | sine
  | triangle
  | saw
  | reverseSaw
deriving DecidableEq, Repr

/-- The output route of an operator (R64). -/
inductive Output where
  | direct
  | fmNext
  | amNext
  | rmNext
deriving DecidableEq, Repr

/-- The polyphony mode (R64). -/
inductive PolyMode where
  | poly
  | unison
deriving DecidableEq, Repr

/-- An envelope slot, the source's `EnvProps` (R27). Its reset values stand with the fields. -/
structure EnvProps where
  enabled : Bool := false
  /-- stored and read back, without effect on any output (R119) -/
  amount  : F32 := F32.one
  target  : ModTarget := .globalLevel
  delay   : U32 := 0
  attack  : U32 := 1
  hold    : U32 := 0
  decay   : U32 := 1
  sustain : F32 := F32.one
  release : U32 := 1
deriving DecidableEq, Repr

/-- An LFO slot, the source's `LfoProps` (R28), with its reset values. -/
structure LfoProps where
  enabled  : Bool := false
  amount   : F32 := F32.one
  freq     : F32 := F32.one
  waveform : Waveform := .sine
  width    : F32 := F32.half
  target   : ModTarget := .globalPitch
deriving DecidableEq, Repr

/-- An operator slot, the source's `OpProps` (R29), with its reset values for an operator other than 0. -/
structure OpProps where
  enabled   : Bool := false
  output    : Output := .direct
  tuneSemi  : Int := 0
  tuneCents : Int := 0
  wtPos     : F32 := F32.zero
deriving DecidableEq, Repr

/-! ### Runtime records (R31 to R35) -/

/-- An envelope instance (R34, R40, R110). -/
inductive EnvState where
  | idle
  | noteOn (velocity : F32) (at_ : U32)
  | noteOff (at_ : U32)
deriving DecidableEq, Repr

/-- An LFO instance (R34, R40, R124), with its reset values. -/
structure LfoState where
  active  : Bool := false
  stopped : Bool := true
  last    : U32 := 0
deriving DecidableEq, Repr

/-- A modulation pack: one envelope instance for each envelope slot and one LFO instance for each LFO
slot (R34). -/
structure Pack where
  envs : List EnvState
  lfos : List LfoState
deriving DecidableEq, Repr

/-- A voice record with its operator anchors and its pack (R32, R33, R35). -/
structure VoiceRec where
  /-- `none` is NONE: the voice is free (R154) -/
  note     : Option Nat
  rootFreq : F32
  detune   : F32
  blend    : F32
  balance  : F32
  velocity : F32
  anchors  : List U32
  pack     : Pack
deriving DecidableEq, Repr

/-! ### The wavetable memory (R42) -/

/-- The wavetable memory as a list of (address, cell) pairs. A cell is a whole binary32: the core has no
byte-addressed memory (R41, R44; log entry 6). Cell `(row, col)` has the address `row * 65536 + col`, the
number that the `ARG` and `ADDR` fields of its WT_WR make. The list is in canonical form (`Memory.wf`):
addresses strictly rising and no entry with the value an unlisted address reads as. -/
abbrev Memory := List (Nat × F32)

/-- What an unlisted cell reads as: the reset value of every cell, +0.0 (R42). -/
def Memory.unlisted : F32 := F32.zero

/-! ### Inputs -/

/-- What the outside world can do to the core between two commands: send a command word (R41, R68) or
assert the reset input (R181). -/
inductive Input where
  | word (w : Word)
  | reset
deriving DecidableEq, Repr

/-! ### The state -/

/-- The state record of R40. `par` and `port` are not state of R40: `par` holds the parameters of R5,
which no step changes (log entry 1), and `port` the inputs that the host has sent and the core
has not yet taken, oldest first (log entry 7). `NOTE_PRIORITY` is the constant 2 and is not stored
(R40). -/
structure State where
  par       : Params
  port      : List Input
  clkRate   : U32
  clkTick   : U32
  cmdSeq    : U32
  halted    : Bool
  sealed    : Bool
  err       : BitVec 7
  errSeq    : U32
  errCmd    : Word
  irqEn     : Bool
  outL      : F32
  outR      : F32
  env       : List EnvProps
  lfo       : List LfoProps
  op        : List OpProps
  polyMode  : PolyMode
  lastVoice : Nat
  uniCount  : Nat
  uniDetune : F32
  uniBlend  : F32
  uniSpread : F32
  voice     : List VoiceRec
  global    : Pack
  wt        : Memory
  /-- the frame stream, in the order of emission (R38) -/
  frames    : List (F32 × F32)
  /-- the read-response stream, in the order of emission (R38) -/
  reads     : List U32
deriving DecidableEq, Repr

/-! ### Reset (R182) -/

/-- A pack after reset: every envelope `Idle`, every LFO stopped. -/
def Pack.reset (p : Params) : Pack where
  envs := List.replicate p.envs .idle
  lfos := List.replicate p.lfos {}

/-- A voice after reset. -/
def VoiceRec.reset (p : Params) : VoiceRec where
  note := none
  rootFreq := F32.a440
  detune := F32.zero
  blend := F32.one
  balance := F32.half
  velocity := F32.zero
  anchors := List.replicate p.oscs 0
  pack := Pack.reset p

/-- The core with the parameters `p`, right after reset. -/
def State.resetWith (p : Params) : State where
  par := p
  port := []
  clkRate := 48000
  clkTick := 0
  cmdSeq := 0
  halted := false
  sealed := false
  err := 0
  errSeq := 0
  errCmd := 0
  irqEn := false
  outL := F32.zero
  outR := F32.zero
  env := List.replicate p.envs {}
  lfo := List.replicate p.lfos {}
  op := (List.range p.oscs).map fun i => { enabled := i == 0 }
  polyMode := .poly
  lastVoice := p.voices - 1
  uniCount := 1
  uniDetune := F32.zero
  uniBlend := F32.half
  uniSpread := F32.zero
  voice := List.replicate p.voices (VoiceRec.reset p)
  global := Pack.reset p
  wt := []
  frames := []
  reads := []

/-- The machine right after reset, with the sizes of the spec's test vectors (log entry 2). -/
def State.reset : State := State.resetWith Params.vectors

/-! ### How a step stops -/

/-- The faults that stop the model. There are none: each of the seven fault kinds of R167 is a trap whose
entry R168 describes, and the model takes it (`State.takeFault`); the machine then goes on, halted. -/
inductive Fault
deriving DecidableEq, Repr

/-- The refusals of the model. -/
inductive Refusal where
  /-- Raised by an arm of `exec` for an instruction that has no meaning yet; no arm raises it now. Safe:
  nothing can be proved of what the instruction does. -/
  | notModelled (mnemonic : String)
deriving DecidableEq, Repr

end Sys2Proof.Machine
end

