-- ==== Sys2Proof/Machine/Flags.lean ====
section
/-! DEFINITION. The core's flags. It has no condition codes (R39); its status flags are those of `STATUS` and
`ERR`, and its interrupt output is computed from `ERR`. -/

namespace Sys2Proof.Machine

/-- The fault kinds of R167; a kind's place is its bit in `ERR`. -/
inductive FaultKind where
  | illegalCmd
  | badAddr
  | roWrite
  | badValue
  | wtLocked
  | notSealed
  | badNote
deriving DecidableEq, Repr

/-- The cause code of a fault, its bit position in `ERR` (R20, R167). -/
def FaultKind.code : FaultKind → Nat
  | .illegalCmd => 0
  | .badAddr => 1
  | .roWrite => 2
  | .badValue => 3
  | .wtLocked => 4
  | .notSealed => 5
  | .badNote => 6

/-- The `ERR` value in which only the kind's bit is set. -/
def FaultKind.bit (k : FaultKind) : BitVec 7 := 1#7 <<< k.code

/-- The value of `STATUS`: bit 0 `HALTED`, bit 1 `WT_SEALED`, the others 0 (R19). -/
def State.statusWord (s : State) : U32 :=
  (if s.halted then 1#32 else 0#32) ||| (if s.sealed then 2#32 else 0#32)

/-- The interrupt output, `IRQ_EN.EN and (ERR != 0)` (R174). -/
def State.irq (s : State) : Bool := s.irqEn && (s.err != 0)

end Sys2Proof.Machine
end

