-- ==== Sys2Proof/Machine/Ops.lean ====
section
/-! DEFINITION. The named operations the meanings are built from: the wavetable memory, the output streams,
taking a command from the port, trap entry (R168) and the reset that alone leaves the halted state
(R171, R181). -/

namespace Sys2Proof.Machine

/-! ### The wavetable memory -/

/-- The address of cell `(row, col)`. -/
def wtAddress (row col : Nat) : Nat := row * 65536 + col

/-- The value at an address. -/
def Memory.read : Memory → Nat → F32
  | [], _ => Memory.unlisted
  | (b, x) :: m, a => if b = a then x else Memory.read m a

/-- The entry for a value, none for the value that an unlisted address reads as. -/
def Memory.entry (a : Nat) (v : F32) : Memory := if v = Memory.unlisted then [] else [(a, v)]

/-- The memory with the value `v` at the address `a`. -/
def Memory.write : Memory → Nat → F32 → Memory
  | [], a, v => Memory.entry a v
  | (b, x) :: m, a, v =>
    if b < a then (b, x) :: Memory.write m a v
    else if b = a then Memory.entry a v ++ m
    else Memory.entry a v ++ (b, x) :: m

/-- The canonical form: addresses strictly rising, and no entry with the value an unlisted address reads
as. Equal memories in this form are equal lists. -/
def Memory.wf : Memory → Bool
  | [] => true
  | [(_, x)] => x != Memory.unlisted
  | (a, x) :: (b, y) :: m => x != Memory.unlisted && decide (a < b) && Memory.wf ((b, y) :: m)

/-- `WtRead(row, col)` (R12, R42). -/
def State.wtRead (s : State) (row col : Nat) : F32 := s.wt.read (wtAddress row col)

/-- `WtWrite(row, col, v)` (R12, R42). -/
def State.wtWrite (s : State) (row col : Nat) (v : F32) : State :=
  { s with wt := s.wt.write (wtAddress row col) v }

/-! ### The output streams (R38) -/

/-- `emit_frame(L, R)` (R12). -/
def State.emitFrame (s : State) (l r : F32) : State := { s with frames := s.frames ++ [(l, r)] }

/-- `emit_read(v)` (R12). -/
def State.emitRead (s : State) (v : U32) : State := { s with reads := s.reads ++ [v] }

/-! ### Trap entry and the halted state -/

/-- `fault(kind, w, seq)`, the whole trap entry (R168), for the command word `w` at the position `CMD_SEQ`. The
bit is sticky; the capture registers and `HALTED` are written by the first fault alone. -/
def State.takeFault (s : State) (kind : FaultKind) (w : Word) : State :=
  if s.halted then { s with err := s.err ||| kind.bit }
  else { s with err := s.err ||| kind.bit, errSeq := s.cmdSeq, errCmd := w, halted := true }

/-- The effect of a command that a halted core discards (R68, R170). -/
def State.unlessHalted (s : State) (f : State → State) : State := if s.halted then s else f s

/-- Asserting the reset input (R181): every piece of state takes its reset value, whatever it was. The
parameters are not state, and the inputs not yet taken are the host's (log entry 7). -/
def State.assertReset (s : State) : State := { State.resetWith s.par with port := s.port }

/-! ### The command port -/

/-- Counting a consumed command: `CMD_SEQ <- CMD_SEQ +w 1` (R12, R25). -/
def State.countCommand (s : State) : State := { s with cmdSeq := s.cmdSeq + 1 }

/-- The effect of a word that decodes to ILLEGAL: a fault, or nothing on a halted core (R62, R68, R170). -/
def State.illegalWord (s : State) (w : Word) : State :=
  s.unlessHalted fun s => s.takeFault .illegalCmd w

/-- The next input and the state without it; `none` when the host has sent nothing more. -/
def State.takeInput (s : State) : Option (Input × State) :=
  match s.port with
  | [] => none
  | x :: rest => some (x, { s with port := rest })

/-- `f` on the next state; a fault or a refusal stays as it is. -/
def mapNext (f : State → State) (o : Host.Outcome State Fault Refusal) :
    Host.Outcome State Fault Refusal :=
  match o with
  | .next s => .next (f s)
  | .fault r => .fault r
  | .refused r => .refused r

end Sys2Proof.Machine
end

