-- ==== Sys2Proof/Machine/Envelope.lean ====
section
/-! DEFINITION. The envelope state machine (spec/43_envelope.md). -/

namespace Sys2Proof.Machine

/-- An envelope instance after its pack's `note_on` (R111). -/
def EnvState.afterNoteOn (velocity : F32) (tick : U32) (_ : EnvState) : EnvState := .noteOn velocity tick

/-- An envelope instance after its pack's `note_off` (R112). -/
def EnvState.afterNoteOff (tick : U32) : EnvState → EnvState
  | .idle => .idle
  | .noteOn _ _ => .noteOff tick
  | .noteOff _ => .noteOff tick

/-- `env_on(e, vel, pos)`: the value of the `NoteOn` stages (R114). The stage ends are exact sums. After a seek too the
stages decide, whatever R189 says (DESIGN CHOICE, log entry 21). -/
def EnvProps.on (e : EnvProps) (vel : F32) (pos : U32) : F32 :=
  let d := e.delay.toNat
  let a := e.attack.toNat
  let dc := e.decay.toNat
  let aEnd := d + a
  let hEnd := aEnd + e.hold.toNat
  let dEnd := hEnd + dc
  let endpoint := if 0 < dc then vel else e.sustain
  let n := pos.toNat
  if n ≤ d then F32.zero
  else if n ≤ aEnd then F32.clampU (F32.mul endpoint (F32.div (F32.ofNat (n - d)) (F32.ofNat a)))
  else if n ≤ hEnd then vel
  else if n ≤ dEnd then
    F32.clampU (F32.add endpoint
      (F32.mul (F32.sub e.sustain endpoint) (F32.div (F32.ofNat (n - hEnd)) (F32.ofNat dc))))
  else e.sustain

/-- `env_off(e, pos)`: the value of the release stage, `none` once it is over (R116), after a seek too, whatever R120
says of a long release (DESIGN CHOICE, log entry 21). -/
def EnvProps.off (e : EnvProps) (pos : U32) : Option F32 :=
  if pos.toNat ≤ e.release.toNat then
    some (F32.clampU (F32.mul e.sustain
      (F32.sub F32.one (F32.div (F32.ofNat pos.toNat) (F32.ofNat e.release.toNat)))))
  else none

/-- `env_tick(e, inst)` (R113). -/
def envTick (tick : U32) (e : EnvProps) (x : EnvState) : Option F32 :=
  if e.enabled then
    match x with
    | .idle => none
    | .noteOn vel t => some (e.on vel (tick - t))
    | .noteOff t => e.off (tick - t)
  else none

end Sys2Proof.Machine
end

