-- ==== Sys2Proof/Machine/Phase.lean ====
section
/-! DEFINITION. The phase accumulator (spec/41_phase_accumulator.md). -/

namespace Sys2Proof.Machine

/-- What a phase computation reads of the core: `RESYNC_MODE`, `CLK_RATE` and `CLK_TICK` (R88, R92). -/
structure Clock where
  resync : ResyncMode
  rate   : U32
  tick   : U32
deriving DecidableEq, Repr

/-- The clock of a state. -/
def State.clock (s : State) : Clock := ⟨s.par.resyncMode, s.clkRate, s.clkTick⟩

/-- `sr = f32(CLK_RATE)` (R88). -/
def Clock.sr (c : Clock) : F32 := F32.ofNat c.rate.toNat

/-- `step(f) = fl(f / sr)` (R88). -/
def Clock.step (c : Clock) (f : F32) : F32 := F32.div f c.sr

/-- `threshold(f)` (R92). -/
def Clock.threshold (c : Clock) (f : F32) : F32 :=
  match c.resync with
  | .invFreq => F32.div F32.one f
  | .step => c.step f

/-- `f32(CLK_TICK -w A)` (R89, R90). -/
def Clock.delta (c : Clock) (anchor : U32) : F32 := F32.ofNat (c.tick - anchor).toNat

/-- The end of both phase paths, for the unreduced phase `p`: the anchor after the resynchronisation test, and
the phase returned (R89, R90). -/
def Clock.resynchronise (c : Clock) (f p : F32) (anchor : U32) : U32 × F32 :=
  (if F32.le (F32.sub F32.one p) (c.threshold f) then c.tick else anchor, F32.fract p)

/-- `phase_exact(f, A)`, the path of the LFOs: the new anchor and the phase (R89). -/
def Clock.phaseExact (c : Clock) (f : F32) (anchor : U32) : U32 × F32 :=
  c.resynchronise f (F32.div (F32.mul (c.delta anchor) f) c.sr) anchor

/-- `phase_fast(f, s, A)`, the path of the operators: the new anchor and the phase (R90). -/
def Clock.phaseFast (c : Clock) (f s : F32) (anchor : U32) : U32 × F32 :=
  c.resynchronise f (F32.mul (c.delta anchor) s) anchor

end Sys2Proof.Machine
end

