-- ==== Sys2Proof/Machine/Lfo.lean ====
section
/-! DEFINITION. The LFO periodic generator (spec/44_lfo.md). -/

namespace Sys2Proof.Machine

/-- An LFO instance after its pack's `note_on` (R128). -/
def LfoState.afterNoteOn (tick : U32) (_ : LfoState) : LfoState :=
  { active := true, stopped := false, last := tick }

/-- An LFO instance after its pack's `note_off` (R128). -/
def LfoState.afterNoteOff (x : LfoState) : LfoState := { x with active := false }

/-- The triangle wave of R126, also at the one phase where the table of R131, which is derived from it, prints
another value (DESIGN CHOICE, log entry 12). -/
def triangle (ph : F32) : F32 :=
  F32.sub
    (F32.mul F32.four
      (F32.abs (F32.sub (F32.add ph F32.quarter)
        (F32.ofNat (F32.floor (F32.add ph F32.threeQuarters))))))
    F32.one

/-- `wave(l, ph)` (R126). -/
def LfoProps.wave (l : LfoProps) (ph : F32) : F32 :=
  match l.waveform with
  | .pulse => if F32.lt ph l.width then F32.one else F32.negOne
  | .sine => F32.numSin (F32.mul F32.tau ph)
  | .triangle => triangle ph
  | .saw => F32.sub (F32.mul F32.two ph) F32.one
  | .reverseSaw => F32.sub F32.one (F32.mul F32.two ph)

/-- `lfo_tick(l, inst)`: the instance afterwards and the value (R125). The anchor moves before the stop
test. A sine that is not finite, which D11 does not exclude, times an amount of 0 is a NaN, which `clamp_s` makes -1.0,
whatever R129 says of that amount (DESIGN CHOICE, log entry 22). -/
def lfoTick (c : Clock) (l : LfoProps) (x : LfoState) : LfoState × Option F32 :=
  if !l.enabled || x.stopped then (x, none)
  else
    let r := c.phaseExact l.freq x.last
    if !x.active && F32.le r.2 (c.step l.freq) then ({ x with last := r.1, stopped := true }, none)
    else ({ x with last := r.1 }, some (F32.clampS (F32.mul (l.wave r.2) l.amount)))

end Sys2Proof.Machine
end

