-- ==== Sys2Proof/Machine/Wavetable.lean ====
section
/-! DEFINITION. The wavetable: the interpolator (spec/42_wavetable.md) and the commands that build the table,
WT_WR (R82) and WT_SEAL (R83). -/

namespace Sys2Proof.Machine

/-! ### The interpolator -/

/-- `phase_index(ph)` for rows of `len` samples: `(i0, i1, fx)` (R103). The formula is followed where R103's own
example disagrees with it (DESIGN CHOICE, log entry 20). -/
def phaseIndex (len : Nat) (ph : F32) : Nat × Nat × F32 :=
  let x := F32.mul ph (F32.ofNat len)
  let i0 := min (F32.floor x) (len - 1)
  (i0, (i0 + 1) % len, F32.sub x (F32.ofNat i0))

/-- `depth_index(d)` for `dep` rows: `(j0, j1, fy)` (R104). -/
def depthIndex (dep : Nat) (d : F32) : Nat × Nat × F32 :=
  let y := F32.mul d (F32.ofNat (dep - 1))
  let j0 := min (F32.floor y) (dep - 1)
  (j0, min (j0 + 1) (dep - 1), F32.sub y (F32.ofNat j0))

/-- `lerp(a, b, t) = fl(a + fl(fl(b - a) * t))` (R105). -/
def lerp (a b t : F32) : F32 := F32.add a (F32.mul (F32.sub b a) t)

/-- `wt_lookup(ph, d)` (R106). -/
def State.wtLookup (s : State) (ph d : F32) : F32 :=
  let i := phaseIndex s.par.length ph
  let j := depthIndex s.par.depth d
  let s0 := lerp (s.wtRead j.1 i.1) (s.wtRead j.1 i.2.1) i.2.2
  let s1 := lerp (s.wtRead j.2.1 i.1) (s.wtRead j.2.1 i.2.1) i.2.2
  lerp s0 s1 j.2.2

/-! ### The commands -/

/-- A legal sample: finite and in [-1.0, 1.0] (R82). -/
def legalSample (x : F32) : Bool := F32.isFinite x && F32.le F32.negOne x && F32.le x F32.one

/-- `WT_WR row, col, sample` (R82). -/
def execWtWr (row : BitVec 8) (col : BitVec 16) (sample : F32) (s : State) :
    Host.Outcome State Fault Refusal :=
  .next <| s.unlessHalted fun s =>
    if s.sealed then s.takeFault .wtLocked (encode (.wtWr row col sample))
    else if ¬(row.toNat < s.par.depth ∧ col.toNat < s.par.length) then
      s.takeFault .badAddr (encode (.wtWr row col sample))
    else if ¬(legalSample sample = true) then s.takeFault .badValue (encode (.wtWr row col sample))
    else s.wtWrite row.toNat col.toNat sample

/-- `WT_SEAL` (R83). -/
def execWtSeal (s : State) : Host.Outcome State Fault Refusal :=
  .next <| s.unlessHalted fun s => { s with sealed := true }

end Sys2Proof.Machine
end

