-- ==== Sys2Proof/Machine/Modulation.lean ====
section
/-! DEFINITION. Modulation: the pack events, the resolution of a target, and the operator pack with its
FM, AM and RM routing (spec/45_modulation.md). -/

namespace Sys2Proof.Machine

/-- `ModValue`: `env` defines a value, `lfo` offsets one (R13). -/
inductive ModValue where
  | env (u : F32)
  | lfo (x : F32)
deriving DecidableEq, Repr

/-- `OscMod`, the value carried from one operator to the next (R13). -/
inductive OscMod where
  | none
  | direct (x : F32)
  | fm (x : F32)
  | am (x : F32)
  | rm (x : F32)
deriving DecidableEq, Repr

/-! ### Pack events -/

/-- `pack_note_on(pack, vel)` (R111, R128). -/
def Pack.noteOn (velocity : F32) (tick : U32) (k : Pack) : Pack where
  envs := k.envs.map (EnvState.afterNoteOn velocity tick)
  lfos := k.lfos.map (LfoState.afterNoteOn tick)

/-- `pack_note_off(pack)` (R112, R128). -/
def Pack.noteOff (tick : U32) (k : Pack) : Pack where
  envs := k.envs.map (EnvState.afterNoteOff tick)
  lfos := k.lfos.map LfoState.afterNoteOff

/-! ### Resolving a target (R133) -/

/-- The lowest LFO slot with the target, whether enabled or not. -/
def firstLfo (lfos : List LfoProps) (t : ModTarget) : Option Nat := lfos.findIdx? fun l => l.target == t

/-- The lowest envelope slot with the target, whether enabled or not. -/
def firstEnv (envs : List EnvProps) (t : ModTarget) : Option Nat := envs.findIdx? fun e => e.target == t

/-- Evaluating the LFO instance `l` of a pack: the pack afterwards and the value. -/
def Pack.tickLfo (c : Clock) (lfos : List LfoProps) (k : Pack) (l : Nat) : Pack × Option F32 :=
  match lfos[l]?, k.lfos[l]? with
  | some p, some x =>
    let r := lfoTick c p x
    ({ k with lfos := k.lfos.set l r.1 }, r.2)
  | _, _ => (k, none)

/-- The LFO part of `resolve`: only the first matching instance is evaluated. -/
def Pack.resolveLfo (c : Clock) (lfos : List LfoProps) (t : ModTarget) (k : Pack) : Pack × Option F32 :=
  match firstLfo lfos t with
  | some l => k.tickLfo c lfos l
  | none => (k, none)

/-- The envelope part of `resolve`. -/
def Pack.resolveEnv (tick : U32) (envs : List EnvProps) (t : ModTarget) (k : Pack) : Option F32 :=
  match firstEnv envs t with
  | some e =>
    match envs[e]?, k.envs[e]? with
    | some p, some x => envTick tick p x
    | _, _ => none
  | none => none

/-- `resolve(pack, target)`: the pack afterwards and the modulation (R133). -/
def State.resolve (s : State) (t : ModTarget) (k : Pack) : Pack × Option ModValue :=
  let r := k.resolveLfo s.clock s.lfo t
  match r.2 with
  | some x => (r.1, some (.lfo x))
  | none => (r.1, (r.1.resolveEnv s.clkTick s.env t).map .env)

/-- Resolving several targets in order, each on the pack the one before left. -/
def State.resolveAll (s : State) : List ModTarget → Pack → Pack × List (Option ModValue)
  | [], k => (k, [])
  | t :: ts, k =>
    let r := s.resolve t k
    let q := s.resolveAll ts r.1
    (q.1, r.2 :: q.2)

/-- `as_signed` (R135). -/
def asSigned : Option ModValue → F32
  | none => F32.zero
  | some (.lfo x) => x
  | some (.env u) => u

/-- `depth(i)`, for the `WT_POS` of an operator and the modulation of its position (R136). -/
def depthOf (wtPos : F32) : Option ModValue → F32
  | none => wtPos
  | some (.env u) => u
  | some (.lfo x) => F32.clampU (F32.add wtPos x)

/-! ### The operator pack -/

/-- `fm(f, m)` (R139). -/
def fm (p : Params) (f m : F32) : F32 :=
  match p.fmMode with
  | .symmetric => F32.mul f (F32.numExp2 m)
  | .asymmetric => if F32.lt F32.zero m then F32.mul f (F32.numExp2 m) else f

/-- `am(out, m)` (R141). -/
def am (p : Params) (out m : F32) : F32 := F32.mul out (F32.numPow (F32.clampU m) p.amExp)

/-- `rm(out, m)` (R141). -/
def rm (out m : F32) : F32 := F32.mul out m

/-- `tune_mod`, in octaves (R138). -/
def tuneMod (pm : F32) (op : OpProps) : F32 :=
  F32.add (F32.add pm (F32.div (F32.ofInt op.tuneSemi) F32.twelve))
    (F32.div (F32.ofInt op.tuneCents) F32.c1200)

/-- `chained_fm` (R137). -/
def chainedFm : OscMod → F32
  | .fm m => m
  | .none => F32.zero
  | .direct _ => F32.zero
  | .am _ => F32.zero
  | .rm _ => F32.zero

/-- The operator's output after the AM or RM of the operator before it (R137, R141). -/
def applyMod (p : Params) (mod : OscMod) (raw : F32) : F32 :=
  match mod with
  | .am m => am p raw m
  | .rm m => rm raw m
  | .none => raw
  | .direct _ => raw
  | .fm _ => raw

/-- `route(OPi_OUTPUT, raw)` (R142). -/
def route : Output → F32 → OscMod
  | .direct, raw => .direct raw
  | .fmNext, raw => .fm raw
  | .amNext, raw => .am raw
  | .rmNext, raw => .rm raw

/-- The frequency of an operator (R137). -/
def opFreq (p : Params) (fv pm : F32) (op : OpProps) (mod : OscMod) : F32 :=
  fm p fv (F32.add (tuneMod pm op) (chainedFm mod))

/-- An enabled operator: its anchor afterwards and its raw output (R137). -/
def State.opRaw (s : State) (fv pm : F32) (op : OpProps) (gw : Option ModValue) (mod : OscMod)
    (anchor : U32) : U32 × F32 :=
  let f := opFreq s.par fv pm op mod
  let r := s.clock.phaseFast f (s.clock.step f) anchor
  (r.1, s.wtLookup r.2 (depthOf op.wtPos gw))

/-- `oppack`, from an operator on: `ops` and `gws` are the remaining operators and their position
modulations, `mod` and `mix` the fold so far. It gives the anchors afterwards and the mix (R137). -/
def State.opPack (s : State) (fv pm : F32) :
    List OpProps → List (Option ModValue) → List U32 → OscMod → F32 → List U32 × F32
  | op :: ops, gw :: gws, anchor :: anchors, mod, mix =>
    if op.enabled then
      let r := s.opRaw fv pm op gw mod anchor
      let mix' := if op.output = .direct then F32.add mix (applyMod s.par mod r.2) else mix
      let q := s.opPack fv pm ops gws anchors (route op.output r.2) mix'
      (r.1 :: q.1, q.2)
    else
      let q := s.opPack fv pm ops gws anchors .none mix
      (anchor :: q.1, q.2)
  | _, _, anchors, _, mix => (anchors, mix)

end Sys2Proof.Machine
end

