-- ==== Sys2Proof/Machine/Voice.lean ====
section
/-! DEFINITION. The voice datapath, the mixer and TICK (spec/46_voice.md, R70). -/

namespace Sys2Proof.Machine

/-! ### Voice events -/

/-- `NOTE_FREQ(note)`, a parameter (R5, D49). -/
def noteFreq (p : Params) (note : Nat) : F32 := p.noteFreq.getD note F32.zero

/-- `voice_note_on`: every field is overwritten, whatever the voice was doing (R145). -/
def VoiceRec.noteOn (p : Params) (tick : U32) (note : Nat) (vel det blend bal : F32) (v : VoiceRec) :
    VoiceRec where
  note := some note
  rootFreq := noteFreq p note
  detune := det
  blend := blend
  balance := bal
  velocity := vel
  anchors := v.anchors.map fun _ => tick
  pack := v.pack.noteOn vel tick

/-- `voice_note_off` with the clearing of the assignment that goes with it (R146, R160). -/
def VoiceRec.release (tick : U32) (v : VoiceRec) : VoiceRec :=
  { v with pack := v.pack.noteOff tick, note := none }

/-! ### Voice tick -/

/-- The level of a voice (R148). -/
def voiceLevel (v : VoiceRec) : Option ModValue → F32
  | some (.env u) => u
  | some (.lfo x) => F32.mul (F32.remapU x) v.velocity
  | none => if v.note.isSome then F32.one else F32.zero

/-- `voice_tick(v, gp, gw)`: the voice afterwards and its stereo output (R147, R149). -/
def State.voiceTick (s : State) (gp : Option ModValue) (gw : List (Option ModValue)) (v : VoiceRec) :
    VoiceRec × F32 × F32 :=
  let lm := s.resolve .globalLevel v.pack
  let fv := fm s.par v.rootFreq v.detune
  let amp := F32.mul v.blend (voiceLevel v lm.2)
  let q := s.opPack fv (asSigned gp) s.op gw v.anchors .none F32.zero
  let out := F32.mul q.2 amp
  ({ v with pack := lm.1, anchors := q.1 },
    F32.mul out (F32.sub F32.one v.balance), F32.mul out v.balance)

/-! ### Frame -/

/-- Adding one voice's channel to the mix, divided by `VOICES` (R150). -/
def State.mixIn (s : State) (acc x : F32) : F32 :=
  F32.add acc (F32.div x (F32.ofNat s.par.voices))

/-- The voices in index order, from an accumulated frame on: the voices afterwards and the frame (R150). -/
def State.mixVoices (s : State) (gp : Option ModValue) (gw : List (Option ModValue)) :
    List VoiceRec → F32 → F32 → List VoiceRec × F32 × F32
  | [], accL, accR => ([], accL, accR)
  | v :: vs, accL, accR =>
    let r := s.voiceTick gp gw v
    let q := s.mixVoices gp gw vs (s.mixIn accL r.2.1) (s.mixIn accR r.2.2)
    (r.1 :: q.1, q.2)

/-- The targets the global pack resolves in a TICK, in order (R134). -/
def globalTargets (p : Params) : List ModTarget :=
  .globalPitch :: (List.range p.oscs).map .oscWtPos

/-- The result of `frame_at`: the frame, and the pieces of state it may change (R70). -/
structure FrameResult where
  global : Pack
  voice  : List VoiceRec
  left   : F32
  right  : F32
deriving DecidableEq, Repr

/-- `frame_at(CLK_TICK)` (R150): the global pack resolves first, then the voices run. -/
def State.frameAt (s : State) : FrameResult :=
  let g := s.resolveAll (globalTargets s.par) s.global
  let m := s.mixVoices (g.2.headD none) g.2.tail s.voice F32.zero F32.zero
  ⟨g.1, m.1, m.2.1, m.2.2⟩

/-- The effect of a TICK on a sealed core (R70). -/
def State.tickFrame (s : State) : State :=
  let r := s.frameAt
  { s.emitFrame r.left r.right with
      global := r.global, voice := r.voice, outL := r.left, outR := r.right, clkTick := s.clkTick + 1 }

/-- `TICK` (R70). -/
def execTick (s : State) : Host.Outcome State Fault Refusal :=
  .next <| s.unlessHalted fun s =>
    if s.sealed then s.tickFrame else s.takeFault .notSealed (encode .tick)

end Sys2Proof.Machine
end

