-- ==== Sys2Proof/Machine/Allocator.lean ====
section
/-! DEFINITION. The voice allocator (spec/47_allocator.md), and NOTE_ON and NOTE_OFF (R71, R72). -/

namespace Sys2Proof.Machine

/-- A voice is free when its note is NONE (R154). -/
def VoiceRec.free (v : VoiceRec) : Bool := v.note.isNone

/-- `has_note(n)` (R154). -/
def State.hasNote (s : State) (n : Nat) : Bool := s.voice.any fun v => v.note == some n

/-- `voice_note_on` of voice `i` (R145). -/
def State.voiceNoteOn (s : State) (i note : Nat) (vel det blend bal : F32) : State :=
  { s with voice := s.voice.modify i (VoiceRec.noteOn s.par s.clkTick note vel det blend bal) }

/-! ### Poly mode (R156) -/

/-- Whether voice `i` is free. -/
def State.freeAt (s : State) (i : Nat) : Bool := (s.voice[i]?).any VoiceRec.free

/-- The voice indices in the order of the scan, which starts at `(POLY_LAST + 1) mod VOICES`. -/
def State.scanOrder (s : State) : List Nat :=
  (List.range s.par.voices).map fun k => (s.lastVoice + 1 + k) % s.par.voices

/-- The voice a Poly NOTE_ON takes: the first free one of the scan, and the one at its start if none is. -/
def State.polyIndex (s : State) : Nat :=
  (s.scanOrder.find? s.freeAt).getD ((s.lastVoice + 1) % s.par.voices)

/-- `poly_on(note, vel)` (R156). -/
def State.polyOn (s : State) (note : Nat) (vel : F32) : State :=
  { s.voiceNoteOn s.polyIndex note vel F32.zero F32.one F32.half with lastVoice := s.polyIndex }

/-! ### Unison mode (R157 to R159) -/

/-- `center_offset(k) = fl(f32(2k + 1 - count) / f32(count))` (R158). -/
def centerOffset (count k : Nat) : F32 :=
  F32.div (F32.ofInt (2 * k + 1 - count)) (F32.ofNat count)

/-- The detune factor of spread index `k` (R158). -/
def spreadDetune (count k : Nat) (detune : F32) : F32 := F32.clampS (F32.mul (centerOffset count k) detune)

/-- Whether spread index `k` is an innermost voice (R158). -/
def innermost (p : Params) (count k : Nat) : Bool :=
  F32.le (F32.sub (F32.abs (centerOffset count k)) (F32.div F32.one (F32.ofNat count))) p.epsDetune

/-- The amplitude of spread index `k` (R158). -/
def spreadBlend (p : Params) (count k : Nat) (blend : F32) : F32 :=
  if innermost p count k then F32.sqrt (F32.sub F32.one blend) else F32.sqrt blend

/-- The stereo balance of spread index `k` (R159). -/
def spreadBalance (count k : Nat) (amount : F32) : F32 :=
  F32.remapU (F32.clampS (F32.mul (centerOffset count k) amount))

/-- The free voices' indices, ascending. -/
def State.freeVoices (s : State) : List Nat := (List.range s.par.voices).filter s.freeAt

/-- `voice_note_on` of one voice of a unison group, of spread index `k`. -/
def State.unisonVoiceOn (s : State) (note : Nat) (vel : F32) (i k : Nat) : State :=
  s.voiceNoteOn i note vel (spreadDetune s.uniCount k s.uniDetune)
    (spreadBlend s.par s.uniCount k s.uniBlend) (spreadBalance s.uniCount k s.uniSpread)

/-- `voice_note_on` of the voices of a unison group, whose first has spread index `k` (R157). -/
def State.unisonGroup (note : Nat) (vel : F32) : List Nat → Nat → State → State
  | [], _, s => s
  | i :: is, k, s => State.unisonGroup note vel is (k + 1) (s.unisonVoiceOn note vel i k)

/-! ### allocate and release -/

/-- The global pack's `note_on` (R155). -/
def State.globalNoteOn (s : State) (vel : F32) : State :=
  { s with global := s.global.noteOn vel s.clkTick }

/-- `allocate(note, vel)` (R155). A note already held is ignored; a Unison note with too few free voices is
dropped (R157). -/
def State.allocate (s : State) (note : Nat) (vel : F32) : State :=
  if s.hasNote note then s
  else
    match s.polyMode with
    | .poly => (s.polyOn note vel).globalNoteOn vel
    | .unison =>
      if s.freeVoices.length < s.uniCount then s
      else (State.unisonGroup note vel (s.freeVoices.take s.uniCount) 0 s).globalNoteOn vel

/-- Releasing every voice that `sel` selects, and then the global pack if there is one (R160, R161). -/
def State.releaseWhere (s : State) (sel : VoiceRec → Bool) : State :=
  { s with
      voice := s.voice.map fun v => if sel v then v.release s.clkTick else v
      global := if s.voice.any sel then s.global.noteOff s.clkTick else s.global }

/-- `release(note)` (R160). -/
def State.releaseNote (s : State) (note : Nat) : State := s.releaseWhere fun v => v.note == some note

/-- `release_all()` (R161). -/
def State.releaseAll (s : State) : State :=
  { s.releaseWhere (fun v => v.note.isSome) with lastVoice := s.par.voices - 1 }

/-! ### The commands -/

/-- The checks of NOTE_ON and NOTE_OFF, in order: the note, then the velocity (R71, R72). -/
def noteFault (note : BitVec 8) (velocity : F32) : Option FaultKind :=
  if 127 < note.toNat then some .badNote
  else if F32.isFinite velocity then none
  else some .badValue

/-- `NOTE_ON note, velocity` (R71). -/
def execNoteOn (note : BitVec 8) (velocity : F32) (s : State) : Host.Outcome State Fault Refusal :=
  .next <| s.unlessHalted fun s =>
    match noteFault note velocity with
    | some k => s.takeFault k (encode (.noteOn note velocity))
    | none => s.allocate note.toNat (F32.clampU velocity)

/-- `NOTE_OFF note, velocity`; the velocity is checked and then ignored (R72). -/
def execNoteOff (note : BitVec 8) (velocity : F32) (s : State) : Host.Outcome State Fault Refusal :=
  .next <| s.unlessHalted fun s =>
    match noteFault note velocity with
    | some k => s.takeFault k (encode (.noteOff note velocity))
    | none => s.releaseNote note.toNat

end Sys2Proof.Machine
end

