-- ==== Sys2Proof/Machine/Operands.lean ====
section
/-! DEFINITION. The operands of the commands: the register addresses (R16 to R36) and the ways a WR value is
read and checked (R58, R64, R74 to R79). -/

namespace Sys2Proof.Machine

/-! ### The registers -/

/-- The registers of an envelope slot, in the order of their offsets (R27). -/
inductive EnvField where
  | enabled | amount | target | delay | attack | hold | decay | sustain | release
deriving DecidableEq, Repr

/-- The registers of an LFO slot (R28). -/
inductive LfoField where
  | enabled | amount | freq | waveform | width | target
deriving DecidableEq, Repr

/-- The registers of an operator slot (R29). -/
inductive OpField where
  | enabled | output | tuneSemi | tuneCents | wtPos
deriving DecidableEq, Repr

/-- The registers of a voice record (R32). -/
inductive VoiceField where
  | note | rootFreq | detune | blend | balance | velocity
deriving DecidableEq, Repr

/-- The registers of an envelope instance (R34). -/
inductive EnvStateField where
  | state | vel | at_
deriving DecidableEq, Repr

/-- The registers of an LFO instance (R34). -/
inductive LfoStateField where
  | active | stopped | last
deriving DecidableEq, Repr

/-- A pack (R35). -/
inductive PackId where
  | global
  | voice (v : Nat)
deriving DecidableEq, Repr

/-- Every register of the register space, by name (R18 to R35). -/
inductive Reg where
  | id | cfgVoices | cfgOscs | cfgLfos | cfgEnvs | cfgDepth | cfgLength
  | status | err | errSeq | errCmdHi | errCmdLo | cmdSeq | irqEn
  | clkRate | clkTick | outL | outR
  | polyMode | polyLast | uniCount | uniDetune | uniBlend | uniSpread | notePriority
  | env (e : Nat) (f : EnvField)
  | lfo (l : Nat) (f : LfoField)
  | op (i : Nat) (f : OpField)
  | hasNote (n : Nat)
  | voice (v : Nat) (f : VoiceField)
  | opAnchor (v i : Nat)
  | packEnv (p : PackId) (e : Nat) (f : EnvStateField)
  | packLfo (p : PackId) (l : Nat) (f : LfoStateField)
deriving DecidableEq, Repr

/-- The access of a mapped register (R16). -/
inductive Access where
  | ro
  | rw
deriving DecidableEq, Repr

/-! ### Offsets within a block: the tables of R27 to R29, R32 and R34 -/

def envFieldAt : Nat → Option EnvField
  | 0 => some .enabled
  | 1 => some .amount
  | 2 => some .target
  | 3 => some .delay
  | 4 => some .attack
  | 5 => some .hold
  | 6 => some .decay
  | 7 => some .sustain
  | 8 => some .release
  | _ => none

def lfoFieldAt : Nat → Option LfoField
  | 0 => some .enabled
  | 1 => some .amount
  | 2 => some .freq
  | 3 => some .waveform
  | 4 => some .width
  | 5 => some .target
  | _ => none

def opFieldAt : Nat → Option OpField
  | 0 => some .enabled
  | 1 => some .output
  | 2 => some .tuneSemi
  | 3 => some .tuneCents
  | 4 => some .wtPos
  | _ => none

def voiceFieldAt : Nat → Option VoiceField
  | 0 => some .note
  | 1 => some .rootFreq
  | 2 => some .detune
  | 3 => some .blend
  | 4 => some .balance
  | 5 => some .velocity
  | _ => none

def envStateFieldAt : Nat → Option EnvStateField
  | 0 => some .state
  | 1 => some .vel
  | 2 => some .at_
  | _ => none

def lfoStateFieldAt : Nat → Option LfoStateField
  | 0 => some .active
  | 1 => some .stopped
  | 2 => some .last
  | _ => none

/-! ### The address map (R36) -/

/-- The register at an offset from a pack's base (R34). -/
def packRegAt (p : Params) (k : PackId) (off : Nat) : Option Reg :=
  if 0x20 ≤ off ∧ off < 0x60 then
    if (off - 0x20) / 4 < p.envs then
      (envStateFieldAt ((off - 0x20) % 4)).map (.packEnv k ((off - 0x20) / 4))
    else none
  else if 0x60 ≤ off then
    if (off - 0x60) / 4 < p.lfos then
      (lfoStateFieldAt ((off - 0x60) % 4)).map (.packLfo k ((off - 0x60) / 4))
    else none
  else none

/-- The register at an offset from a voice's base (R32, R33, R35). -/
def voiceRegAt (p : Params) (v off : Nat) : Option Reg :=
  if off < 0x10 then (voiceFieldAt off).map (.voice v)
  else if off < 0x20 then (if off - 0x10 < p.oscs then some (.opAnchor v (off - 0x10)) else none)
  else packRegAt p (.voice v) off

/-- The control and polyphony registers (R18 to R26, R30). -/
def controlRegAt : Nat → Option Reg
  | 0x00 => some .id
  | 0x01 => some .cfgVoices
  | 0x02 => some .cfgOscs
  | 0x03 => some .cfgLfos
  | 0x04 => some .cfgEnvs
  | 0x05 => some .cfgDepth
  | 0x06 => some .cfgLength
  | 0x08 => some .status
  | 0x09 => some .err
  | 0x0A => some .errSeq
  | 0x0B => some .errCmdHi
  | 0x0C => some .errCmdLo
  | 0x0D => some .cmdSeq
  | 0x0E => some .irqEn
  | 0x10 => some .clkRate
  | 0x11 => some .clkTick
  | 0x12 => some .outL
  | 0x13 => some .outR
  | 0x20 => some .polyMode
  | 0x21 => some .polyLast
  | 0x22 => some .uniCount
  | 0x23 => some .uniDetune
  | 0x24 => some .uniBlend
  | 0x25 => some .uniSpread
  | 0x26 => some .notePriority
  | _ => none

/-- The register at the address `n`; `none` is an unmapped address (R16, R36). -/
def regAtNat (p : Params) (n : Nat) : Option Reg :=
  if n < 0x0100 then controlRegAt n
  else if n < 0x0200 then
    (if (n - 0x0100) / 16 < p.envs then (envFieldAt (n % 16)).map (.env ((n - 0x0100) / 16)) else none)
  else if n < 0x0300 then
    (if (n - 0x0200) / 16 < p.lfos then (lfoFieldAt (n % 16)).map (.lfo ((n - 0x0200) / 16)) else none)
  else if n < 0x0400 then
    (if (n - 0x0300) / 16 < p.oscs then (opFieldAt (n % 16)).map (.op ((n - 0x0300) / 16)) else none)
  else if n < 0x0480 then some (.hasNote (n - 0x0400))
  else if n < 0x0800 then none
  else if n < 0x0900 then packRegAt p .global (n - 0x0800)
  else if n < 0x1000 then none
  else if n < 0x5000 then
    (if (n - 0x1000) / 256 < p.voices then voiceRegAt p ((n - 0x1000) / 256) (n % 256) else none)
  else none

/-- The register a WR or RD names by its address field (R59). -/
def regAt (p : Params) (a : BitVec 16) : Option Reg := regAtNat p a.toNat

/-! ### Addresses by name: the other direction of the tables -/

def EnvField.offset : EnvField → Nat
  | .enabled => 0
  | .amount => 1
  | .target => 2
  | .delay => 3
  | .attack => 4
  | .hold => 5
  | .decay => 6
  | .sustain => 7
  | .release => 8

def LfoField.offset : LfoField → Nat
  | .enabled => 0
  | .amount => 1
  | .freq => 2
  | .waveform => 3
  | .width => 4
  | .target => 5

def OpField.offset : OpField → Nat
  | .enabled => 0
  | .output => 1
  | .tuneSemi => 2
  | .tuneCents => 3
  | .wtPos => 4

def VoiceField.offset : VoiceField → Nat
  | .note => 0
  | .rootFreq => 1
  | .detune => 2
  | .blend => 3
  | .balance => 4
  | .velocity => 5

def EnvStateField.offset : EnvStateField → Nat
  | .state => 0
  | .vel => 1
  | .at_ => 2

def LfoStateField.offset : LfoStateField → Nat
  | .active => 0
  | .stopped => 1
  | .last => 2

/-- The base of a pack (R35). -/
def PackId.base : PackId → Nat
  | .global => 0x0800
  | .voice v => 0x1000 + 0x100 * v

/-- The address of a register. -/
def Reg.address : Reg → Nat
  | .id => 0x0000
  | .cfgVoices => 0x0001
  | .cfgOscs => 0x0002
  | .cfgLfos => 0x0003
  | .cfgEnvs => 0x0004
  | .cfgDepth => 0x0005
  | .cfgLength => 0x0006
  | .status => 0x0008
  | .err => 0x0009
  | .errSeq => 0x000A
  | .errCmdHi => 0x000B
  | .errCmdLo => 0x000C
  | .cmdSeq => 0x000D
  | .irqEn => 0x000E
  | .clkRate => 0x0010
  | .clkTick => 0x0011
  | .outL => 0x0012
  | .outR => 0x0013
  | .polyMode => 0x0020
  | .polyLast => 0x0021
  | .uniCount => 0x0022
  | .uniDetune => 0x0023
  | .uniBlend => 0x0024
  | .uniSpread => 0x0025
  | .notePriority => 0x0026
  | .env e f => 0x0100 + 0x10 * e + f.offset
  | .lfo l f => 0x0200 + 0x10 * l + f.offset
  | .op i f => 0x0300 + 0x10 * i + f.offset
  | .hasNote n => 0x0400 + n
  | .voice v f => 0x1000 + 0x100 * v + f.offset
  | .opAnchor v i => 0x1000 + 0x100 * v + 0x10 + i
  | .packEnv k e f => k.base + 0x20 + 4 * e + f.offset
  | .packLfo k l f => k.base + 0x60 + 4 * l + f.offset

/-- The access of a register: the configuration registers, the clock and `IRQ_EN` are `RW`, every other one
is `RO` (R18 to R34). -/
def Reg.access : Reg → Access
  | .irqEn | .clkRate | .clkTick => .rw
  | .polyMode | .uniCount | .uniDetune | .uniBlend | .uniSpread | .notePriority => .rw
  | .env _ _ | .lfo _ _ | .op _ _ => .rw
  | .id | .cfgVoices | .cfgOscs | .cfgLfos | .cfgEnvs | .cfgDepth | .cfgLength => .ro
  | .status | .err | .errSeq | .errCmdHi | .errCmdLo | .cmdSeq | .outL | .outR => .ro
  | .polyLast | .hasNote _ | .voice _ _ | .opAnchor _ _ | .packEnv _ _ _ | .packLfo _ _ _ => .ro

/-! ### WR values: each reads the 32-bit value, `none` is `BAD_VALUE` -/

/-- `bool` (R74). -/
def boolOperand (v : U32) : Option Bool :=
  if v = 0 then some false else if v = 1 then some true else none

/-- `unit`: a finite binary32, clamped (R75). -/
def unitOperand (v : U32) : Option F32 := if F32.isFinite v then some (F32.clampU v) else none

/-- `LFOl_FREQ`: a finite binary32 with `0 < x <= 2^20`, unchanged (R76). -/
def freqOperand (v : U32) : Option F32 :=
  if F32.isFinite v && F32.lt F32.zero v && F32.le v F32.twoPow20 then some v else none

/-- `ENVe_RELEASE` and `CLK_RATE`: any u32 but 0 (R77, R79). -/
def nonzeroOperand (v : U32) : Option U32 := if v = 0 then none else some v

/-- A modulation target: 0, 1 and `2 + i` for `i < OSCS` (R64, R78). -/
def targetOperand (p : Params) (v : U32) : Option ModTarget :=
  if v = 0 then some .globalLevel
  else if v = 1 then some .globalPitch
  else if v.toNat - 2 < p.oscs then some (.oscWtPos (v.toNat - 2))
  else none

/-- `LFOl_WAVEFORM` (R64, R78). -/
def waveformOperand (v : U32) : Option Waveform :=
  if v = 0 then some .pulse
  else if v = 1 then some .sine
  else if v = 2 then some .triangle
  else if v = 3 then some .saw
  else if v = 4 then some .reverseSaw
  else none

/-- `OPi_OUTPUT` (R64, R78). -/
def outputOperand (v : U32) : Option Output :=
  if v = 0 then some .direct
  else if v = 1 then some .fmNext
  else if v = 2 then some .amNext
  else if v = 3 then some .rmNext
  else none

/-- `POLY_MODE` (R64, R78). -/
def polyModeOperand (v : U32) : Option PolyMode :=
  if v = 0 then some .poly else if v = 1 then some .unison else none

/-- A two's-complement i32 within `bound` of 0 (R58, R79). -/
def tuneOperand (bound : Int) (v : U32) : Option Int :=
  if -bound ≤ v.toInt ∧ v.toInt ≤ bound then some v.toInt else none

/-- `UNI_COUNT`: 1..VOICES (R79). -/
def countOperand (p : Params) (v : U32) : Option Nat :=
  if 1 ≤ v.toNat ∧ v.toNat ≤ p.voices then some v.toNat else none

/-! ### Read values (R17): the codes of R64 -/

def boolCode (b : Bool) : U32 := if b then 1 else 0

def ModTarget.code : ModTarget → U32
  | .globalLevel => 0
  | .globalPitch => 1
  | .oscWtPos i => BitVec.ofNat 32 (2 + i)

def Waveform.code : Waveform → U32
  | .pulse => 0
  | .sine => 1
  | .triangle => 2
  | .saw => 3
  | .reverseSaw => 4

def Output.code : Output → U32
  | .direct => 0
  | .fmNext => 1
  | .amNext => 2
  | .rmNext => 3

def PolyMode.code : PolyMode → U32
  | .poly => 0
  | .unison => 1

/-- A note number, or `0xFFFFFFFF` for NONE (R17). -/
def noteCode : Option Nat → U32
  | some n => BitVec.ofNat 32 n
  | none => 0xFFFFFFFF#32

/-- `ENV_STATE` (R34). -/
def EnvState.code : EnvState → U32
  | .idle => 0
  | .noteOn _ _ => 1
  | .noteOff _ => 2

/-- `ENV_VEL`: +0.0 unless the state is `NoteOn` (R34). -/
def EnvState.velCode : EnvState → U32
  | .noteOn vel _ => vel
  | .idle => F32.zero
  | .noteOff _ => F32.zero

/-- `ENV_AT`: 0 in `Idle` (R34). -/
def EnvState.atCode : EnvState → U32
  | .idle => 0
  | .noteOn _ t => t
  | .noteOff t => t

end Sys2Proof.Machine
end

