-- ==== Sys2Proof/Machine/Registers.lean ====
section
/-! DEFINITION. The register space: reading a register (R81), writing one (R73, R80), and the commands WR, RD
and NOP. -/

namespace Sys2Proof.Machine

/-! ### Reading (R17) -/

def EnvProps.read (e : EnvProps) : EnvField → U32
  | .enabled => boolCode e.enabled
  | .amount => e.amount
  | .target => e.target.code
  | .delay => e.delay
  | .attack => e.attack
  | .hold => e.hold
  | .decay => e.decay
  | .sustain => e.sustain
  | .release => e.release

def LfoProps.read (l : LfoProps) : LfoField → U32
  | .enabled => boolCode l.enabled
  | .amount => l.amount
  | .freq => l.freq
  | .waveform => l.waveform.code
  | .width => l.width
  | .target => l.target.code

def OpProps.read (o : OpProps) : OpField → U32
  | .enabled => boolCode o.enabled
  | .output => o.output.code
  | .tuneSemi => BitVec.ofInt 32 o.tuneSemi
  | .tuneCents => BitVec.ofInt 32 o.tuneCents
  | .wtPos => o.wtPos

def VoiceRec.read (v : VoiceRec) : VoiceField → U32
  | .note => noteCode v.note
  | .rootFreq => v.rootFreq
  | .detune => v.detune
  | .blend => v.blend
  | .balance => v.balance
  | .velocity => v.velocity

def EnvState.read (x : EnvState) : EnvStateField → U32
  | .state => x.code
  | .vel => x.velCode
  | .at_ => x.atCode

def LfoState.read (x : LfoState) : LfoStateField → U32
  | .active => boolCode x.active
  | .stopped => boolCode x.stopped
  | .last => x.last

/-- A pack by its name (R35). -/
def State.pack? (s : State) : PackId → Option Pack
  | .global => some s.global
  | .voice v => (s.voice[v]?).map (·.pack)

/-- The value of a register; `none` only for a slot the state does not hold. -/
def State.readReg (s : State) : Reg → Option U32
  | .id => some 0x50415701#32
  | .cfgVoices => some (BitVec.ofNat 32 s.par.voices)
  | .cfgOscs => some (BitVec.ofNat 32 s.par.oscs)
  | .cfgLfos => some (BitVec.ofNat 32 s.par.lfos)
  | .cfgEnvs => some (BitVec.ofNat 32 s.par.envs)
  | .cfgDepth => some (BitVec.ofNat 32 s.par.depth)
  | .cfgLength => some (BitVec.ofNat 32 s.par.length)
  | .status => some s.statusWord
  | .err => some (s.err.setWidth 32)
  | .errSeq => some s.errSeq
  | .errCmdHi => some (s.errCmd.extractLsb' 32 32)
  | .errCmdLo => some (s.errCmd.extractLsb' 0 32)
  | .cmdSeq => some s.cmdSeq
  | .irqEn => some (boolCode s.irqEn)
  | .clkRate => some s.clkRate
  | .clkTick => some s.clkTick
  | .outL => some s.outL
  | .outR => some s.outR
  | .polyMode => some s.polyMode.code
  | .polyLast => some (BitVec.ofNat 32 s.lastVoice)
  | .uniCount => some (BitVec.ofNat 32 s.uniCount)
  | .uniDetune => some s.uniDetune
  | .uniBlend => some s.uniBlend
  | .uniSpread => some s.uniSpread
  | .notePriority => some 2
  | .env e f => (s.env[e]?).map fun x => x.read f
  | .lfo l f => (s.lfo[l]?).map fun x => x.read f
  | .op i f => (s.op[i]?).map fun x => x.read f
  | .hasNote n => some (boolCode (s.hasNote n))
  | .voice v f => (s.voice[v]?).map fun x => x.read f
  | .opAnchor v i => (s.voice[v]?).bind fun x => x.anchors[i]?
  | .packEnv k e f => (s.pack? k).bind fun q => (q.envs[e]?).map fun x => x.read f
  | .packLfo k l f => (s.pack? k).bind fun q => (q.lfos[l]?).map fun x => x.read f

/-- The value an RD of the address `a` gives; `none` for an unmapped address (R16). -/
def State.peek (s : State) (a : BitVec 16) : Option U32 := (regAt s.par a).bind s.readReg

/-! ### Writing: `none` is `BAD_VALUE` (R74 to R79) -/

def EnvProps.write (p : Params) (e : EnvProps) (f : EnvField) (v : U32) : Option EnvProps :=
  match f with
  | .enabled => (boolOperand v).map fun x => { e with enabled := x }
  | .amount => (unitOperand v).map fun x => { e with amount := x }
  | .target => (targetOperand p v).map fun x => { e with target := x }
  | .delay => some { e with delay := v }
  | .attack => some { e with attack := v }
  | .hold => some { e with hold := v }
  | .decay => some { e with decay := v }
  | .sustain => (unitOperand v).map fun x => { e with sustain := x }
  | .release => (nonzeroOperand v).map fun x => { e with release := x }

def LfoProps.write (p : Params) (l : LfoProps) (f : LfoField) (v : U32) : Option LfoProps :=
  match f with
  | .enabled => (boolOperand v).map fun x => { l with enabled := x }
  | .amount => (unitOperand v).map fun x => { l with amount := x }
  | .freq => (freqOperand v).map fun x => { l with freq := x }
  | .waveform => (waveformOperand v).map fun x => { l with waveform := x }
  | .width => (unitOperand v).map fun x => { l with width := x }
  | .target => (targetOperand p v).map fun x => { l with target := x }

def OpProps.write (o : OpProps) (f : OpField) (v : U32) : Option OpProps :=
  match f with
  | .enabled => (boolOperand v).map fun x => { o with enabled := x }
  | .output => (outputOperand v).map fun x => { o with output := x }
  | .tuneSemi => (tuneOperand 36 v).map fun x => { o with tuneSemi := x }
  | .tuneCents => (tuneOperand 50 v).map fun x => { o with tuneCents := x }
  | .wtPos => (unitOperand v).map fun x => { o with wtPos := x }

/-- Writing an element of a list, with a write of its own that may refuse the value. -/
def writeAt {α : Type} (xs : List α) (i : Nat) (f : α → Option α) : Option (List α) :=
  (xs[i]?).bind fun x => (f x).map fun y => xs.set i y

/-- The state after the value `v` is written to the `RW` register `r`, with the side effect of POLY_MODE
(R80). Read-only registers have no write; WR refuses them before (R73). -/
def State.writeReg (s : State) (r : Reg) (v : U32) : Option State :=
  match r with
  | .irqEn => (boolOperand v).map fun x => { s with irqEn := x }
  | .clkRate => (nonzeroOperand v).map fun x => { s with clkRate := x }
  | .clkTick => some { s with clkTick := v }
  | .polyMode => (polyModeOperand v).map fun m => { s.releaseAll with polyMode := m }
  | .uniCount => (countOperand s.par v).map fun n => { s with uniCount := n }
  | .uniDetune => (unitOperand v).map fun x => { s with uniDetune := x }
  | .uniBlend => (unitOperand v).map fun x => { s with uniBlend := x }
  | .uniSpread => (unitOperand v).map fun x => { s with uniSpread := x }
  | .notePriority => if v = 2 then some s else none
  | .env e f => (writeAt s.env e fun x => x.write s.par f v).map fun l => { s with env := l }
  | .lfo e f => (writeAt s.lfo e fun x => x.write s.par f v).map fun l => { s with lfo := l }
  | .op i f => (writeAt s.op i fun x => x.write f v).map fun l => { s with op := l }
  | .id | .cfgVoices | .cfgOscs | .cfgLfos | .cfgEnvs | .cfgDepth | .cfgLength => none
  | .status | .err | .errSeq | .errCmdHi | .errCmdLo | .cmdSeq | .outL | .outR => none
  | .polyLast | .hasNote _ | .voice _ _ | .opAnchor _ _ | .packEnv _ _ _ | .packLfo _ _ _ => none

/-! ### The commands -/

/-- `WR a, value` on a core that is not halted: mapped, then `RW`, then a legal value (R73). -/
def State.writeAddress (s : State) (a : BitVec 16) (value : U32) : State :=
  match regAt s.par a with
  | none => s.takeFault .badAddr (encode (.wr a value))
  | some r =>
    if r.access = .ro then s.takeFault .roWrite (encode (.wr a value))
    else
      match s.writeReg r value with
      | none => s.takeFault .badValue (encode (.wr a value))
      | some s' => s'

/-- `WR a, value` (R73). -/
def execWr (a : BitVec 16) (value : U32) (s : State) : Host.Outcome State Fault Refusal :=
  .next <| s.unlessHalted fun s => s.writeAddress a value

/-- `RD a`, on a halted core too: one response word, 0 before `BAD_ADDR` for an unmapped address (R81). -/
def execRd (a : BitVec 16) (s : State) : Host.Outcome State Fault Refusal :=
  .next <|
    match s.peek a with
    | none => (s.emitRead 0).takeFault .badAddr (encode (.rd a))
    | some v => s.emitRead v

/-- `NOP`: no effect (R69). -/
def execNop (s : State) : Host.Outcome State Fault Refusal := .next s

end Sys2Proof.Machine
end

