-- ==== Sys2Proof/Machine/Dispatch.lean ====
section
/-! DEFINITION. `exec`: the meaning of each command (R69 to R83). -/

namespace Sys2Proof.Machine

/-- The effect of a decoded command. Counting it in `CMD_SEQ` belongs to the step (R68). -/
def exec (i : Instr) (s : State) : Host.Outcome State Fault Refusal :=
  match i with
  | .nop => Sys2Proof.Machine.execNop s
  | .tick => Sys2Proof.Machine.execTick s
  | .noteOn note velocity => Sys2Proof.Machine.execNoteOn note velocity s
  | .noteOff note velocity => Sys2Proof.Machine.execNoteOff note velocity s
  | .wr a value => Sys2Proof.Machine.execWr a value s
  | .rd a => Sys2Proof.Machine.execRd a s
  | .wtWr row col sample => Sys2Proof.Machine.execWtWr row col sample s
  | .wtSeal => Sys2Proof.Machine.execWtSeal s

end Sys2Proof.Machine
end

