-- ==== Sys2Proof/Machine/Step.lean ====
section
/-! DEFINITION. One step of the core: it takes the next input from its port (R68, R181). -/

namespace Sys2Proof.Machine

/-- One command word, taken from the port (R68): a legal word executes, an ILLEGAL one faults or is discarded,
and `CMD_SEQ` counts it in either case. -/
def stepWord (w : Word) (s : State) : Host.Outcome State Fault Refusal :=
  mapNext State.countCommand <|
    match decode w with
    | some i => exec i s
    | none => .next (s.illegalWord w)

/-- One step. A core whose host has sent nothing is idle and keeps its state (R179). -/
def step (s : State) : Host.Outcome State Fault Refusal :=
  match s.takeInput with
  | none => .next s
  | some (.word w, s') => stepWord w s'
  | some (.reset, s') => .next s'.assertReset

/-- `s` with the command of an opcode-table row as the next word of the port. -/
def State.withFetchWord (s : State) (nbits w : Nat) : State :=
  { s with port := .word (tableWord nbits w) :: s.port }

end Sys2Proof.Machine
end

