-- ==== Sys2Proof/Machine/Pseudo.lean ====
section
/-! DEFINITION. The pseudo-instructions and their expansions (R66). They have no words of their own. -/

namespace Sys2Proof.Machine

/-- `WR` of a register by its name (R65). -/
def wrNamed (r : Reg) (value : U32) : Instr := .wr (BitVec.ofNat 16 r.address) value

/-- `SEEK t` -/
def pseudoSeek (t : U32) : List Instr := [wrNamed .clkTick t]

/-- `RATE r` -/
def pseudoRate (r : U32) : List Instr := [wrNamed .clkRate r]

/-- `TICKS k` -/
def pseudoTicks (k : Nat) : List Instr := List.replicate k .tick

/-- `WT_ROW j, s0, s1, ...`, columns ascending -/
def pseudoWtRow (row : BitVec 8) (samples : List F32) : List Instr :=
  samples.zipIdx.map fun x => .wtWr row (BitVec.ofNat 16 x.2) x.1

/-- `ENV_ADSR e, d, a, h, dc, s, r` -/
def pseudoEnvAdsr (e : Nat) (d a h dc : U32) (s : F32) (r : U32) : List Instr :=
  [wrNamed (.env e .delay) d, wrNamed (.env e .attack) a, wrNamed (.env e .hold) h,
   wrNamed (.env e .decay) dc, wrNamed (.env e .sustain) s, wrNamed (.env e .release) r]

/-- `RDERR` -/
def pseudoRdErr : List Instr := [.rd (BitVec.ofNat 16 Reg.err.address)]

end Sys2Proof.Machine
end

