-- ==== Sys2Proof/Safety.lean ====
section
/-! DEFINITION. What a good state of the core is: the invariants the spec's rules imply for every state that a
run from reset reaches, in the terms the statements use. Each is a structure of named facts. -/

namespace Sys2Proof.Machine

/-! ### Intervals (R8, R11) -/

/-- A UnitInterval other than -0.0: `clamp_u` and the spread never give -0.0 (R11). -/
abbrev unitBits (x : F32) : Prop := x.toNat ≤ 0x3F800000

/-- A SignedUnitInterval (R8). -/
abbrev signedUnitBits (x : F32) : Prop := F32.mag x ≤ 0x3F800000

/-! ### Sizes (R14, R40) -/

/-- A pack holds one instance for each slot (R34). -/
abbrev Pack.sized (p : Params) (k : Pack) : Prop := k.envs.length = p.envs ∧ k.lfos.length = p.lfos

/-- A voice holds one anchor for each operator, and a pack (R33, R35). -/
abbrev VoiceRec.sized (p : Params) (v : VoiceRec) : Prop := v.anchors.length = p.oscs ∧ v.pack.sized p

/-- The parameters are in their ranges and every array has its size (R5, R40). -/
structure State.Sized (s : State) : Prop where
  params : s.par.valid
  env    : s.env.length = s.par.envs
  lfo    : s.lfo.length = s.par.lfos
  op     : s.op.length = s.par.oscs
  voice  : s.voice.length = s.par.voices
  voices : ∀ v ∈ s.voice, v.sized s.par
  global : s.global.sized s.par

/-! ### The configuration registers hold legal values (R23, R27 to R30) -/

/-- A target code names an operator the core has (R64). -/
abbrev ModTarget.legal (p : Params) : ModTarget → Prop
  | .globalLevel => True
  | .globalPitch => True
  | .oscWtPos i => i < p.oscs

structure EnvProps.Legal (p : Params) (e : EnvProps) : Prop where
  amount  : unitBits e.amount
  target  : e.target.legal p
  sustain : unitBits e.sustain
  release : e.release ≠ 0

structure LfoProps.Legal (p : Params) (l : LfoProps) : Prop where
  amount : unitBits l.amount
  freq   : F32.isFinite l.freq ∧ F32.lt F32.zero l.freq ∧ F32.le l.freq F32.twoPow20
  width  : unitBits l.width
  target : l.target.legal p

structure OpProps.Legal (o : OpProps) : Prop where
  semi  : -36 ≤ o.tuneSemi ∧ o.tuneSemi ≤ 36
  cents : -50 ≤ o.tuneCents ∧ o.tuneCents ≤ 50
  wtPos : unitBits o.wtPos

structure State.ConfigLegal (s : State) : Prop where
  rate   : s.clkRate ≠ 0
  env    : ∀ e ∈ s.env, e.Legal s.par
  lfo    : ∀ l ∈ s.lfo, l.Legal s.par
  op     : ∀ o ∈ s.op, o.Legal
  count  : 1 ≤ s.uniCount ∧ s.uniCount ≤ s.par.voices
  detune : unitBits s.uniDetune
  blend  : unitBits s.uniBlend
  spread : unitBits s.uniSpread

/-! ### The fault record (R20, R21, R168, R172) -/

/-- Every fault kind. -/
abbrev FaultKind.all : List FaultKind :=
  [.illegalCmd, .badAddr, .roWrite, .badValue, .wtLocked, .notSealed, .badNote]

/-- `HALTED` is set exactly when `ERR` is not 0; the capture is empty before the first fault; and `ERR` shows
the first fault's bit, with possibly `BAD_ADDR` from a halted RD beside it. -/
structure State.FaultRecord (s : State) : Prop where
  halted  : s.halted = true ↔ s.err ≠ 0
  capture : s.halted = false → s.errSeq = 0 ∧ s.errCmd = 0
  bits    : s.err = 0 ∨ ∃ k ∈ FaultKind.all, s.err = k.bit ∨ s.err = k.bit ||| FaultKind.badAddr.bit

/-! ### The wavetable (R42) -/

/-- The memory is in canonical form and its entries are cells of the table, with finite values in
[-1.0, 1.0]. -/
structure State.TableLegal (s : State) : Prop where
  wf    : s.wt.wf = true
  cells : ∀ c ∈ s.wt, c.1 / 65536 < s.par.depth ∧ c.1 % 65536 < s.par.length ∧ legalSample c.2 = true

/-! ### The note map (R154, R162) -/

/-- Held notes are note numbers, `POLY_LAST` names a voice, and in Poly mode no note is held twice. -/
structure State.NotesLegal (s : State) : Prop where
  notes : ∀ v ∈ s.voice, ∀ n, v.note = some n → n ≤ 127
  last  : s.lastVoice < s.par.voices
  poly  : s.polyMode = .poly → s.voice.Pairwise fun v w => v.note = none ∨ v.note ≠ w.note

/-! ### The voices' intervals (R8, R32, R34) -/

/-- The velocity of a sounding envelope is a UnitInterval (R110). -/
abbrev EnvState.legal : EnvState → Prop
  | .idle => True
  | .noteOn vel _ => unitBits vel
  | .noteOff _ => True

structure VoiceRec.Legal (v : VoiceRec) : Prop where
  freq     : F32.isFinite v.rootFreq ∧ F32.lt F32.zero v.rootFreq
  detune   : signedUnitBits v.detune
  blend    : unitBits v.blend
  balance  : unitBits v.balance
  velocity : unitBits v.velocity
  envs     : ∀ x ∈ v.pack.envs, x.legal

structure State.VoicesLegal (s : State) : Prop where
  voices : ∀ v ∈ s.voice, v.Legal
  global : ∀ x ∈ s.global.envs, x.legal

/-! ### All of them -/

/-- The invariant of the core. -/
structure State.Inv (s : State) : Prop where
  sized  : s.Sized
  config : s.ConfigLegal
  fault  : s.FaultRecord
  table  : s.TableLegal
  notes  : s.NotesLegal
  voices : s.VoicesLegal

/-! ### What one TICK may do to the runtime state (R70) -/

/-- An LFO instance before and after a TICK at `tick`: its anchor moves to the tick or stays, and it may stop;
`active` stays (R125). -/
structure LfoState.Ticked (tick : U32) (x y : LfoState) : Prop where
  active  : y.active = x.active
  stopped : x.stopped = true → y = x
  last    : y.last = x.last ∨ y.last = tick

/-- A pack before and after a TICK: no envelope instance changes (R113). -/
structure Pack.Ticked (tick : U32) (k q : Pack) : Prop where
  envs : q.envs = k.envs
  lfos : List.Forall₂ (LfoState.Ticked tick) k.lfos q.lfos

/-- A voice before and after a TICK: its fields stay, and its anchors move to the tick or stay (R91). -/
structure VoiceRec.Ticked (tick : U32) (v w : VoiceRec) : Prop where
  fields  : w = { v with anchors := w.anchors, pack := w.pack }
  anchors : List.Forall₂ (fun a b => b = a ∨ b = tick) v.anchors w.anchors
  pack    : Pack.Ticked tick v.pack w.pack

/-- A core that executes commands: one that is not halted (R170). -/
abbrev State.running (s : State) : Prop := s.halted = false

/-- A core that can play: running, with its wavetable sealed (R70). -/
abbrev State.playable (s : State) : Prop := s.halted = false ∧ s.sealed = true

end Sys2Proof.Machine
end

