-- ==== Sys2Proof/Certificates/Slice0/Obligations.lean ====
section
/-! DEFINITION. The statements for the provers. `Sys2Proof.Claims` holds the tables and records they are written
with, each taken from the spec's text and not from the model's definitions. -/

namespace Sys2Proof.Claims

open Sys2Proof.Machine

/-- The state in which a running core has taken a fault with the `ERR` bit `bit` for the word `w`, with no
other effect (R168). -/
def faulted (s : State) (bit : BitVec 7) (w : Word) : State :=
  { s with
    err := s.err ||| bit
    errSeq := s.cmdSeq
    errCmd := w
    halted := true }

/-- The state in which a word has been taken from the port and counted, with no other effect (R68). -/
def consumed (s : State) (rest : List Input) : State :=
  { s with
    port := rest
    cmdSeq := s.cmdSeq + 1 }

/-! ### The register tables -/

/-- The registers the core has: every slot index is below its parameter (R16). -/
def Mapped (p : Params) : Reg → Prop
  | .env e _ => e < p.envs
  | .lfo l _ => l < p.lfos
  | .op i _ => i < p.oscs
  | .hasNote n => n < 128
  | .voice v _ => v < p.voices
  | .opAnchor v i => v < p.voices ∧ i < p.oscs
  | .packEnv .global e _ => e < p.envs
  | .packEnv (.voice v) e _ => v < p.voices ∧ e < p.envs
  | .packLfo .global l _ => l < p.lfos
  | .packLfo (.voice v) l _ => v < p.voices ∧ l < p.lfos
  | _ => True

/-- The values a WR of a register may store (R74 to R79); a read-only register takes none. -/
def LegalValue (p : Params) (r : Reg) (v : U32) : Prop :=
  match r with
  | .irqEn | .env _ .enabled | .lfo _ .enabled | .op _ .enabled | .polyMode => v.toNat ≤ 1
  | .env _ .amount | .env _ .sustain | .lfo _ .amount | .lfo _ .width | .op _ .wtPos
  | .uniDetune | .uniBlend | .uniSpread => F32.isFinite v = true
  | .lfo _ .freq =>
    F32.isFinite v = true ∧ F32.lt F32.zero v = true ∧ F32.le v F32.twoPow20 = true
  | .env _ .delay | .env _ .attack | .env _ .hold | .env _ .decay | .clkTick => True
  | .env _ .release | .clkRate => 1 ≤ v.toNat
  | .env _ .target | .lfo _ .target => v.toNat < 2 + p.oscs
  | .lfo _ .waveform => v.toNat ≤ 4
  | .op _ .output => v.toNat ≤ 3
  | .op _ .tuneSemi => -36 ≤ v.toInt ∧ v.toInt ≤ 36
  | .op _ .tuneCents => -50 ≤ v.toInt ∧ v.toInt ≤ 50
  | .uniCount => 1 ≤ v.toNat ∧ v.toNat ≤ p.voices
  | .notePriority => v = 2
  | _ => False

/-- The value a legal WR stores: clamped for a `unit` register, unchanged for any other (R17, R75). -/
def storedValue (r : Reg) (v : U32) : U32 :=
  match r with
  | .env _ .amount | .env _ .sustain | .lfo _ .amount | .lfo _ .width | .op _ .wtPos
  | .uniDetune | .uniBlend | .uniSpread => F32.clampU v
  | _ => v

/-- The value a register reads after reset (R18, R182). -/
def resetValue (p : Params) : Reg → U32
  | .id => 0x50415701#32
  | .cfgVoices => BitVec.ofNat 32 p.voices
  | .cfgOscs => BitVec.ofNat 32 p.oscs
  | .cfgLfos => BitVec.ofNat 32 p.lfos
  | .cfgEnvs => BitVec.ofNat 32 p.envs
  | .cfgDepth => BitVec.ofNat 32 p.depth
  | .cfgLength => BitVec.ofNat 32 p.length
  | .status | .err | .errSeq | .errCmdHi | .errCmdLo | .cmdSeq | .irqEn => 0
  | .clkRate => 48000
  | .clkTick => 0
  | .outL | .outR => 0x00000000#32
  | .polyMode => 0
  | .polyLast => BitVec.ofNat 32 (p.voices - 1)
  | .uniCount => 1
  | .uniDetune => 0x00000000#32
  | .uniBlend => 0x3F000000#32
  | .uniSpread => 0x00000000#32
  | .notePriority => 2
  | .env _ .enabled => 0
  | .env _ .amount => 0x3F800000#32
  | .env _ .target => 0
  | .env _ .delay => 0
  | .env _ .attack => 1
  | .env _ .hold => 0
  | .env _ .decay => 1
  | .env _ .sustain => 0x3F800000#32
  | .env _ .release => 1
  | .lfo _ .enabled => 0
  | .lfo _ .amount => 0x3F800000#32
  | .lfo _ .freq => 0x3F800000#32
  | .lfo _ .waveform => 1
  | .lfo _ .width => 0x3F000000#32
  | .lfo _ .target => 1
  | .op 0 .enabled => 1
  | .op _ _ => 0
  | .hasNote _ => 0
  | .voice _ .note => 0xFFFFFFFF#32
  | .voice _ .rootFreq => 0x43DC0000#32
  | .voice _ .detune => 0x00000000#32
  | .voice _ .blend => 0x3F800000#32
  | .voice _ .balance => 0x3F000000#32
  | .voice _ .velocity => 0x00000000#32
  | .opAnchor _ _ => 0
  | .packEnv _ _ _ => 0
  | .packLfo _ _ .active => 0
  | .packLfo _ _ .stopped => 1
  | .packLfo _ _ .last => 0

/-- The code of a modulation target (R64). -/
def targetValue : ModTarget → U32
  | .globalLevel => 0
  | .globalPitch => 1
  | .oscWtPos i => BitVec.ofNat 32 (2 + i)

/-- The value of an envelope slot's register (R27). -/
def envValue (x : EnvProps) : EnvField → U32
  | .enabled => if x.enabled then 1 else 0
  | .amount => x.amount
  | .target => targetValue x.target
  | .delay => x.delay
  | .attack => x.attack
  | .hold => x.hold
  | .decay => x.decay
  | .sustain => x.sustain
  | .release => x.release

/-- The value of an LFO slot's register (R28, R64). -/
def lfoValue (x : LfoProps) : LfoField → U32
  | .enabled => if x.enabled then 1 else 0
  | .amount => x.amount
  | .freq => x.freq
  | .waveform =>
    match x.waveform with
    | .pulse => 0
    | .sine => 1
    | .triangle => 2
    | .saw => 3
    | .reverseSaw => 4
  | .width => x.width
  | .target => targetValue x.target

/-- The value of an operator slot's register (R29, R64). -/
def opValue (x : OpProps) : OpField → U32
  | .enabled => if x.enabled then 1 else 0
  | .output =>
    match x.output with
    | .direct => 0
    | .fmNext => 1
    | .amNext => 2
    | .rmNext => 3
  | .tuneSemi => BitVec.ofInt 32 x.tuneSemi
  | .tuneCents => BitVec.ofInt 32 x.tuneCents
  | .wtPos => x.wtPos

/-- The value of a voice's register; NONE reads as all ones (R17, R32). -/
def voiceValue (x : VoiceRec) : VoiceField → U32
  | .note =>
    match x.note with
    | some n => BitVec.ofNat 32 n
    | none => 0xFFFFFFFF#32
  | .rootFreq => x.rootFreq
  | .detune => x.detune
  | .blend => x.blend
  | .balance => x.balance
  | .velocity => x.velocity

/-- The value of an envelope instance's register: the velocity reads +0.0 outside `NoteOn`, the tick 0 in `Idle`
(R34). -/
def envStateValue : EnvState → EnvStateField → U32
  | .idle, .state => 0
  | .idle, .vel => 0x00000000#32
  | .idle, .at_ => 0
  | .noteOn _ _, .state => 1
  | .noteOn vel _, .vel => vel
  | .noteOn _ tick, .at_ => tick
  | .noteOff _, .state => 2
  | .noteOff _, .vel => 0x00000000#32
  | .noteOff tick, .at_ => tick

/-- The value of an LFO instance's register (R34). -/
def lfoStateValue (x : LfoState) : LfoStateField → U32
  | .active => if x.active then 1 else 0
  | .stopped => if x.stopped then 1 else 0
  | .last => x.last

/-- The pack of the core with the name `k` (R35). -/
def PackOf (s : State) (k : PackId) (q : Pack) : Prop :=
  match k with
  | .global => q = s.global
  | .voice v => ∃ w, s.voice[v]? = some w ∧ q = w.pack

/-- `v` is the value of the register `r`, in terms of the state (R17 to R35). -/
def RegisterHas (s : State) (r : Reg) (v : U32) : Prop :=
  match r with
  | .id => v = 0x50415701#32
  | .cfgVoices => v = BitVec.ofNat 32 s.par.voices
  | .cfgOscs => v = BitVec.ofNat 32 s.par.oscs
  | .cfgLfos => v = BitVec.ofNat 32 s.par.lfos
  | .cfgEnvs => v = BitVec.ofNat 32 s.par.envs
  | .cfgDepth => v = BitVec.ofNat 32 s.par.depth
  | .cfgLength => v = BitVec.ofNat 32 s.par.length
  | .status => v.toNat = (if s.halted then 1 else 0) + (if s.sealed then 2 else 0)
  | .err => v.toNat = s.err.toNat
  | .errSeq => v = s.errSeq
  | .errCmdHi => v.toNat = s.errCmd.toNat / 2 ^ 32
  | .errCmdLo => v.toNat = s.errCmd.toNat % 2 ^ 32
  | .cmdSeq => v = s.cmdSeq
  | .irqEn => v = if s.irqEn then 1 else 0
  | .clkRate => v = s.clkRate
  | .clkTick => v = s.clkTick
  | .outL => v = s.outL
  | .outR => v = s.outR
  | .polyMode =>
    match s.polyMode with
    | .poly => v = 0
    | .unison => v = 1
  | .polyLast => v = BitVec.ofNat 32 s.lastVoice
  | .uniCount => v = BitVec.ofNat 32 s.uniCount
  | .uniDetune => v = s.uniDetune
  | .uniBlend => v = s.uniBlend
  | .uniSpread => v = s.uniSpread
  | .notePriority => v = 2
  | .env e f => ∃ x, s.env[e]? = some x ∧ v = envValue x f
  | .lfo l f => ∃ x, s.lfo[l]? = some x ∧ v = lfoValue x f
  | .op i f => ∃ x, s.op[i]? = some x ∧ v = opValue x f
  | .hasNote n => ((∃ w ∈ s.voice, w.note = some n) ∧ v = 1) ∨ ((∀ w ∈ s.voice, w.note ≠ some n) ∧ v = 0)
  | .voice i f => ∃ x, s.voice[i]? = some x ∧ v = voiceValue x f
  | .opAnchor j i => ∃ x, s.voice[j]? = some x ∧ x.anchors[i]? = some v
  | .packEnv k e f => ∃ q x, PackOf s k q ∧ q.envs[e]? = some x ∧ v = envStateValue x f
  | .packLfo k l f => ∃ q x, PackOf s k q ∧ q.lfos[l]? = some x ∧ v = lfoStateValue x f

/-! ### Packs and voices after a note event -/

/-- A pack of the core after its `note_on` with the velocity `vel` at `tick` (R111, R128). -/
def packOn (p : Params) (vel : F32) (tick : U32) : Pack where
  envs := List.replicate p.envs (.noteOn vel tick)
  lfos := List.replicate p.lfos { active := true, stopped := false, last := tick }

/-- A voice of the core after its `note_on` at `tick` (R145). -/
def voiceOn (p : Params) (tick : U32) (note : Nat) (vel det blend bal : F32) : VoiceRec where
  note := some note
  rootFreq := p.noteFreq.getD note 0
  detune := det
  blend := blend
  balance := bal
  velocity := vel
  anchors := List.replicate p.oscs tick
  pack := packOn p vel tick

/-- A pack before and after its `note_off` at `tick`: a sounding envelope is in its release from `tick`, an
idle one stays idle, and an LFO loses `active` alone (R112, R128). -/
structure PackOff (tick : U32) (k q : Pack) : Prop where
  envs : List.Forall₂ (fun x y => (x = .idle ∧ y = .idle) ∨ (x ≠ .idle ∧ y = EnvState.noteOff tick)) k.envs q.envs
  lfos : List.Forall₂ (fun x y => y = { active := false, stopped := x.stopped, last := x.last }) k.lfos q.lfos

/-- A voice before and after its release at `tick`: its pack has its `note_off`, its note is NONE and nothing
else changes (R146, R160). -/
structure VoiceOff (tick : U32) (v w : VoiceRec) : Prop where
  fields : w = { v with note := none, pack := w.pack }
  pack   : PackOff tick v.pack w.pack

/-- The state `t` is `s` with every voice that `sel` selects released, the other voices as they were, the global
pack released if there was one to release, and nothing else changed (R160, R161). -/
structure Released (sel : VoiceRec → Prop) (s t : State) : Prop where
  frame  : t = { s with voice := t.voice, global := t.global }
  voices : List.Forall₂ (fun v w => (sel v ∧ VoiceOff s.clkTick v w) ∨ (¬ sel v ∧ w = v)) s.voice t.voice
  global : ((∃ v ∈ s.voice, sel v) ∧ PackOff s.clkTick s.global t.global) ∨
    ((∀ v ∈ s.voice, ¬ sel v) ∧ t.global = s.global)

/-- Voice `i` of the core is free (R154). -/
abbrev FreeVoice (s : State) (i : Nat) : Prop := ∃ v, s.voice[i]? = some v ∧ v.note = none

/-- `i` is the voice that the Poly scan takes: the first free voice in the order that starts at `(POLY_LAST + 1)
mod VOICES`, or the one at the start if no voice is free (R156). -/
def PolyChoice (s : State) (i : Nat) : Prop :=
  (∃ k, k < s.par.voices ∧ i = (s.lastVoice + 1 + k) % s.par.voices ∧ FreeVoice s i ∧
    ∀ j, j < k → ¬ FreeVoice s ((s.lastVoice + 1 + j) % s.par.voices)) ∨
  ((∀ j, ¬ FreeVoice s j) ∧ i = (s.lastVoice + 1) % s.par.voices)

/-- The free voices of the core, lowest first (R157). -/
def freeList (s : State) : List Nat :=
  (List.range s.par.voices).filter fun i => (s.voice[i]?.map fun v => v.note.isNone).getD false

/-- A held note of the core (R154). -/
abbrev Held (s : State) (n : Nat) : Prop := ∃ v ∈ s.voice, v.note = some n

/-- `r` is what the envelopes of the pack answer for the target: the value of the lowest slot with the target, and nothing
if there is none or if it has no value (R133). -/
def EnvelopeAnswer (s : State) (k : Pack) (t : ModTarget) (r : Option ModValue) : Prop :=
  (∀ (e : Nat) (pe : EnvProps) (z : EnvState), s.env[e]? = some pe → pe.target = t →
    (∀ j q, j < e → s.env[j]? = some q → q.target ≠ t) → k.envs[e]? = some z →
    r = (envTick s.clkTick pe z).map .env) ∧
  ((∀ q ∈ s.env, q.target ≠ t) → r = none)

/-- The anchor that an operator at the frequency `f` is left with by a TICK, for the anchor before: the current tick
where the phase comes within the threshold of a cycle's end, and else the anchor before (R88, R90, R92). -/
def anchorAfter (s : State) (f : F32) (anchor : U32) : U32 :=
  let step := F32.div f (F32.ofNat s.clkRate.toNat)
  let p := F32.mul (F32.ofNat (s.clkTick - anchor).toNat) step
  let threshold :=
    match s.par.resyncMode with
    | .invFreq => F32.div F32.one f
    | .step => step
  if F32.le (F32.sub F32.one p) threshold then s.clkTick else anchor

/-- Operator `i` has no chained FM: it is the first, or the operator before it is disabled or not routed to FM
(R137, R142). -/
def NoChainedFm (s : State) (i : Nat) : Prop :=
  ∀ k q, i = k + 1 → s.op[k]? = some q → q.enabled = false ∨ q.output ≠ .fmNext

/-- The small core of the worked examples of R153: two voices, of which voice 0 plays A4 since tick 0, one
octave of a sine-like table in row 0, at tick 1 and 1760 samples a second. -/
def playingCore : State :=
  { State.resetWith Params.vectors with
    sealed := true
    clkRate := 1760
    clkTick := 1
    wt := [(1, 0x3F800000#32), (3, 0xBF800000#32)]
    voice := [voiceOn Params.vectors 0 69 0x3F000000#32 0x00000000#32 0x3F800000#32 0x3F000000#32,
      VoiceRec.reset Params.vectors]
    lastVoice := 0
    global := packOn Params.vectors 0x3F000000#32 0 }

/-- The table of R144: operator 0, operator 1 and the mix. -/
def routingCases : List (OpProps × OpProps × F32) :=
  [({ enabled := true }, {}, 0x3F800000#32),
   ({ enabled := true }, { enabled := true }, 0x40000000#32),
   ({ enabled := true, output := .fmNext }, { enabled := true }, 0x00000000#32),
   ({ enabled := true, output := .amNext }, { enabled := true }, 0x3F800000#32),
   ({ enabled := true, output := .rmNext }, { enabled := true }, 0x3F800000#32),
   ({}, { enabled := true }, 0x3F800000#32),
   ({ enabled := true, output := .fmNext }, { enabled := true, output := .fmNext }, 0x00000000#32)]

end Sys2Proof.Claims

open Sys2Proof Sys2Proof.Machine Sys2Proof.Claims

/-! ### Encoding (spec/30_encoding.md) -/

/-- Decoding the word of any command, with any operands, gives it back. -/
def Obligations.DecodeAfterEncodeIsIdentity : Prop := ∀ i : Instr, decode (encode i) = some i

/-- A command has one word: whatever decodes to it is its encoding. -/
def Obligations.EncodeAfterDecodeIsIdentity : Prop := ∀ (w : Word) (i : Instr), decode w = some i → encode i = w

/-- Decoding agrees with every mask and match of spec/opcode_table.json, and a word that fits no row is
ILLEGAL. -/
def Obligations.DecodeFollowsOpcodeTable : Prop := ∀ w : Word,
  (decode w = some .nop ↔ w &&& 0xFFFFFFFFFFFFFFFF#64 = 0x0000000000000000#64) ∧
  (decode w = some .tick ↔ w &&& 0xFFFFFFFFFFFFFFFF#64 = 0x0100000000000000#64) ∧
  ((∃ n v, decode w = some (.noteOn n v)) ↔ w &&& 0xFFFFFF0000000000#64 = 0x0200000000000000#64) ∧
  ((∃ n v, decode w = some (.noteOff n v)) ↔ w &&& 0xFFFFFF0000000000#64 = 0x0300000000000000#64) ∧
  ((∃ a v, decode w = some (.wr a v)) ↔ w &&& 0xFF0000FF00000000#64 = 0x1000000000000000#64) ∧
  ((∃ a, decode w = some (.rd a)) ↔ w &&& 0xFF0000FFFFFFFFFF#64 = 0x1100000000000000#64) ∧
  ((∃ r c x, decode w = some (.wtWr r c x)) ↔ w &&& 0xFF00000000000000#64 = 0x2000000000000000#64) ∧
  (decode w = some .wtSeal ↔ w &&& 0xFFFFFFFFFFFFFFFF#64 = 0x2100000000000000#64)

/-- The eight bytes of a command, least significant first, decode to it from the head of any stream. -/
def Obligations.CommandBytesDecodeFromStream : Prop :=
  ∀ (i : Instr) (rest : List Byte), decodeBytes (wordBytes (encode i) ++ rest) = some (i, rest)

/-- The worked encodings of R67. -/
def Obligations.WorkedWordsDecode : Prop :=
  decode 0x0000000000000000#64 = some .nop ∧
  decode 0x0100000000000000#64 = some .tick ∧
  decode 0x020000453F800000#64 = some (.noteOn 69#8 0x3F800000#32) ∧
  decode 0x0300004500000000#64 = some (.noteOff 69#8 0x00000000#32) ∧
  decode 0x10001000000006E0#64 = some (.wr 0x0010#16 1760#32) ∧
  decode 0x100107003F000000#64 = some (.wr 0x0107#16 0x3F000000#32) ∧
  decode 0x10031200FFFFFFF4#64 = some (.wr 0x0312#16 (BitVec.ofInt 32 (-12))) ∧
  decode 0x1104450000000000#64 = some (.rd 0x0445#16) ∧
  decode 0x20000301BF800000#64 = some (.wtWr 1#8 3#16 0xBF800000#32) ∧
  decode 0x2100000000000000#64 = some .wtSeal

/-! ### The execution cycle (R68, R25, R179, R181) -/

/-- A step on a legal word is the command's effect, with the word taken from the port and counted. -/
def Obligations.StepRunsDecodedCommand : Prop := ∀ (s : State) (w : Word) (rest : List Input) (i : Instr),
  s.port = .word w :: rest → decode w = some i →
    step s = mapNext (fun t => { t with cmdSeq := t.cmdSeq + 1 }) (exec i { s with port := rest })

/-- Every word, legal or not, on a running core or a halted one, is taken and advances `CMD_SEQ` by exactly 1;
no step stops the model. -/
def Obligations.EveryWordAdvancesCmdSeqByOne : Prop := ∀ (s : State) (w : Word) (rest : List Input),
  s.port = .word w :: rest →
    ∃ t, step s = .next t ∧ t.cmdSeq = s.cmdSeq + 1 ∧ t.port = rest

/-- The reset input puts a core, halted or not, into its reset state; the stream goes on at command 0. -/
def Obligations.ResetInputRestoresResetState : Prop := ∀ (s : State) (rest : List Input),
  s.port = .reset :: rest → ∃ t, step s = .next t ∧ t.port = rest ∧ t.cmdSeq = 0 ∧
    { t with port := [] } = State.resetWith s.par

/-- No step changes a parameter of the core, and with nothing sent a step changes nothing at all. -/
def Obligations.StepKeepsParametersAndIdles : Prop :=
  (∀ s t : State, step s = .next t → t.par = s.par) ∧ (∀ s : State, s.port = [] → step s = .next s)

/-! ### Reset (R182) -/

/-- After reset, with any sizes, every mapped address reads the value of the reset table; every wavetable cell is
+0.0, the table is unsealed and both streams are empty. -/
def Obligations.ResetRegistersReadTheirResetValues : Prop := ∀ p : Params, p.valid →
  (∀ (a : BitVec 16) (r : Reg), regAt p a = some r → (State.resetWith p).peek a = some (resetValue p r)) ∧
  (∀ row col, (State.resetWith p).wtRead row col = 0x00000000#32) ∧
  (State.resetWith p).frames = [] ∧ (State.resetWith p).reads = [] ∧ (State.resetWith p).irq = false

/-- The reset state meets every invariant, with any sizes. -/
def Obligations.ResetMeetsInvariant : Prop := ∀ p : Params, p.valid → (State.resetWith p).Inv

/-! ### Invariants -/

/-- Every step keeps the number of slots, voices, anchors and instances. -/
def Obligations.StepKeepsSizes : Prop := ∀ s t : State, s.Sized → step s = .next t → t.Sized

/-- Every step keeps the configuration registers within their legal values. -/
def Obligations.StepKeepsConfigLegal : Prop :=
  ∀ s t : State, s.Sized → s.ConfigLegal → step s = .next t → t.ConfigLegal

/-- Every step keeps the fault record: `HALTED` exactly when `ERR` is not 0, nothing captured before the first
fault, and at most two bits, the second of them `BAD_ADDR`. -/
def Obligations.StepKeepsFaultRecord : Prop :=
  ∀ s t : State, s.FaultRecord → step s = .next t → t.FaultRecord

/-- Every step keeps the wavetable memory canonical, inside the table, and its cells finite and in [-1, 1]. -/
def Obligations.StepKeepsWavetableLegal : Prop :=
  ∀ s t : State, s.TableLegal → step s = .next t → t.TableLegal

/-- Every step keeps the note map: held notes are note numbers, `POLY_LAST` names a voice, and in Poly mode a note
is held by at most one voice. -/
def Obligations.StepKeepsNoteMap : Prop :=
  ∀ s t : State, s.Sized → s.NotesLegal → step s = .next t → t.NotesLegal

/-- Every step keeps each voice's frequency finite and positive and its factors in their intervals. -/
def Obligations.StepKeepsVoiceIntervals : Prop :=
  ∀ s t : State, s.Sized → s.ConfigLegal → s.VoicesLegal → step s = .next t → t.VoicesLegal

/-! ### Faults and the halted state (spec/60_exceptions.md) -/

/-- An ILLEGAL word on a running core raises `ILLEGAL_CMD` and does nothing else. -/
def Obligations.IllegalWordFaults : Prop := ∀ (s : State) (w : Word) (rest : List Input),
  s.running → s.port = .word w :: rest → decode w = none →
    step s = .next (consumed (faulted s 0x01#7 w) rest)

/-- A word that halts a running core has had no effect but the trap entry: one `ERR` bit, the capture, `HALTED`,
the count, and for an RD the response word 0. -/
def Obligations.FaultsArePrecise : Prop := ∀ (s t : State) (w : Word) (rest : List Input),
  s.running → s.port = .word w :: rest → step s = .next t → t.halted = true →
    ∃ k : FaultKind,
      t = { consumed (faulted s (1#7 <<< k.code) w) rest with reads := t.reads } ∧
      ((∃ a, decode w = some (.rd a)) → t.reads = s.reads ++ [0]) ∧
      ((∀ a, decode w ≠ some (.rd a)) → t.reads = s.reads)

/-- While halted, an RD word executes and every other word is discarded without effect. -/
def Obligations.HaltedCoreExecutesOnlyReads : Prop := ∀ (s : State) (w : Word) (rest : List Input),
  s.halted = true → s.port = .word w :: rest →
    (∀ a v, decode w = some (.rd a) → s.peek a = some v →
      step s = .next (consumed { s with reads := s.reads ++ [v] } rest)) ∧
    (∀ a, decode w = some (.rd a) → regAt s.par a = none →
      step s = .next (consumed { s with reads := s.reads ++ [0], err := s.err ||| 0x02#7 } rest)) ∧
    ((∀ a, decode w ≠ some (.rd a)) → step s = .next (consumed s rest))

/-- No command clears an `ERR` bit, leaves the halted state or changes the capture of the first fault. -/
def Obligations.CommandsNeverClearFaults : Prop := ∀ (s t : State) (w : Word) (rest : List Input),
  s.port = .word w :: rest → step s = .next t →
    t.err &&& s.err = s.err ∧
    (s.halted = true → t.halted = true ∧ t.errSeq = s.errSeq ∧ t.errCmd = s.errCmd ∧ t.irqEn = s.irqEn)

/-- Once raised, the interrupt output stays raised whatever command comes. -/
def Obligations.InterruptStaysRaised : Prop := ∀ (s t : State) (w : Word) (rest : List Input),
  s.FaultRecord → s.irq = true → s.port = .word w :: rest → step s = .next t → t.irq = true

/-! ### The register space (R16, R36, R73 to R81) -/

/-- The address map: an address names a register exactly when the register is one of the core's and the address is
its own. -/
def Obligations.AddressMapIsTheTable : Prop := ∀ (p : Params) (a : BitVec 16) (r : Reg), p.valid →
  (regAt p a = some r ↔ Mapped p r ∧ a.toNat = r.address)

/-- WR of an `RW` register: the values of `LegalValue` are stored as `storedValue` says and read back so; any other
value raises `BAD_VALUE`. Before that, an unmapped address raises `BAD_ADDR` and a read-only register `RO_WRITE`. -/
def Obligations.WriteStoresLegalValuesOrFaults : Prop := ∀ (s : State) (a : BitVec 16) (v : U32), s.Sized → s.running →
  (regAt s.par a = none → exec (.wr a v) s = .next (faulted s 0x02#7 (encode (.wr a v)))) ∧
  (∀ r, regAt s.par a = some r → r.access = .ro →
    exec (.wr a v) s = .next (faulted s 0x04#7 (encode (.wr a v)))) ∧
  (∀ r, regAt s.par a = some r → r.access = .rw → ¬ LegalValue s.par r v →
    exec (.wr a v) s = .next (faulted s 0x08#7 (encode (.wr a v)))) ∧
  (∀ r, regAt s.par a = some r → r.access = .rw → LegalValue s.par r v →
    ∃ t, exec (.wr a v) s = .next t ∧ t.halted = false ∧ t.peek a = some (storedValue r v))

/-- A WR of a legal value to a register other than POLY_MODE changes no other register, no wavetable cell and
neither stream. -/
def Obligations.LegalWriteChangesItsRegisterAlone : Prop := ∀ (s t : State) (a : BitVec 16) (v : U32) (r : Reg),
  s.Sized → s.running → regAt s.par a = some r → r.access = .rw → LegalValue s.par r v → r ≠ .polyMode →
    exec (.wr a v) s = .next t →
      (∀ b : BitVec 16, b ≠ a → t.peek b = s.peek b) ∧
      t.wt = s.wt ∧ t.frames = s.frames ∧ t.reads = s.reads ∧ t.port = s.port ∧ t.par = s.par

/-- A WR of POLY_MODE, of the mode in force too, releases every voice that holds a note, sets `POLY_LAST` to
`VOICES - 1` and stores the mode. -/
def Obligations.PolyModeWriteReleasesEveryVoice : Prop := ∀ (s : State) (m : PolyMode), s.running →
  ∃ u, Released (fun v => v.note ≠ none) s u ∧
    exec (.wr 0x0020#16 m.code) s = .next { u with lastVoice := s.par.voices - 1, polyMode := m }

/-- An RD of a mapped address, on a halted core too, emits one response word, the register's value in terms of the
state, and changes nothing else. -/
def Obligations.ReadEmitsTheRegister : Prop := ∀ (s : State) (a : BitVec 16) (r : Reg),
  s.Sized → regAt s.par a = some r →
    ∃ v, RegisterHas s r v ∧ s.peek a = some v ∧ exec (.rd a) s = .next { s with reads := s.reads ++ [v] }

/-- An RD of an unmapped address emits 0 and raises `BAD_ADDR`. -/
def Obligations.UnmappedReadEmitsZeroAndFaults : Prop := ∀ (s : State) (a : BitVec 16),
  s.running → regAt s.par a = none →
    exec (.rd a) s = .next { faulted s 0x02#7 (encode (.rd a)) with reads := s.reads ++ [0] }

/-- `HAS_NOTE(n)` reads 1 exactly when some voice holds the note `n`, and 0 otherwise. -/
def Obligations.HasNoteReflectsTheNoteMap : Prop := ∀ (s : State) (n : Nat), n < 128 →
  (Held s n → s.peek (BitVec.ofNat 16 (0x0400 + n)) = some 1) ∧
  (¬ Held s n → s.peek (BitVec.ofNat 16 (0x0400 + n)) = some 0)

/-- NOP has no effect, and of the words with its opcode only the zero word is NOP. -/
def Obligations.NopHasNoEffect : Prop := (∀ s : State, exec .nop s = .next s) ∧
  ∀ w : Word, opcField w = 0x00#8 → decode w = if w = 0x0000000000000000#64 then some .nop else none

/-- Every command other than TICK, NOTE_ON, NOTE_OFF and a WR of POLY_MODE is idempotent: repeated with the same operands
it changes nothing more, but for the read-response stream. -/
def Obligations.OtherCommandsAreIdempotent : Prop := ∀ (i : Instr) (s t u : State), s.wt.wf = true →
  i ≠ .tick → (∀ n v, i ≠ .noteOn n v) → (∀ n v, i ≠ .noteOff n v) → (∀ v, i ≠ .wr 0x0020#16 v) →
  exec i s = .next t → exec i t = .next u → u = { t with reads := u.reads }

/-! ### The wavetable (R42, R82, R83, R187) -/

/-- A legal WT_WR stores its sample in its cell, unchanged, and changes no other cell and nothing else. -/
def Obligations.WavetableWriteStoresItsCell : Prop :=
  ∀ (s : State) (row : BitVec 8) (col : BitVec 16) (x : F32),
    s.running → s.sealed = false → s.wt.wf = true → row.toNat < s.par.depth → col.toNat < s.par.length →
    F32.isFinite x = true → F32.le F32.negOne x = true → F32.le x F32.one = true →
      ∃ t, exec (.wtWr row col x) s = .next t ∧ t.wtRead row.toNat col.toNat = x ∧
        (∀ r c : Nat, c < 65536 → (r ≠ row.toNat ∨ c ≠ col.toNat) → t.wtRead r c = s.wtRead r c) ∧
        t = { s with wt := t.wt }

/-- WT_WR checks the seal, then the indices, then the sample. -/
def Obligations.WavetableWriteChecksInOrder : Prop :=
  ∀ (s : State) (row : BitVec 8) (col : BitVec 16) (x : F32), s.running →
    (s.sealed = true → exec (.wtWr row col x) s = .next (faulted s 0x10#7 (encode (.wtWr row col x)))) ∧
    (s.sealed = false → (s.par.depth ≤ row.toNat ∨ s.par.length ≤ col.toNat) →
      exec (.wtWr row col x) s = .next (faulted s 0x02#7 (encode (.wtWr row col x)))) ∧
    (s.sealed = false → row.toNat < s.par.depth → col.toNat < s.par.length →
      ¬ (F32.isFinite x = true ∧ F32.le F32.negOne x = true ∧ F32.le x F32.one = true) →
      exec (.wtWr row col x) s = .next (faulted s 0x08#7 (encode (.wtWr row col x))))

/-- WT_SEAL sets `WT_SEALED` and nothing else; sealing a sealed table has no effect. -/
def Obligations.SealSetsTheSealAlone : Prop := ∀ s : State, s.running →
  exec .wtSeal s = .next { s with sealed := true } ∧ (s.sealed = true → exec .wtSeal s = .next s)

/-- A sealed wavetable never changes and stays sealed, whatever words come. -/
def Obligations.SealedWavetableNeverChanges : Prop := ∀ (s t : State) (w : Word) (rest : List Input),
  s.sealed = true → s.port = .word w :: rest → step s = .next t → t.wt = s.wt ∧ t.sealed = true

/-! ### NOTE_ON and NOTE_OFF (R71, R72, spec/47_allocator.md) -/

/-- A Poly NOTE_ON of a note not held takes the voice of the round-robin scan, overwrites it whatever it was doing,
advances `POLY_LAST` to it and triggers the global pack; nothing else changes. -/
def Obligations.PolyNoteOnTakesScannedVoice : Prop := ∀ (s : State) (note : BitVec 8) (vel : F32),
  s.Sized → s.running → s.polyMode = .poly → note.toNat ≤ 127 → F32.isFinite vel = true →
  ¬ Held s note.toNat →
    ∃ i, i < s.par.voices ∧ PolyChoice s i ∧
      exec (.noteOn note vel) s = .next { s with
        voice := s.voice.set i (voiceOn s.par s.clkTick note.toNat (F32.clampU vel)
          0x00000000#32 0x3F800000#32 0x3F000000#32)
        lastVoice := i
        global := packOn s.par (F32.clampU vel) s.clkTick }

/-- A Unison NOTE_ON of a note not held: with at least `UNI_COUNT` free voices, the lowest free voices take the note, the
k-th of them with the spread of index k, and the global pack is triggered; with fewer, nothing changes at all. -/
def Obligations.UnisonNoteOnTakesItsGroupOrNothing : Prop := ∀ (s : State) (note : BitVec 8) (vel : F32),
  s.Sized → s.running → s.polyMode = .unison → note.toNat ≤ 127 → F32.isFinite vel = true →
  ¬ Held s note.toNat →
    (s.uniCount ≤ (freeList s).length → ∃ t, exec (.noteOn note vel) s = .next t ∧
      (∀ k i, k < s.uniCount → (freeList s)[k]? = some i →
        t.voice[i]? = some (voiceOn s.par s.clkTick note.toNat (F32.clampU vel)
          (spreadDetune s.uniCount k s.uniDetune) (spreadBlend s.par s.uniCount k s.uniBlend)
          (spreadBalance s.uniCount k s.uniSpread))) ∧
      (∀ i, i ∉ (freeList s).take s.uniCount → t.voice[i]? = s.voice[i]?) ∧
      t = { s with voice := t.voice, global := packOn s.par (F32.clampU vel) s.clkTick }) ∧
    ((freeList s).length < s.uniCount → exec (.noteOn note vel) s = .next s)

/-- A NOTE_ON of a note already held changes nothing, in either mode. -/
def Obligations.HeldNoteIsNotRetriggered : Prop := ∀ (s : State) (note : BitVec 8) (vel : F32),
  s.running → note.toNat ≤ 127 → F32.isFinite vel = true → Held s note.toNat →
    exec (.noteOn note vel) s = .next s

/-- NOTE_OFF releases and frees every voice that holds the note, and the global pack with them; nothing else changes,
and with no such voice nothing at all. -/
def Obligations.NoteOffReleasesItsNote : Prop := ∀ (s : State) (note : BitVec 8) (vel : F32),
  s.running → note.toNat ≤ 127 → F32.isFinite vel = true →
    (∃ t, exec (.noteOff note vel) s = .next t ∧ Released (fun v => v.note = some note.toNat) s t) ∧
    (¬ Held s note.toNat → exec (.noteOff note vel) s = .next s)

/-- NOTE_ON and NOTE_OFF check the note, then the velocity. -/
def Obligations.NoteChecksInOrder : Prop := ∀ (s : State) (note : BitVec 8) (vel : F32), s.running →
  (127 < note.toNat →
    exec (.noteOn note vel) s = .next (faulted s 0x40#7 (encode (.noteOn note vel))) ∧
    exec (.noteOff note vel) s = .next (faulted s 0x40#7 (encode (.noteOff note vel)))) ∧
  (note.toNat ≤ 127 → F32.isFinite vel = false →
    exec (.noteOn note vel) s = .next (faulted s 0x08#7 (encode (.noteOn note vel))) ∧
    exec (.noteOff note vel) s = .next (faulted s 0x08#7 (encode (.noteOff note vel))))

/-- For every even count the spread is antisymmetric about its centre, and the two voices nearest the centre are
innermost: their amplitude is `sqrt(1 - blend)`. -/
def Obligations.EvenSpreadIsSymmetric : Prop := ∀ (p : Params) (count k : Nat) (blend : F32),
  p.valid → count % 2 = 0 → 2 ≤ count → count ≤ 64 → k < count →
    centerOffset count (count - 1 - k) = F32.neg (centerOffset count k) ∧
    F32.isZero (centerOffset count k) = false ∧
    ((k = count / 2 - 1 ∨ k = count / 2) → spreadBlend p count k blend = F32.sqrt (F32.sub F32.one blend))

/-! ### TICK (R70, spec/45_modulation.md, spec/46_voice.md) -/

/-- A TICK on a sealed core emits one frame, leaves it in `OUT_L` and `OUT_R` and advances the clock by 1. Of the
runtime state it may move LFO and operator anchors to the current tick and stop LFOs; nothing else changes. -/
def Obligations.TickEmitsOneFrame : Prop := ∀ s : State, s.Sized → s.playable →
  ∃ t, exec .tick s = .next t ∧ t.clkTick = s.clkTick + 1 ∧ t.frames = s.frames ++ [(t.outL, t.outR)] ∧
    Pack.Ticked s.clkTick s.global t.global ∧
    List.Forall₂ (VoiceRec.Ticked s.clkTick) s.voice t.voice ∧
    t = { s with
      clkTick := t.clkTick
      frames := t.frames
      outL := t.outL
      outR := t.outR
      global := t.global
      voice := t.voice }

/-- The frame of a TICK: each channel sums the voices in index order from +0.0, each pre-divided by `VOICES`; a voice's
output is its operator mix times `blend * level`, panned linearly; the level is resolved by the voice's own pack, the
pitch and the positions by the global pack. The packs and anchors that this computation leaves are the core's
afterwards, and an enabled operator's anchor is the one its own frequency gives. -/
def Obligations.FrameSumsTheVoices : Prop := ∀ s t : State, s.Sized → s.playable → exec .tick s = .next t →
  ∃ (gp : Option ModValue) (gw : List (Option ModValue)) (outs : List F32),
    s.resolveAll (.globalPitch :: (List.range s.par.oscs).map .oscWtPos) s.global = (t.global, gp :: gw) ∧
    List.Forall₂ (fun v out => out = F32.mul
      (s.opPack (fm s.par v.rootFreq v.detune) (asSigned gp) s.op gw v.anchors .none F32.zero).2
      (F32.mul v.blend (voiceLevel v (s.resolve .globalLevel v.pack).2))) s.voice outs ∧
    t.outL = (s.voice.zip outs).foldl (fun acc x => F32.add acc
      (F32.div (F32.mul x.2 (F32.sub F32.one x.1.balance)) (F32.ofNat s.par.voices))) F32.zero ∧
    t.outR = (s.voice.zip outs).foldl (fun acc x => F32.add acc
      (F32.div (F32.mul x.2 x.1.balance) (F32.ofNat s.par.voices))) F32.zero ∧
    List.Forall₂ (fun v w => w.pack = (s.resolve .globalLevel v.pack).1 ∧
      w.anchors = (s.opPack (fm s.par v.rootFreq v.detune) (asSigned gp) s.op gw v.anchors .none F32.zero).1)
      s.voice t.voice ∧
    ∀ (j i : Nat) (v w : VoiceRec) (o : OpProps) (a : U32),
      s.voice[j]? = some v → t.voice[j]? = some w → s.op[i]? = some o → o.enabled = true → v.anchors[i]? = some a →
        ∃ m f, f = fm s.par (fm s.par v.rootFreq v.detune) (F32.add (tuneMod (asSigned gp) o) m) ∧
          (NoChainedFm s i → m = F32.zero) ∧ w.anchors[i]? = some (anchorAfter s f a)

/-- A TICK before the seal raises `NOT_SEALED`: no frame, no clock advance. -/
def Obligations.UnsealedTickFaults : Prop := ∀ s : State, s.running → s.sealed = false →
  exec .tick s = .next (faulted s 0x20#7 (encode .tick))

/-- Right after reset and the seal, with any sizes, a TICK emits exactly `(+0.0, +0.0)`. -/
def Obligations.SilentFrameAfterReset : Prop := ∀ p : Params, p.valid →
  ∃ t, exec .tick { State.resetWith p with sealed := true } = .next t ∧
    t.frames = [(0x00000000#32, 0x00000000#32)] ∧ t.clkTick = 1

/-- `ENVe_AMOUNT` affects no output: two cores that differ in it alone emit the same frame and differ in it alone
afterwards. -/
def Obligations.EnvelopeAmountHasNoEffect : Prop := ∀ (s t : State) (env' : List EnvProps),
  List.Forall₂ (fun e e' => e' = { e with amount := e'.amount }) s.env env' →
  exec .tick s = .next t → exec .tick { s with env := env' } = .next { t with env := env' }

/-- A disabled operator computes no phase: its anchor does not move in any voice. -/
def Obligations.DisabledOperatorKeepsItsAnchors : Prop := ∀ (s t : State) (i j : Nat) (o : OpProps) (v w : VoiceRec),
  s.op[i]? = some o → o.enabled = false → exec .tick s = .next t →
  s.voice[j]? = some v → t.voice[j]? = some w → w.anchors[i]? = v.anchors[i]?

/-- The worked frame of R153, and the seven routing cases of R144 on one voice, in the order of its table. -/
def Obligations.WorkedFramesAtTickOne : Prop :=
  (State.frameAt playingCore).left = 0x3E800000#32 ∧ (State.frameAt playingCore).right = 0x3E800000#32 ∧
  ∀ x ∈ routingCases, (playingCore.opPack F32.a440 F32.zero [x.1, x.2.1] [none, none] [0, 0] .none F32.zero).2 = x.2.2

/-- `resolve`: the lowest LFO slot with the target, enabled or not, is the one LFO asked, and its value has priority; without
one the lowest envelope slot with the target answers; without that there is no modulation. No other LFO instance and
no envelope instance of the pack changes. -/
def Obligations.ResolveAsksFirstLfoThenFirstEnvelope : Prop := ∀ (s : State) (k : Pack) (t : ModTarget),
  ((∀ q ∈ s.lfo, q.target ≠ t) → (s.resolve t k).1 = k ∧ EnvelopeAnswer s k t (s.resolve t k).2) ∧
  (∀ (l : Nat) (pl : LfoProps) (x : LfoState),
    s.lfo[l]? = some pl → pl.target = t → (∀ j q, j < l → s.lfo[j]? = some q → q.target ≠ t) →
    k.lfos[l]? = some x →
      (∀ y, (lfoTick s.clock pl x).2 = some y → (s.resolve t k).2 = some (.lfo y)) ∧
      ((lfoTick s.clock pl x).2 = none → EnvelopeAnswer s k t (s.resolve t k).2) ∧
      (s.resolve t k).1.lfos[l]? = some (lfoTick s.clock pl x).1 ∧
      (∀ j, j ≠ l → (s.resolve t k).1.lfos[j]? = k.lfos[j]?) ∧
      (s.resolve t k).1.envs = k.envs)

/-! ### Envelopes (spec/43_envelope.md) -/

/-- Every value of an envelope with legal settings and a legal velocity is a UnitInterval; the first one after a
`note_on` is +0.0 whatever the stages; a disabled or idle envelope has none. -/
def Obligations.EnvelopeValuesAreUnitIntervals : Prop :=
  ∀ (p : Params) (tick : U32) (e : EnvProps) (x : EnvState), e.Legal p → x.legal →
    (∀ u, envTick tick e x = some u → unitBits u) ∧
    (∀ vel, e.enabled = true → envTick tick e (.noteOn vel tick) = some 0x00000000#32) ∧
    (e.enabled = false → envTick tick e x = none) ∧ envTick tick e .idle = none

/-- The release ramp ends at exactly +0.0 at `pos = r`, and after it there is no contribution. -/
def Obligations.ReleaseEndsAtZeroThenNone : Prop := ∀ (e : EnvProps) (pos : U32) (p : Params), e.Legal p →
  e.off e.release = some 0x00000000#32 ∧ (e.release.toNat < pos.toNat → e.off pos = none)

/-- The plateaus of the `NoteOn` stages: +0.0 in the delay, the velocity in the hold, and exactly the sustain level
after the decay. The stage ends are exact sums. -/
def Obligations.EnvelopePlateaus : Prop := ∀ (e : EnvProps) (vel : F32) (pos : U32),
  (pos.toNat ≤ e.delay.toNat → e.on vel pos = 0x00000000#32) ∧
  (e.delay.toNat + e.attack.toNat < pos.toNat →
    pos.toNat ≤ e.delay.toNat + e.attack.toNat + e.hold.toNat → e.on vel pos = vel) ∧
  (e.delay.toNat + e.attack.toNat + e.hold.toNat + e.decay.toNat < pos.toNat → e.on vel pos = e.sustain)

/-- Worked sequences: the literal plateau of R115, the release of the first row of R123, and the phases and anchors of an
operator at 440 Hz and 1760 samples a second, with the anchor 0 up to tick 4 and 4 from then on (R96). -/
def Obligations.WorkedEnvelopeAndPhaseSequences : Prop :=
  ((List.range 6).map fun n => EnvProps.on { attack := 2, hold := 2, decay := 0, sustain := 0x3F000000#32 }
    0x3F4CCCCD#32 (BitVec.ofNat 32 n)) =
    [0x00000000#32, 0x3E800000#32, 0x3F000000#32, 0x3F4CCCCD#32, 0x3F4CCCCD#32, 0x3F000000#32] ∧
  ((List.range 4).map fun n => EnvProps.off { sustain := 0x3F000000#32, release := 2 } (BitVec.ofNat 32 n)) =
    [some 0x3F000000#32, some 0x3E800000#32, some 0x00000000#32, none] ∧
  ((List.range 5).map fun n => Clock.phaseFast ⟨.invFreq, 1760, BitVec.ofNat 32 n⟩ 0x43DC0000#32 0x3E800000#32 0) =
    [(0, 0x00000000#32), (0, 0x3E800000#32), (0, 0x3F000000#32), (0, 0x3F400000#32), (4, 0x00000000#32)] ∧
  ((List.range 5).map fun n => Clock.phaseFast ⟨.invFreq, 1760, BitVec.ofNat 32 (4 + n)⟩ 0x43DC0000#32 0x3E800000#32 4) =
    [(4, 0x00000000#32), (4, 0x3E800000#32), (4, 0x3F000000#32), (4, 0x3F400000#32), (8, 0x00000000#32)]

/-! ### LFOs (spec/44_lfo.md) -/

/-- Every value of an LFO is a SignedUnitInterval; a disabled or stopped one has none and moves no anchor. Any other
takes the anchor of its phase: an inactive one stops, with no value, exactly where that phase is at most one step past
a cycle start, and everywhere else it gives its scaled waveform and goes on, as an active one always does. -/
def Obligations.LfoStopsClickFree : Prop := ∀ (c : Clock) (l : LfoProps) (x : LfoState),
  (∀ y, (lfoTick c l x).2 = some y → signedUnitBits y) ∧
  ((l.enabled = false ∨ x.stopped = true) → lfoTick c l x = (x, none)) ∧
  (l.enabled = true → x.stopped = false → x.active = false →
    F32.le (c.phaseExact l.freq x.last).2 (c.step l.freq) = true →
    lfoTick c l x = ({ active := false, stopped := true, last := (c.phaseExact l.freq x.last).1 }, none)) ∧
  (l.enabled = true → x.stopped = false →
    (x.active = true ∨ F32.le (c.phaseExact l.freq x.last).2 (c.step l.freq) = false) →
    lfoTick c l x = ({ active := x.active, stopped := false, last := (c.phaseExact l.freq x.last).1 },
      some (F32.clampS (F32.mul (l.wave (c.phaseExact l.freq x.last).2) l.amount))))

/-! ### The phase accumulator (spec/41_phase_accumulator.md) -/

/-- `fract` of a finite non-negative value lies in [0, 1), and is 0 from 2^23 on. -/
def Obligations.FractionLiesBelowOne : Prop := ∀ p : F32, F32.isFinite p = true → F32.le F32.zero p = true →
  F32.le F32.zero (F32.fract p) = true ∧ F32.lt (F32.fract p) F32.one = true ∧
  (F32.le 0x4B000000#32 p = true → F32.isZero (F32.fract p) = true)

/-- The phase of a user whose anchor is the current tick, as after a note-on, is +0.0. -/
def Obligations.PhaseAtTheAnchorIsZero : Prop := ∀ (c : Clock) (f : F32),
  c.rate ≠ 0 → F32.isFinite f = true → F32.lt F32.zero f = true →
    (c.phaseFast f (c.step f) c.tick).2 = 0x00000000#32 ∧ (c.phaseExact f c.tick).2 = 0x00000000#32

/-- Under `INV_FREQ`, an LFO at 1 Hz or below moves its anchor to the current tick at every evaluation. -/
def Obligations.SlowLfoResynchronisesAlways : Prop := ∀ (c : Clock) (f : F32) (anchor : U32),
  c.resync = .invFreq → c.rate ≠ 0 → F32.isFinite f = true → F32.lt F32.zero f = true →
  F32.le f F32.one = true → (c.phaseExact f anchor).1 = c.tick

/-! ### Arithmetic (R9, R105) -/

/-- A finite sum, product or quotient is the binary32 nearest to the exact result: no other finite value is nearer. The
units are those of 2^-149. R9 names the rounding and leaves its meaning to IEEE 754 (log entry 11, PRESUMED). -/
def Obligations.ArithmeticRoundsToNearest : Prop := ∀ a b c : F32,
  F32.isFinite a = true → F32.isFinite b = true → F32.isFinite c = true →
    (F32.isFinite (F32.add a b) = true →
      |F32.units (F32.add a b) - (F32.units a + F32.units b)| ≤ |F32.units c - (F32.units a + F32.units b)|) ∧
    (F32.isFinite (F32.mul a b) = true →
      |F32.units (F32.mul a b) * 2 ^ 149 - F32.units a * F32.units b|
        ≤ |F32.units c * 2 ^ 149 - F32.units a * F32.units b|) ∧
    (F32.isZero b = false → F32.isFinite (F32.div a b) = true →
      |F32.units (F32.div a b) * F32.units b - F32.units a * 2 ^ 149|
        ≤ |F32.units c * F32.units b - F32.units a * 2 ^ 149|)

/-- Interpolation at a cell is the cell: `lerp(a, b, 0)` has the value `a`, for samples of the table. -/
def Obligations.InterpolationAtACellIsTheCell : Prop := ∀ a b : F32,
  legalSample a = true → legalSample b = true → F32.key (lerp a b F32.zero) = F32.key a

/-- The output of the interpolator is finite and at most 3 in magnitude, for every phase in [0, 1) and every depth. -/
def Obligations.LookupIsFiniteAndBounded : Prop := ∀ (s : State) (ph d : F32),
  s.par.valid → s.TableLegal → F32.isFinite ph = true → F32.le F32.zero ph = true → F32.lt ph F32.one = true →
  unitBits d →
    F32.isFinite (s.wtLookup ph d) = true ∧ F32.mag (s.wtLookup ph d) ≤ 0x40400000
end

