-- ==== Sys2Proof/Laws/State.lean ====
section
/-! SUPPORT. For each update of the state, what it does to each field. No later proof unfolds a record
update. -/

namespace Sys2Proof.Machine.State

variable (s : State)

/-! ### `emitRead` -/

@[simp] theorem emitRead_par (v : U32) : (s.emitRead v).par = s.par := rfl
@[simp] theorem emitRead_port (v : U32) : (s.emitRead v).port = s.port := rfl
@[simp] theorem emitRead_clkRate (v : U32) : (s.emitRead v).clkRate = s.clkRate := rfl
@[simp] theorem emitRead_clkTick (v : U32) : (s.emitRead v).clkTick = s.clkTick := rfl
@[simp] theorem emitRead_cmdSeq (v : U32) : (s.emitRead v).cmdSeq = s.cmdSeq := rfl
@[simp] theorem emitRead_halted (v : U32) : (s.emitRead v).halted = s.halted := rfl
@[simp] theorem emitRead_sealed (v : U32) : (s.emitRead v).sealed = s.sealed := rfl
@[simp] theorem emitRead_err (v : U32) : (s.emitRead v).err = s.err := rfl
@[simp] theorem emitRead_errSeq (v : U32) : (s.emitRead v).errSeq = s.errSeq := rfl
@[simp] theorem emitRead_errCmd (v : U32) : (s.emitRead v).errCmd = s.errCmd := rfl
@[simp] theorem emitRead_irqEn (v : U32) : (s.emitRead v).irqEn = s.irqEn := rfl
@[simp] theorem emitRead_outL (v : U32) : (s.emitRead v).outL = s.outL := rfl
@[simp] theorem emitRead_outR (v : U32) : (s.emitRead v).outR = s.outR := rfl
@[simp] theorem emitRead_env (v : U32) : (s.emitRead v).env = s.env := rfl
@[simp] theorem emitRead_lfo (v : U32) : (s.emitRead v).lfo = s.lfo := rfl
@[simp] theorem emitRead_op (v : U32) : (s.emitRead v).op = s.op := rfl
@[simp] theorem emitRead_polyMode (v : U32) : (s.emitRead v).polyMode = s.polyMode := rfl
@[simp] theorem emitRead_lastVoice (v : U32) : (s.emitRead v).lastVoice = s.lastVoice := rfl
@[simp] theorem emitRead_uniCount (v : U32) : (s.emitRead v).uniCount = s.uniCount := rfl
@[simp] theorem emitRead_uniDetune (v : U32) : (s.emitRead v).uniDetune = s.uniDetune := rfl
@[simp] theorem emitRead_uniBlend (v : U32) : (s.emitRead v).uniBlend = s.uniBlend := rfl
@[simp] theorem emitRead_uniSpread (v : U32) : (s.emitRead v).uniSpread = s.uniSpread := rfl
@[simp] theorem emitRead_voice (v : U32) : (s.emitRead v).voice = s.voice := rfl
@[simp] theorem emitRead_global (v : U32) : (s.emitRead v).global = s.global := rfl
@[simp] theorem emitRead_wt (v : U32) : (s.emitRead v).wt = s.wt := rfl
@[simp] theorem emitRead_frames (v : U32) : (s.emitRead v).frames = s.frames := rfl
@[simp] theorem emitRead_reads (v : U32) : (s.emitRead v).reads = s.reads ++ [v] := rfl

/-! ### `emitFrame` -/

@[simp] theorem emitFrame_par (l r : F32) : (s.emitFrame l r).par = s.par := rfl
@[simp] theorem emitFrame_port (l r : F32) : (s.emitFrame l r).port = s.port := rfl
@[simp] theorem emitFrame_clkRate (l r : F32) : (s.emitFrame l r).clkRate = s.clkRate := rfl
@[simp] theorem emitFrame_clkTick (l r : F32) : (s.emitFrame l r).clkTick = s.clkTick := rfl
@[simp] theorem emitFrame_cmdSeq (l r : F32) : (s.emitFrame l r).cmdSeq = s.cmdSeq := rfl
@[simp] theorem emitFrame_halted (l r : F32) : (s.emitFrame l r).halted = s.halted := rfl
@[simp] theorem emitFrame_sealed (l r : F32) : (s.emitFrame l r).sealed = s.sealed := rfl
@[simp] theorem emitFrame_err (l r : F32) : (s.emitFrame l r).err = s.err := rfl
@[simp] theorem emitFrame_errSeq (l r : F32) : (s.emitFrame l r).errSeq = s.errSeq := rfl
@[simp] theorem emitFrame_errCmd (l r : F32) : (s.emitFrame l r).errCmd = s.errCmd := rfl
@[simp] theorem emitFrame_irqEn (l r : F32) : (s.emitFrame l r).irqEn = s.irqEn := rfl
@[simp] theorem emitFrame_outL (l r : F32) : (s.emitFrame l r).outL = s.outL := rfl
@[simp] theorem emitFrame_outR (l r : F32) : (s.emitFrame l r).outR = s.outR := rfl
@[simp] theorem emitFrame_env (l r : F32) : (s.emitFrame l r).env = s.env := rfl
@[simp] theorem emitFrame_lfo (l r : F32) : (s.emitFrame l r).lfo = s.lfo := rfl
@[simp] theorem emitFrame_op (l r : F32) : (s.emitFrame l r).op = s.op := rfl
@[simp] theorem emitFrame_polyMode (l r : F32) : (s.emitFrame l r).polyMode = s.polyMode := rfl
@[simp] theorem emitFrame_lastVoice (l r : F32) : (s.emitFrame l r).lastVoice = s.lastVoice := rfl
@[simp] theorem emitFrame_uniCount (l r : F32) : (s.emitFrame l r).uniCount = s.uniCount := rfl
@[simp] theorem emitFrame_uniDetune (l r : F32) : (s.emitFrame l r).uniDetune = s.uniDetune := rfl
@[simp] theorem emitFrame_uniBlend (l r : F32) : (s.emitFrame l r).uniBlend = s.uniBlend := rfl
@[simp] theorem emitFrame_uniSpread (l r : F32) : (s.emitFrame l r).uniSpread = s.uniSpread := rfl
@[simp] theorem emitFrame_voice (l r : F32) : (s.emitFrame l r).voice = s.voice := rfl
@[simp] theorem emitFrame_global (l r : F32) : (s.emitFrame l r).global = s.global := rfl
@[simp] theorem emitFrame_wt (l r : F32) : (s.emitFrame l r).wt = s.wt := rfl
@[simp] theorem emitFrame_frames (l r : F32) : (s.emitFrame l r).frames = s.frames ++ [(l, r)] := rfl
@[simp] theorem emitFrame_reads (l r : F32) : (s.emitFrame l r).reads = s.reads := rfl

/-! ### `countCommand` -/

@[simp] theorem countCommand_par : s.countCommand.par = s.par := rfl
@[simp] theorem countCommand_port : s.countCommand.port = s.port := rfl
@[simp] theorem countCommand_clkRate : s.countCommand.clkRate = s.clkRate := rfl
@[simp] theorem countCommand_clkTick : s.countCommand.clkTick = s.clkTick := rfl
@[simp] theorem countCommand_cmdSeq : s.countCommand.cmdSeq = s.cmdSeq + 1 := rfl
@[simp] theorem countCommand_halted : s.countCommand.halted = s.halted := rfl
@[simp] theorem countCommand_sealed : s.countCommand.sealed = s.sealed := rfl
@[simp] theorem countCommand_err : s.countCommand.err = s.err := rfl
@[simp] theorem countCommand_errSeq : s.countCommand.errSeq = s.errSeq := rfl
@[simp] theorem countCommand_errCmd : s.countCommand.errCmd = s.errCmd := rfl
@[simp] theorem countCommand_irqEn : s.countCommand.irqEn = s.irqEn := rfl
@[simp] theorem countCommand_outL : s.countCommand.outL = s.outL := rfl
@[simp] theorem countCommand_outR : s.countCommand.outR = s.outR := rfl
@[simp] theorem countCommand_env : s.countCommand.env = s.env := rfl
@[simp] theorem countCommand_lfo : s.countCommand.lfo = s.lfo := rfl
@[simp] theorem countCommand_op : s.countCommand.op = s.op := rfl
@[simp] theorem countCommand_polyMode : s.countCommand.polyMode = s.polyMode := rfl
@[simp] theorem countCommand_lastVoice : s.countCommand.lastVoice = s.lastVoice := rfl
@[simp] theorem countCommand_uniCount : s.countCommand.uniCount = s.uniCount := rfl
@[simp] theorem countCommand_uniDetune : s.countCommand.uniDetune = s.uniDetune := rfl
@[simp] theorem countCommand_uniBlend : s.countCommand.uniBlend = s.uniBlend := rfl
@[simp] theorem countCommand_uniSpread : s.countCommand.uniSpread = s.uniSpread := rfl
@[simp] theorem countCommand_voice : s.countCommand.voice = s.voice := rfl
@[simp] theorem countCommand_global : s.countCommand.global = s.global := rfl
@[simp] theorem countCommand_wt : s.countCommand.wt = s.wt := rfl
@[simp] theorem countCommand_frames : s.countCommand.frames = s.frames := rfl
@[simp] theorem countCommand_reads : s.countCommand.reads = s.reads := rfl

/-! ### `wtWrite` -/

@[simp] theorem wtWrite_par (r c : Nat) (v : F32) : (s.wtWrite r c v).par = s.par := rfl
@[simp] theorem wtWrite_port (r c : Nat) (v : F32) : (s.wtWrite r c v).port = s.port := rfl
@[simp] theorem wtWrite_clkRate (r c : Nat) (v : F32) : (s.wtWrite r c v).clkRate = s.clkRate := rfl
@[simp] theorem wtWrite_clkTick (r c : Nat) (v : F32) : (s.wtWrite r c v).clkTick = s.clkTick := rfl
@[simp] theorem wtWrite_cmdSeq (r c : Nat) (v : F32) : (s.wtWrite r c v).cmdSeq = s.cmdSeq := rfl
@[simp] theorem wtWrite_halted (r c : Nat) (v : F32) : (s.wtWrite r c v).halted = s.halted := rfl
@[simp] theorem wtWrite_sealed (r c : Nat) (v : F32) : (s.wtWrite r c v).sealed = s.sealed := rfl
@[simp] theorem wtWrite_err (r c : Nat) (v : F32) : (s.wtWrite r c v).err = s.err := rfl
@[simp] theorem wtWrite_errSeq (r c : Nat) (v : F32) : (s.wtWrite r c v).errSeq = s.errSeq := rfl
@[simp] theorem wtWrite_errCmd (r c : Nat) (v : F32) : (s.wtWrite r c v).errCmd = s.errCmd := rfl
@[simp] theorem wtWrite_irqEn (r c : Nat) (v : F32) : (s.wtWrite r c v).irqEn = s.irqEn := rfl
@[simp] theorem wtWrite_outL (r c : Nat) (v : F32) : (s.wtWrite r c v).outL = s.outL := rfl
@[simp] theorem wtWrite_outR (r c : Nat) (v : F32) : (s.wtWrite r c v).outR = s.outR := rfl
@[simp] theorem wtWrite_env (r c : Nat) (v : F32) : (s.wtWrite r c v).env = s.env := rfl
@[simp] theorem wtWrite_lfo (r c : Nat) (v : F32) : (s.wtWrite r c v).lfo = s.lfo := rfl
@[simp] theorem wtWrite_op (r c : Nat) (v : F32) : (s.wtWrite r c v).op = s.op := rfl
@[simp] theorem wtWrite_polyMode (r c : Nat) (v : F32) : (s.wtWrite r c v).polyMode = s.polyMode := rfl
@[simp] theorem wtWrite_lastVoice (r c : Nat) (v : F32) : (s.wtWrite r c v).lastVoice = s.lastVoice := rfl
@[simp] theorem wtWrite_uniCount (r c : Nat) (v : F32) : (s.wtWrite r c v).uniCount = s.uniCount := rfl
@[simp] theorem wtWrite_uniDetune (r c : Nat) (v : F32) : (s.wtWrite r c v).uniDetune = s.uniDetune := rfl
@[simp] theorem wtWrite_uniBlend (r c : Nat) (v : F32) : (s.wtWrite r c v).uniBlend = s.uniBlend := rfl
@[simp] theorem wtWrite_uniSpread (r c : Nat) (v : F32) : (s.wtWrite r c v).uniSpread = s.uniSpread := rfl
@[simp] theorem wtWrite_voice (r c : Nat) (v : F32) : (s.wtWrite r c v).voice = s.voice := rfl
@[simp] theorem wtWrite_global (r c : Nat) (v : F32) : (s.wtWrite r c v).global = s.global := rfl
@[simp] theorem wtWrite_wt (r c : Nat) (v : F32) : (s.wtWrite r c v).wt = s.wt.write (wtAddress r c) v := rfl
@[simp] theorem wtWrite_frames (r c : Nat) (v : F32) : (s.wtWrite r c v).frames = s.frames := rfl
@[simp] theorem wtWrite_reads (r c : Nat) (v : F32) : (s.wtWrite r c v).reads = s.reads := rfl

/-! ### `voiceNoteOn` -/

@[simp] theorem voiceNoteOn_par (i n : Nat) (a b c d : F32) : (s.voiceNoteOn i n a b c d).par = s.par := rfl
@[simp] theorem voiceNoteOn_port (i n : Nat) (a b c d : F32) : (s.voiceNoteOn i n a b c d).port = s.port := rfl
@[simp] theorem voiceNoteOn_clkRate (i n : Nat) (a b c d : F32) : (s.voiceNoteOn i n a b c d).clkRate = s.clkRate := rfl
@[simp] theorem voiceNoteOn_clkTick (i n : Nat) (a b c d : F32) : (s.voiceNoteOn i n a b c d).clkTick = s.clkTick := rfl
@[simp] theorem voiceNoteOn_cmdSeq (i n : Nat) (a b c d : F32) : (s.voiceNoteOn i n a b c d).cmdSeq = s.cmdSeq := rfl
@[simp] theorem voiceNoteOn_halted (i n : Nat) (a b c d : F32) : (s.voiceNoteOn i n a b c d).halted = s.halted := rfl
@[simp] theorem voiceNoteOn_sealed (i n : Nat) (a b c d : F32) : (s.voiceNoteOn i n a b c d).sealed = s.sealed := rfl
@[simp] theorem voiceNoteOn_err (i n : Nat) (a b c d : F32) : (s.voiceNoteOn i n a b c d).err = s.err := rfl
@[simp] theorem voiceNoteOn_errSeq (i n : Nat) (a b c d : F32) : (s.voiceNoteOn i n a b c d).errSeq = s.errSeq := rfl
@[simp] theorem voiceNoteOn_errCmd (i n : Nat) (a b c d : F32) : (s.voiceNoteOn i n a b c d).errCmd = s.errCmd := rfl
@[simp] theorem voiceNoteOn_irqEn (i n : Nat) (a b c d : F32) : (s.voiceNoteOn i n a b c d).irqEn = s.irqEn := rfl
@[simp] theorem voiceNoteOn_outL (i n : Nat) (a b c d : F32) : (s.voiceNoteOn i n a b c d).outL = s.outL := rfl
@[simp] theorem voiceNoteOn_outR (i n : Nat) (a b c d : F32) : (s.voiceNoteOn i n a b c d).outR = s.outR := rfl
@[simp] theorem voiceNoteOn_env (i n : Nat) (a b c d : F32) : (s.voiceNoteOn i n a b c d).env = s.env := rfl
@[simp] theorem voiceNoteOn_lfo (i n : Nat) (a b c d : F32) : (s.voiceNoteOn i n a b c d).lfo = s.lfo := rfl
@[simp] theorem voiceNoteOn_op (i n : Nat) (a b c d : F32) : (s.voiceNoteOn i n a b c d).op = s.op := rfl
@[simp] theorem voiceNoteOn_polyMode (i n : Nat) (a b c d : F32) : (s.voiceNoteOn i n a b c d).polyMode = s.polyMode := rfl
@[simp] theorem voiceNoteOn_lastVoice (i n : Nat) (a b c d : F32) : (s.voiceNoteOn i n a b c d).lastVoice = s.lastVoice := rfl
@[simp] theorem voiceNoteOn_uniCount (i n : Nat) (a b c d : F32) : (s.voiceNoteOn i n a b c d).uniCount = s.uniCount := rfl
@[simp] theorem voiceNoteOn_uniDetune (i n : Nat) (a b c d : F32) : (s.voiceNoteOn i n a b c d).uniDetune = s.uniDetune := rfl
@[simp] theorem voiceNoteOn_uniBlend (i n : Nat) (a b c d : F32) : (s.voiceNoteOn i n a b c d).uniBlend = s.uniBlend := rfl
@[simp] theorem voiceNoteOn_uniSpread (i n : Nat) (a b c d : F32) : (s.voiceNoteOn i n a b c d).uniSpread = s.uniSpread := rfl
@[simp] theorem voiceNoteOn_voice (i n : Nat) (a b c d : F32) : (s.voiceNoteOn i n a b c d).voice = s.voice.modify i (VoiceRec.noteOn s.par s.clkTick n a b c d) := rfl
@[simp] theorem voiceNoteOn_global (i n : Nat) (a b c d : F32) : (s.voiceNoteOn i n a b c d).global = s.global := rfl
@[simp] theorem voiceNoteOn_wt (i n : Nat) (a b c d : F32) : (s.voiceNoteOn i n a b c d).wt = s.wt := rfl
@[simp] theorem voiceNoteOn_frames (i n : Nat) (a b c d : F32) : (s.voiceNoteOn i n a b c d).frames = s.frames := rfl
@[simp] theorem voiceNoteOn_reads (i n : Nat) (a b c d : F32) : (s.voiceNoteOn i n a b c d).reads = s.reads := rfl

/-! ### `globalNoteOn` -/

@[simp] theorem globalNoteOn_par (v : F32) : (s.globalNoteOn v).par = s.par := rfl
@[simp] theorem globalNoteOn_port (v : F32) : (s.globalNoteOn v).port = s.port := rfl
@[simp] theorem globalNoteOn_clkRate (v : F32) : (s.globalNoteOn v).clkRate = s.clkRate := rfl
@[simp] theorem globalNoteOn_clkTick (v : F32) : (s.globalNoteOn v).clkTick = s.clkTick := rfl
@[simp] theorem globalNoteOn_cmdSeq (v : F32) : (s.globalNoteOn v).cmdSeq = s.cmdSeq := rfl
@[simp] theorem globalNoteOn_halted (v : F32) : (s.globalNoteOn v).halted = s.halted := rfl
@[simp] theorem globalNoteOn_sealed (v : F32) : (s.globalNoteOn v).sealed = s.sealed := rfl
@[simp] theorem globalNoteOn_err (v : F32) : (s.globalNoteOn v).err = s.err := rfl
@[simp] theorem globalNoteOn_errSeq (v : F32) : (s.globalNoteOn v).errSeq = s.errSeq := rfl
@[simp] theorem globalNoteOn_errCmd (v : F32) : (s.globalNoteOn v).errCmd = s.errCmd := rfl
@[simp] theorem globalNoteOn_irqEn (v : F32) : (s.globalNoteOn v).irqEn = s.irqEn := rfl
@[simp] theorem globalNoteOn_outL (v : F32) : (s.globalNoteOn v).outL = s.outL := rfl
@[simp] theorem globalNoteOn_outR (v : F32) : (s.globalNoteOn v).outR = s.outR := rfl
@[simp] theorem globalNoteOn_env (v : F32) : (s.globalNoteOn v).env = s.env := rfl
@[simp] theorem globalNoteOn_lfo (v : F32) : (s.globalNoteOn v).lfo = s.lfo := rfl
@[simp] theorem globalNoteOn_op (v : F32) : (s.globalNoteOn v).op = s.op := rfl
@[simp] theorem globalNoteOn_polyMode (v : F32) : (s.globalNoteOn v).polyMode = s.polyMode := rfl
@[simp] theorem globalNoteOn_lastVoice (v : F32) : (s.globalNoteOn v).lastVoice = s.lastVoice := rfl
@[simp] theorem globalNoteOn_uniCount (v : F32) : (s.globalNoteOn v).uniCount = s.uniCount := rfl
@[simp] theorem globalNoteOn_uniDetune (v : F32) : (s.globalNoteOn v).uniDetune = s.uniDetune := rfl
@[simp] theorem globalNoteOn_uniBlend (v : F32) : (s.globalNoteOn v).uniBlend = s.uniBlend := rfl
@[simp] theorem globalNoteOn_uniSpread (v : F32) : (s.globalNoteOn v).uniSpread = s.uniSpread := rfl
@[simp] theorem globalNoteOn_voice (v : F32) : (s.globalNoteOn v).voice = s.voice := rfl
@[simp] theorem globalNoteOn_global (v : F32) : (s.globalNoteOn v).global = s.global.noteOn v s.clkTick := rfl
@[simp] theorem globalNoteOn_wt (v : F32) : (s.globalNoteOn v).wt = s.wt := rfl
@[simp] theorem globalNoteOn_frames (v : F32) : (s.globalNoteOn v).frames = s.frames := rfl
@[simp] theorem globalNoteOn_reads (v : F32) : (s.globalNoteOn v).reads = s.reads := rfl

/-! ### `polyOn` -/

@[simp] theorem polyOn_par (n : Nat) (v : F32) : (s.polyOn n v).par = s.par := rfl
@[simp] theorem polyOn_port (n : Nat) (v : F32) : (s.polyOn n v).port = s.port := rfl
@[simp] theorem polyOn_clkRate (n : Nat) (v : F32) : (s.polyOn n v).clkRate = s.clkRate := rfl
@[simp] theorem polyOn_clkTick (n : Nat) (v : F32) : (s.polyOn n v).clkTick = s.clkTick := rfl
@[simp] theorem polyOn_cmdSeq (n : Nat) (v : F32) : (s.polyOn n v).cmdSeq = s.cmdSeq := rfl
@[simp] theorem polyOn_halted (n : Nat) (v : F32) : (s.polyOn n v).halted = s.halted := rfl
@[simp] theorem polyOn_sealed (n : Nat) (v : F32) : (s.polyOn n v).sealed = s.sealed := rfl
@[simp] theorem polyOn_err (n : Nat) (v : F32) : (s.polyOn n v).err = s.err := rfl
@[simp] theorem polyOn_errSeq (n : Nat) (v : F32) : (s.polyOn n v).errSeq = s.errSeq := rfl
@[simp] theorem polyOn_errCmd (n : Nat) (v : F32) : (s.polyOn n v).errCmd = s.errCmd := rfl
@[simp] theorem polyOn_irqEn (n : Nat) (v : F32) : (s.polyOn n v).irqEn = s.irqEn := rfl
@[simp] theorem polyOn_outL (n : Nat) (v : F32) : (s.polyOn n v).outL = s.outL := rfl
@[simp] theorem polyOn_outR (n : Nat) (v : F32) : (s.polyOn n v).outR = s.outR := rfl
@[simp] theorem polyOn_env (n : Nat) (v : F32) : (s.polyOn n v).env = s.env := rfl
@[simp] theorem polyOn_lfo (n : Nat) (v : F32) : (s.polyOn n v).lfo = s.lfo := rfl
@[simp] theorem polyOn_op (n : Nat) (v : F32) : (s.polyOn n v).op = s.op := rfl
@[simp] theorem polyOn_polyMode (n : Nat) (v : F32) : (s.polyOn n v).polyMode = s.polyMode := rfl
@[simp] theorem polyOn_lastVoice (n : Nat) (v : F32) : (s.polyOn n v).lastVoice = s.polyIndex := rfl
@[simp] theorem polyOn_uniCount (n : Nat) (v : F32) : (s.polyOn n v).uniCount = s.uniCount := rfl
@[simp] theorem polyOn_uniDetune (n : Nat) (v : F32) : (s.polyOn n v).uniDetune = s.uniDetune := rfl
@[simp] theorem polyOn_uniBlend (n : Nat) (v : F32) : (s.polyOn n v).uniBlend = s.uniBlend := rfl
@[simp] theorem polyOn_uniSpread (n : Nat) (v : F32) : (s.polyOn n v).uniSpread = s.uniSpread := rfl
@[simp] theorem polyOn_voice (n : Nat) (v : F32) : (s.polyOn n v).voice = s.voice.modify s.polyIndex
      (VoiceRec.noteOn s.par s.clkTick n v F32.zero F32.one F32.half) := rfl
@[simp] theorem polyOn_global (n : Nat) (v : F32) : (s.polyOn n v).global = s.global := rfl
@[simp] theorem polyOn_wt (n : Nat) (v : F32) : (s.polyOn n v).wt = s.wt := rfl
@[simp] theorem polyOn_frames (n : Nat) (v : F32) : (s.polyOn n v).frames = s.frames := rfl
@[simp] theorem polyOn_reads (n : Nat) (v : F32) : (s.polyOn n v).reads = s.reads := rfl

/-! ### `releaseWhere` -/

@[simp] theorem releaseWhere_par (f : VoiceRec → Bool) : (s.releaseWhere f).par = s.par := rfl
@[simp] theorem releaseWhere_port (f : VoiceRec → Bool) : (s.releaseWhere f).port = s.port := rfl
@[simp] theorem releaseWhere_clkRate (f : VoiceRec → Bool) : (s.releaseWhere f).clkRate = s.clkRate := rfl
@[simp] theorem releaseWhere_clkTick (f : VoiceRec → Bool) : (s.releaseWhere f).clkTick = s.clkTick := rfl
@[simp] theorem releaseWhere_cmdSeq (f : VoiceRec → Bool) : (s.releaseWhere f).cmdSeq = s.cmdSeq := rfl
@[simp] theorem releaseWhere_halted (f : VoiceRec → Bool) : (s.releaseWhere f).halted = s.halted := rfl
@[simp] theorem releaseWhere_sealed (f : VoiceRec → Bool) : (s.releaseWhere f).sealed = s.sealed := rfl
@[simp] theorem releaseWhere_err (f : VoiceRec → Bool) : (s.releaseWhere f).err = s.err := rfl
@[simp] theorem releaseWhere_errSeq (f : VoiceRec → Bool) : (s.releaseWhere f).errSeq = s.errSeq := rfl
@[simp] theorem releaseWhere_errCmd (f : VoiceRec → Bool) : (s.releaseWhere f).errCmd = s.errCmd := rfl
@[simp] theorem releaseWhere_irqEn (f : VoiceRec → Bool) : (s.releaseWhere f).irqEn = s.irqEn := rfl
@[simp] theorem releaseWhere_outL (f : VoiceRec → Bool) : (s.releaseWhere f).outL = s.outL := rfl
@[simp] theorem releaseWhere_outR (f : VoiceRec → Bool) : (s.releaseWhere f).outR = s.outR := rfl
@[simp] theorem releaseWhere_env (f : VoiceRec → Bool) : (s.releaseWhere f).env = s.env := rfl
@[simp] theorem releaseWhere_lfo (f : VoiceRec → Bool) : (s.releaseWhere f).lfo = s.lfo := rfl
@[simp] theorem releaseWhere_op (f : VoiceRec → Bool) : (s.releaseWhere f).op = s.op := rfl
@[simp] theorem releaseWhere_polyMode (f : VoiceRec → Bool) : (s.releaseWhere f).polyMode = s.polyMode := rfl
@[simp] theorem releaseWhere_lastVoice (f : VoiceRec → Bool) : (s.releaseWhere f).lastVoice = s.lastVoice := rfl
@[simp] theorem releaseWhere_uniCount (f : VoiceRec → Bool) : (s.releaseWhere f).uniCount = s.uniCount := rfl
@[simp] theorem releaseWhere_uniDetune (f : VoiceRec → Bool) : (s.releaseWhere f).uniDetune = s.uniDetune := rfl
@[simp] theorem releaseWhere_uniBlend (f : VoiceRec → Bool) : (s.releaseWhere f).uniBlend = s.uniBlend := rfl
@[simp] theorem releaseWhere_uniSpread (f : VoiceRec → Bool) : (s.releaseWhere f).uniSpread = s.uniSpread := rfl
@[simp] theorem releaseWhere_voice (f : VoiceRec → Bool) : (s.releaseWhere f).voice = s.voice.map fun v => if f v then v.release s.clkTick else v := rfl
@[simp] theorem releaseWhere_global (f : VoiceRec → Bool) : (s.releaseWhere f).global = if s.voice.any f then s.global.noteOff s.clkTick else s.global := rfl
@[simp] theorem releaseWhere_wt (f : VoiceRec → Bool) : (s.releaseWhere f).wt = s.wt := rfl
@[simp] theorem releaseWhere_frames (f : VoiceRec → Bool) : (s.releaseWhere f).frames = s.frames := rfl
@[simp] theorem releaseWhere_reads (f : VoiceRec → Bool) : (s.releaseWhere f).reads = s.reads := rfl

/-! ### `releaseAll` -/

@[simp] theorem releaseAll_par : s.releaseAll.par = s.par := rfl
@[simp] theorem releaseAll_port : s.releaseAll.port = s.port := rfl
@[simp] theorem releaseAll_clkRate : s.releaseAll.clkRate = s.clkRate := rfl
@[simp] theorem releaseAll_clkTick : s.releaseAll.clkTick = s.clkTick := rfl
@[simp] theorem releaseAll_cmdSeq : s.releaseAll.cmdSeq = s.cmdSeq := rfl
@[simp] theorem releaseAll_halted : s.releaseAll.halted = s.halted := rfl
@[simp] theorem releaseAll_sealed : s.releaseAll.sealed = s.sealed := rfl
@[simp] theorem releaseAll_err : s.releaseAll.err = s.err := rfl
@[simp] theorem releaseAll_errSeq : s.releaseAll.errSeq = s.errSeq := rfl
@[simp] theorem releaseAll_errCmd : s.releaseAll.errCmd = s.errCmd := rfl
@[simp] theorem releaseAll_irqEn : s.releaseAll.irqEn = s.irqEn := rfl
@[simp] theorem releaseAll_outL : s.releaseAll.outL = s.outL := rfl
@[simp] theorem releaseAll_outR : s.releaseAll.outR = s.outR := rfl
@[simp] theorem releaseAll_env : s.releaseAll.env = s.env := rfl
@[simp] theorem releaseAll_lfo : s.releaseAll.lfo = s.lfo := rfl
@[simp] theorem releaseAll_op : s.releaseAll.op = s.op := rfl
@[simp] theorem releaseAll_polyMode : s.releaseAll.polyMode = s.polyMode := rfl
@[simp] theorem releaseAll_lastVoice : s.releaseAll.lastVoice = s.par.voices - 1 := rfl
@[simp] theorem releaseAll_uniCount : s.releaseAll.uniCount = s.uniCount := rfl
@[simp] theorem releaseAll_uniDetune : s.releaseAll.uniDetune = s.uniDetune := rfl
@[simp] theorem releaseAll_uniBlend : s.releaseAll.uniBlend = s.uniBlend := rfl
@[simp] theorem releaseAll_uniSpread : s.releaseAll.uniSpread = s.uniSpread := rfl
@[simp] theorem releaseAll_voice : s.releaseAll.voice = (s.releaseWhere fun v => v.note.isSome).voice := rfl
@[simp] theorem releaseAll_global : s.releaseAll.global = (s.releaseWhere fun v => v.note.isSome).global := rfl
@[simp] theorem releaseAll_wt : s.releaseAll.wt = s.wt := rfl
@[simp] theorem releaseAll_frames : s.releaseAll.frames = s.frames := rfl
@[simp] theorem releaseAll_reads : s.releaseAll.reads = s.reads := rfl

/-! ### `tickFrame` -/

@[simp] theorem tickFrame_par : s.tickFrame.par = s.par := rfl
@[simp] theorem tickFrame_port : s.tickFrame.port = s.port := rfl
@[simp] theorem tickFrame_clkRate : s.tickFrame.clkRate = s.clkRate := rfl
@[simp] theorem tickFrame_clkTick : s.tickFrame.clkTick = s.clkTick + 1 := rfl
@[simp] theorem tickFrame_cmdSeq : s.tickFrame.cmdSeq = s.cmdSeq := rfl
@[simp] theorem tickFrame_halted : s.tickFrame.halted = s.halted := rfl
@[simp] theorem tickFrame_sealed : s.tickFrame.sealed = s.sealed := rfl
@[simp] theorem tickFrame_err : s.tickFrame.err = s.err := rfl
@[simp] theorem tickFrame_errSeq : s.tickFrame.errSeq = s.errSeq := rfl
@[simp] theorem tickFrame_errCmd : s.tickFrame.errCmd = s.errCmd := rfl
@[simp] theorem tickFrame_irqEn : s.tickFrame.irqEn = s.irqEn := rfl
@[simp] theorem tickFrame_outL : s.tickFrame.outL = s.frameAt.left := rfl
@[simp] theorem tickFrame_outR : s.tickFrame.outR = s.frameAt.right := rfl
@[simp] theorem tickFrame_env : s.tickFrame.env = s.env := rfl
@[simp] theorem tickFrame_lfo : s.tickFrame.lfo = s.lfo := rfl
@[simp] theorem tickFrame_op : s.tickFrame.op = s.op := rfl
@[simp] theorem tickFrame_polyMode : s.tickFrame.polyMode = s.polyMode := rfl
@[simp] theorem tickFrame_lastVoice : s.tickFrame.lastVoice = s.lastVoice := rfl
@[simp] theorem tickFrame_uniCount : s.tickFrame.uniCount = s.uniCount := rfl
@[simp] theorem tickFrame_uniDetune : s.tickFrame.uniDetune = s.uniDetune := rfl
@[simp] theorem tickFrame_uniBlend : s.tickFrame.uniBlend = s.uniBlend := rfl
@[simp] theorem tickFrame_uniSpread : s.tickFrame.uniSpread = s.uniSpread := rfl
@[simp] theorem tickFrame_voice : s.tickFrame.voice = s.frameAt.voice := rfl
@[simp] theorem tickFrame_global : s.tickFrame.global = s.frameAt.global := rfl
@[simp] theorem tickFrame_wt : s.tickFrame.wt = s.wt := rfl
@[simp] theorem tickFrame_frames : s.tickFrame.frames = s.frames ++ [(s.frameAt.left, s.frameAt.right)] := rfl
@[simp] theorem tickFrame_reads : s.tickFrame.reads = s.reads := rfl

/-! ### `takeFault` -/

/-- On a running core, trap entry writes the fault record and nothing else (R168). -/
theorem takeFault_running {s : State} (h : s.halted = false) (k : FaultKind) (w : Word) :
    s.takeFault k w = { s with
      err := s.err ||| k.bit
      errSeq := s.cmdSeq
      errCmd := w
      halted := true } := by
  simp [takeFault, h]

/-- On a halted core, trap entry sets the bit and nothing else (R168). -/
theorem takeFault_halted {s : State} (h : s.halted = true) (k : FaultKind) (w : Word) :
    s.takeFault k w = { s with err := s.err ||| k.bit } := by
  simp [takeFault, h]

section
variable (k : FaultKind) (w : Word)

@[simp] theorem takeFault_err : (s.takeFault k w).err = s.err ||| k.bit := by
  unfold takeFault; split <;> rfl
@[simp] theorem takeFault_halted_eq : (s.takeFault k w).halted = true := by
  unfold takeFault; split <;> simp_all
@[simp] theorem takeFault_par : (s.takeFault k w).par = s.par := by unfold takeFault; split <;> rfl
@[simp] theorem takeFault_port : (s.takeFault k w).port = s.port := by unfold takeFault; split <;> rfl
@[simp] theorem takeFault_clkRate : (s.takeFault k w).clkRate = s.clkRate := by unfold takeFault; split <;> rfl
@[simp] theorem takeFault_clkTick : (s.takeFault k w).clkTick = s.clkTick := by unfold takeFault; split <;> rfl
@[simp] theorem takeFault_cmdSeq : (s.takeFault k w).cmdSeq = s.cmdSeq := by unfold takeFault; split <;> rfl
@[simp] theorem takeFault_sealed : (s.takeFault k w).sealed = s.sealed := by unfold takeFault; split <;> rfl
@[simp] theorem takeFault_irqEn : (s.takeFault k w).irqEn = s.irqEn := by unfold takeFault; split <;> rfl
@[simp] theorem takeFault_outL : (s.takeFault k w).outL = s.outL := by unfold takeFault; split <;> rfl
@[simp] theorem takeFault_outR : (s.takeFault k w).outR = s.outR := by unfold takeFault; split <;> rfl
@[simp] theorem takeFault_env : (s.takeFault k w).env = s.env := by unfold takeFault; split <;> rfl
@[simp] theorem takeFault_lfo : (s.takeFault k w).lfo = s.lfo := by unfold takeFault; split <;> rfl
@[simp] theorem takeFault_op : (s.takeFault k w).op = s.op := by unfold takeFault; split <;> rfl
@[simp] theorem takeFault_polyMode : (s.takeFault k w).polyMode = s.polyMode := by unfold takeFault; split <;> rfl
@[simp] theorem takeFault_lastVoice : (s.takeFault k w).lastVoice = s.lastVoice := by unfold takeFault; split <;> rfl
@[simp] theorem takeFault_uniCount : (s.takeFault k w).uniCount = s.uniCount := by unfold takeFault; split <;> rfl
@[simp] theorem takeFault_uniDetune : (s.takeFault k w).uniDetune = s.uniDetune := by unfold takeFault; split <;> rfl
@[simp] theorem takeFault_uniBlend : (s.takeFault k w).uniBlend = s.uniBlend := by unfold takeFault; split <;> rfl
@[simp] theorem takeFault_uniSpread : (s.takeFault k w).uniSpread = s.uniSpread := by unfold takeFault; split <;> rfl
@[simp] theorem takeFault_voice : (s.takeFault k w).voice = s.voice := by unfold takeFault; split <;> rfl
@[simp] theorem takeFault_global : (s.takeFault k w).global = s.global := by unfold takeFault; split <;> rfl
@[simp] theorem takeFault_wt : (s.takeFault k w).wt = s.wt := by unfold takeFault; split <;> rfl
@[simp] theorem takeFault_frames : (s.takeFault k w).frames = s.frames := by unfold takeFault; split <;> rfl
@[simp] theorem takeFault_reads : (s.takeFault k w).reads = s.reads := by unfold takeFault; split <;> rfl

end

/-! ### `unlessHalted` -/

theorem unlessHalted_running {s : State} (h : s.halted = false) (f : State → State) :
    s.unlessHalted f = f s := by simp [unlessHalted, h]

theorem unlessHalted_halted {s : State} (h : s.halted = true) (f : State → State) :
    s.unlessHalted f = s := by simp [unlessHalted, h]

end Sys2Proof.Machine.State
end

