-- ==== Sys2Proof/Laws/Allocator.lean ====
section
/-! SUPPORT. Laws of the voice allocator: what `allocate` and `release` can change, and the packs and voices
after their events. -/

namespace Sys2Proof.Machine

/-! ### Packs and voices -/

theorem map_const {α β : Type} (b : β) (xs : List α) : (xs.map fun _ => b) = List.replicate xs.length b := by
  induction xs with
  | nil => rfl
  | cons x xs ih => simp [ih, List.replicate_succ]

/-- A pack after its `note_on`: the state before does not matter, but for the number of instances. -/
theorem Pack.noteOn_eq (vel : F32) (tick : U32) (k : Pack) : k.noteOn vel tick =
    { envs := List.replicate k.envs.length (.noteOn vel tick)
      lfos := List.replicate k.lfos.length { active := true, stopped := false, last := tick } } := by
  simp only [Pack.noteOn, Pack.mk.injEq]
  exact ⟨map_const _ _, map_const _ _⟩

@[simp] theorem Pack.noteOn_envs_length (vel : F32) (tick : U32) (k : Pack) :
    (k.noteOn vel tick).envs.length = k.envs.length := List.length_map _
@[simp] theorem Pack.noteOn_lfos_length (vel : F32) (tick : U32) (k : Pack) :
    (k.noteOn vel tick).lfos.length = k.lfos.length := List.length_map _
@[simp] theorem Pack.noteOff_envs_length (tick : U32) (k : Pack) :
    (k.noteOff tick).envs.length = k.envs.length := List.length_map _
@[simp] theorem Pack.noteOff_lfos_length (tick : U32) (k : Pack) :
    (k.noteOff tick).lfos.length = k.lfos.length := List.length_map _

@[simp] theorem VoiceRec.release_note (tick : U32) (v : VoiceRec) : (v.release tick).note = none := rfl
@[simp] theorem VoiceRec.release_pack (tick : U32) (v : VoiceRec) :
    (v.release tick).pack = v.pack.noteOff tick := rfl
@[simp] theorem VoiceRec.release_anchors (tick : U32) (v : VoiceRec) : (v.release tick).anchors = v.anchors := rfl

/-! ### Frames -/

/-- A unison group changes the voices alone. -/
theorem State.unisonGroup_frame (note : Nat) (vel : F32) (is : List Nat) (k : Nat) (s : State) :
    State.unisonGroup note vel is k s = { s with voice := (State.unisonGroup note vel is k s).voice } := by
  induction is generalizing k s with
  | nil => rfl
  | cons i is ih => exact (ih (k + 1) (s.unisonVoiceOn note vel i k)).trans rfl

/-- `allocate` changes the voices, `POLY_LAST` and the global pack alone. -/
theorem State.allocate_frame (s : State) (note : Nat) (vel : F32) : s.allocate note vel =
    { s with
      voice := (s.allocate note vel).voice
      lastVoice := (s.allocate note vel).lastVoice
      global := (s.allocate note vel).global } := by
  unfold State.allocate
  split
  · rfl
  · split
    · rfl
    · split
      · rfl
      · simp only [State.globalNoteOn]
        rw [State.unisonGroup_frame]

/-- `release` changes the voices and the global pack alone. -/
theorem State.releaseNote_frame (s : State) (note : Nat) : s.releaseNote note =
    { s with voice := (s.releaseNote note).voice, global := (s.releaseNote note).global } := rfl

/-! ### The choice of voices -/

theorem State.hasNote_iff {s : State} {n : Nat} : s.hasNote n = true ↔ ∃ v ∈ s.voice, v.note = some n := by
  simp [State.hasNote]

theorem State.freeAt_iff {s : State} {i : Nat} :
    s.freeAt i = true ↔ ∃ v, s.voice[i]? = some v ∧ v.note = none := by
  unfold State.freeAt
  cases s.voice[i]? <;> simp [VoiceRec.free]

theorem State.mem_freeVoices {s : State} {i : Nat} :
    i ∈ s.freeVoices ↔ i < s.par.voices ∧ ∃ v, s.voice[i]? = some v ∧ v.note = none := by
  simp only [State.freeVoices, List.mem_filter, List.mem_range, State.freeAt_iff]

/-- The free voices come in ascending order. -/
theorem State.freeVoices_pairwise (s : State) : s.freeVoices.Pairwise (· < ·) :=
  List.Pairwise.filter _ List.pairwise_lt_range

/-- The voice that a Poly NOTE_ON takes is one of the core's. -/
theorem State.polyIndex_lt {s : State} (h : 1 ≤ s.par.voices) : s.polyIndex < s.par.voices := by
  unfold State.polyIndex
  cases hf : s.scanOrder.find? s.freeAt with
  | none => exact Nat.mod_lt _ h
  | some i =>
    have := List.mem_of_find?_eq_some hf
    simp only [State.scanOrder, List.mem_map] at this
    obtain ⟨k, -, rfl⟩ := this
    exact Nat.mod_lt _ h

/-- The voices of a unison group, one by one: the voices outside the list keep their records, and the `j`-th of
the list, whose indices do not repeat, has the spread index `k + j`. -/
theorem State.unisonGroup_voice (note : Nat) (vel : F32) (is : List Nat) (k : Nat) (s : State)
    (hnd : is.Nodup) (i : Nat) : (State.unisonGroup note vel is k s).voice[i]? =
      match is.findIdx? (· == i) with
      | some j => (s.voice[i]?).map (VoiceRec.noteOn s.par s.clkTick note vel
          (spreadDetune s.uniCount (k + j) s.uniDetune) (spreadBlend s.par s.uniCount (k + j) s.uniBlend)
          (spreadBalance s.uniCount (k + j) s.uniSpread))
      | none => s.voice[i]? := by
  induction is generalizing k s with
  | nil => rfl
  | cons a is ih =>
    rw [List.nodup_cons] at hnd
    have := ih (k + 1) (s.unisonVoiceOn note vel a k) hnd.2
    rw [State.unisonGroup, this]
    by_cases ha : a = i
    · subst ha
      have hn : is.findIdx? (· == a) = none := by
        rw [List.findIdx?_eq_none_iff]
        intro x hx
        simp only [beq_eq_false_iff_ne, ne_eq]
        rintro rfl
        exact hnd.1 hx
      simp [List.findIdx?_cons, hn, State.unisonVoiceOn]
    · have hb : (a == i) = false := by simpa using ha
      rw [List.findIdx?_cons, hb]
      cases is.findIdx? (· == i) with
      | none => simp [State.unisonVoiceOn, ha]
      | some j =>
        have e : k + 1 + j = k + (j + 1) := by omega
        simp [State.unisonVoiceOn, ha, e]

/-! ### The registers -/

/-- A WR changes the configuration registers, the clock and `IRQ_EN`, and with POLY_MODE the voices, `POLY_LAST`
and the global pack; it changes nothing else. -/
theorem State.writeReg_frame {s t : State} {r : Reg} {v : U32} (h : s.writeReg r v = some t) : t =
    { s with
      irqEn := t.irqEn
      clkRate := t.clkRate
      clkTick := t.clkTick
      polyMode := t.polyMode
      lastVoice := t.lastVoice
      uniCount := t.uniCount
      uniDetune := t.uniDetune
      uniBlend := t.uniBlend
      uniSpread := t.uniSpread
      env := t.env
      lfo := t.lfo
      op := t.op
      voice := t.voice
      global := t.global } := by
  cases r <;> simp only [State.writeReg, Option.map_eq_some_iff, reduceCtorEq] at h
  case clkTick => cases h; rfl
  case notePriority => split at h <;> cases h; rfl
  all_goals obtain ⟨x, -, rfl⟩ := h; rfl

end Sys2Proof.Machine
end

