-- ==== Sys2Proof/Laws/Float.lean ====
section
/-! SUPPORT. Laws of binary32 arithmetic: the parts of a bit pattern, rounding (it is monotone, and exact on
what a binary32 holds), and the values the interval primitives give. -/

namespace Sys2Proof.F32

/-! ### Bit patterns -/

theorem toNat_lt (a : F32) : a.toNat < 2 ^ 32 := a.isLt

theorem mag_lt (a : F32) : mag a < 2 ^ 31 := Nat.mod_lt _ (by norm_num)

theorem pack_toNat {s : Bool} {m : Nat} (h : m < 2 ^ 31) :
    (pack s m).toNat = if s then 2 ^ 31 + m else m := by
  unfold pack
  cases s <;> simp only [BitVec.toNat_ofNat, if_true, if_false, Bool.false_eq_true] <;> omega

theorem mag_pack {s : Bool} {m : Nat} (h : m < 2 ^ 31) : mag (pack s m) = m := by
  unfold mag
  rw [pack_toNat h]
  cases s <;> simp only [if_true, if_false, Bool.false_eq_true] <;> omega

theorem sign_pack {s : Bool} {m : Nat} (h : m < 2 ^ 31) : sign (pack s m) = s := by
  unfold sign
  rw [pack_toNat h]
  cases s <;> simp only [if_true, if_false, Bool.false_eq_true, decide_eq_true_eq, decide_eq_false_iff_not] <;> omega

theorem toNat_eq (a : F32) : a.toNat = if sign a then 2 ^ 31 + mag a else mag a := by
  have := toNat_lt a
  by_cases h : 2 ^ 31 ≤ a.toNat <;> simp only [sign, mag, h, decide_true, decide_false, if_true, if_false,
    Bool.false_eq_true] <;> omega

/-- A bit pattern is its sign and its magnitude. -/
theorem pack_sign_mag (a : F32) : pack (sign a) (mag a) = a := by
  apply BitVec.eq_of_toNat_eq
  rw [pack_toNat (mag_lt a), ← toNat_eq a]

theorem ext_sign_mag {a b : F32} (hs : sign a = sign b) (hm : mag a = mag b) : a = b := by
  rw [← pack_sign_mag a, ← pack_sign_mag b, hs, hm]

@[simp] theorem mag_neg (a : F32) : mag (neg a) = mag a := mag_pack (mag_lt a)
@[simp] theorem sign_neg (a : F32) : sign (neg a) = !sign a := sign_pack (mag_lt a)
@[simp] theorem mag_abs (a : F32) : mag (abs a) = mag a := mag_pack (mag_lt a)
@[simp] theorem sign_abs (a : F32) : sign (abs a) = false := sign_pack (mag_lt a)

@[simp] theorem neg_neg (a : F32) : neg (neg a) = a :=
  ext_sign_mag (by simp) (by simp)

/-- A magnitude of at most 2.0 is finite. -/
theorem lt_inf {m : Nat} (h : m ≤ 0x40000000) : m < infMag := by
  have : infMag = 0x7F800000 := rfl
  omega

/-! ### Rounding -/

/-- The magnitude, in units, of the magnitude bits `m`. -/
def unitsOfMag (m : Nat) : Nat := if m < 2 ^ 23 then m else (2 ^ 23 + m % 2 ^ 23) * 2 ^ (m / 2 ^ 23 - 1)

theorem magUnits_eq (a : F32) : magUnits a = unitsOfMag (mag a) := rfl

/-- Rounding the quotient `n / D` to the nearest integer, ties to even. -/
def nearest (n D : Nat) : Nat :=
  if D < 2 * (n % D) ∨ (2 * (n % D) = D ∧ n / D % 2 = 1) then n / D + 1 else n / D

theorem roundMag_eq (n d : Nat) :
    roundMag n d = min (((n / d).log2 - 23) * 2 ^ 23 + nearest n (d * 2 ^ ((n / d).log2 - 23))) infMag := rfl

theorem roundMag_le (n d : Nat) : roundMag n d ≤ infMag := Nat.min_le_right _ _

theorem roundMag_lt (n d : Nat) : roundMag n d < 2 ^ 31 :=
  Nat.lt_of_le_of_lt (roundMag_le n d) (by decide)

theorem div_le_nearest (n D : Nat) : n / D ≤ nearest n D := by
  unfold nearest; split <;> omega

theorem nearest_le (n D : Nat) : nearest n D ≤ n / D + 1 := by
  unfold nearest; split <;> omega

theorem nearest_exact {D : Nat} (h : 0 < D) (m : Nat) : nearest (m * D) D = m := by
  have h1 : m * D % D = 0 := Nat.mul_mod_left m D
  have h2 : m * D / D = m := Nat.mul_div_cancel m h
  unfold nearest
  rw [h1, h2, if_neg (by omega)]

theorem div_mono_cross {n₁ D₁ n₂ D₂ : Nat} (h₁ : 0 < D₁) (h₂ : 0 < D₂) (h : n₁ * D₂ ≤ n₂ * D₁) :
    n₁ / D₁ ≤ n₂ / D₂ := by
  rw [Nat.le_div_iff_mul_le h₂]
  have h3 : n₁ / D₁ * D₁ ≤ n₁ := Nat.div_mul_le_self n₁ D₁
  have : n₁ / D₁ * D₂ * D₁ ≤ n₂ * D₁ := by
    calc n₁ / D₁ * D₂ * D₁ = n₁ / D₁ * D₁ * D₂ := by ring
      _ ≤ n₁ * D₂ := Nat.mul_le_mul_right _ h3
      _ ≤ n₂ * D₁ := h
  exact Nat.le_of_mul_le_mul_right this h₁

/-- Rounding to the nearest integer is monotone in the quotient. -/
theorem nearest_mono {n₁ D₁ n₂ D₂ : Nat} (h₁ : 0 < D₁) (h₂ : 0 < D₂) (h : n₁ * D₂ ≤ n₂ * D₁) :
    nearest n₁ D₁ ≤ nearest n₂ D₂ := by
  have hq := div_mono_cross h₁ h₂ h
  rcases Nat.lt_or_eq_of_le hq with hlt | heq
  · exact Nat.le_trans (nearest_le _ _) (Nat.le_trans hlt (div_le_nearest _ _))
  · have e₁ : n₁ = D₁ * (n₁ / D₁) + n₁ % D₁ := (Nat.div_add_mod n₁ D₁).symm
    have e₂ : n₂ = D₂ * (n₂ / D₂) + n₂ % D₂ := (Nat.div_add_mod n₂ D₂).symm
    have hr : n₁ % D₁ * D₂ ≤ n₂ % D₂ * D₁ := by
      rw [e₁, e₂, heq] at h
      nlinarith [h]
    unfold nearest
    rw [heq]
    split
    · rename_i hup
      rw [if_pos]
      rcases hup with hup | ⟨hup, hodd⟩
      · left
        by_contra hc
        have : 2 * (n₂ % D₂) * D₁ ≤ D₂ * D₁ := Nat.mul_le_mul_right _ (by omega)
        have : D₁ * D₂ < 2 * (n₁ % D₁) * D₂ := Nat.mul_lt_mul_of_pos_right hup h₂
        nlinarith
      · rcases Nat.lt_or_ge D₂ (2 * (n₂ % D₂)) with hlt | hge
        · exact Or.inl hlt
        · refine Or.inr ⟨?_, hodd⟩
          by_contra hc
          have h4 : 2 * (n₂ % D₂) < D₂ := by omega
          have : 2 * (n₂ % D₂) * D₁ < D₂ * D₁ := Nat.mul_lt_mul_of_pos_right h4 h₁
          have : D₁ * D₂ = 2 * (n₁ % D₁) * D₂ := by rw [hup]
          nlinarith
    · split <;> omega

theorem log2_mono {a b : Nat} (h : a ≤ b) : a.log2 ≤ b.log2 := by
  rcases Nat.eq_zero_or_pos a with h0 | h0
  · subst h0; simp
  · exact (Nat.le_log2 (by omega)).mpr (Nat.le_trans (Nat.log2_self_le (by omega)) h)

/-- Rounding is monotone in the exact value. -/
theorem roundMag_mono {n₁ d₁ n₂ d₂ : Nat} (h₁ : 0 < d₁) (h₂ : 0 < d₂) (h : n₁ * d₂ ≤ n₂ * d₁) :
    roundMag n₁ d₁ ≤ roundMag n₂ d₂ := by
  have hq := div_mono_cross h₁ h₂ h
  have hlog : (n₁ / d₁).log2 ≤ (n₂ / d₂).log2 := log2_mono hq
  rw [roundMag_eq, roundMag_eq]
  set s₁ := (n₁ / d₁).log2 - 23 with hs₁
  set s₂ := (n₂ / d₂).log2 - 23 with hs₂
  have hs : s₁ ≤ s₂ := by omega
  apply min_le_min_right
  rcases Nat.lt_or_eq_of_le hs with hlt | heq
  · -- the coarser grid starts above the finer one
    have hb₁ : nearest n₁ (d₁ * 2 ^ s₁) ≤ 2 ^ 24 := by
      refine Nat.le_trans (nearest_le _ _) ?_
      rw [← Nat.div_div_eq_div_mul]
      have : n₁ / d₁ < 2 ^ ((n₁ / d₁).log2 + 1) := Nat.lt_log2_self
      have h24 : n₁ / d₁ < 2 ^ 24 * 2 ^ s₁ := by
        rw [← pow_add]
        exact Nat.lt_of_lt_of_le this (Nat.pow_le_pow_right (by norm_num) (by omega))
      have := (Nat.div_lt_iff_lt_mul (by positivity)).mpr h24
      omega
    have hb₂ : 2 ^ 23 ≤ nearest n₂ (d₂ * 2 ^ s₂) := by
      refine Nat.le_trans ?_ (div_le_nearest _ _)
      rw [← Nat.div_div_eq_div_mul, Nat.le_div_iff_mul_le (by positivity), ← pow_add]
      have hne : n₂ / d₂ ≠ 0 := by
        intro h0
        rw [h0] at hs₂
        simp at hs₂
        omega
      exact Nat.le_trans (Nat.pow_le_pow_right (by norm_num) (by omega)) (Nat.log2_self_le hne)
    omega
  · rw [heq]
    have : nearest n₁ (d₁ * 2 ^ s₂) ≤ nearest n₂ (d₂ * 2 ^ s₂) := by
      apply nearest_mono (by positivity) (by positivity)
      calc n₁ * (d₂ * 2 ^ s₂) = n₁ * d₂ * 2 ^ s₂ := by ring
        _ ≤ n₂ * d₁ * 2 ^ s₂ := Nat.mul_le_mul_right _ h
        _ = n₂ * (d₁ * 2 ^ s₂) := by ring
    omega

/-- Rounding is exact on the magnitudes a binary32 holds. -/
theorem roundMag_exact {m d : Nat} (hm : m ≤ infMag) (hd : 0 < d) : roundMag (unitsOfMag m * d) d = m := by
  rw [roundMag_eq, Nat.mul_div_cancel _ hd]
  unfold unitsOfMag
  split
  · rename_i h
    have hlog : m.log2 - 23 = 0 := by
      rcases Nat.eq_zero_or_pos m with h0 | h0
      · subst h0; simp
      · have : m.log2 < 23 := (Nat.log2_lt (by omega)).mpr h
        omega
    rw [hlog, pow_zero, Nat.mul_one, nearest_exact hd]
    omega
  · rename_i h
    set e := m / 2 ^ 23 - 1 with he
    have he1 : 1 ≤ m / 2 ^ 23 := by omega
    have hsig : 2 ^ 23 + m % 2 ^ 23 < 2 ^ 24 := by omega
    have hlog : ((2 ^ 23 + m % 2 ^ 23) * 2 ^ e).log2 = 23 + e := by
      have hne : (2 ^ 23 + m % 2 ^ 23) * 2 ^ e ≠ 0 := by positivity
      rw [Nat.log2_eq_iff hne]
      constructor
      · rw [pow_add]; exact Nat.mul_le_mul_right _ (by omega)
      · rw [show 23 + e + 1 = 24 + e by ring, pow_add]
        exact Nat.mul_lt_mul_of_pos_right hsig (by positivity)
    rw [hlog, show 23 + e - 23 = e by omega,
      show (2 ^ 23 + m % 2 ^ 23) * 2 ^ e * d = (2 ^ 23 + m % 2 ^ 23) * (d * 2 ^ e) by ring,
      nearest_exact (by positivity)]
    omega

theorem roundMag_le_of_le {n d m : Nat} (hm : m ≤ infMag) (hd : 0 < d) (h : n ≤ unitsOfMag m * d) :
    roundMag n d ≤ m := by
  rw [← roundMag_exact hm hd]
  exact roundMag_mono hd hd (Nat.mul_le_mul_right _ h)

theorem le_roundMag_of_le {n d m : Nat} (hm : m ≤ infMag) (hd : 0 < d) (h : unitsOfMag m * d ≤ n) :
    m ≤ roundMag n d := by
  rw [← roundMag_exact hm hd]
  exact roundMag_mono hd hd (Nat.mul_le_mul_right _ h)

theorem unitsOfMag_le_iff {m k : Nat} (hm : m ≤ infMag) (hk : k ≤ infMag) :
    unitsOfMag m ≤ unitsOfMag k ↔ m ≤ k := by
  have key : ∀ {a b : Nat}, a ≤ infMag → b ≤ infMag → unitsOfMag a ≤ unitsOfMag b → a ≤ b := by
    intro a b ha hb h
    have := roundMag_le_of_le (n := unitsOfMag a * 1) hb Nat.one_pos (by omega)
    rwa [roundMag_exact ha Nat.one_pos] at this
  constructor
  · exact key hm hk
  · intro h
    by_contra hc
    have h1 := key hk hm (by omega)
    have h2 : m = k := by omega
    subst h2
    omega

theorem unitsOfMag_one : unitsOfMag 0x3F800000 = 2 ^ 149 := by decide +kernel

/-- A magnitude of at most 1.0 is at most 2^149 units. -/
theorem magUnits_le_one {a : F32} (h : mag a ≤ 0x3F800000) : magUnits a ≤ 2 ^ 149 := by
  rw [magUnits_eq, ← unitsOfMag_one]
  exact (unitsOfMag_le_iff (Nat.le_of_lt (lt_inf (by omega))) (by decide)).mpr h

/-! ### The square root -/

theorem isqrtFrom_spec (n : Nat) : ∀ (k acc : Nat), acc * acc ≤ n → n < (acc + 2 ^ k) * (acc + 2 ^ k) →
    isqrtFrom n k acc * isqrtFrom n k acc ≤ n ∧ n < (isqrtFrom n k acc + 1) * (isqrtFrom n k acc + 1) := by
  intro k
  induction k with
  | zero => intro acc h1 h2; exact ⟨h1, by simpa [isqrtFrom] using h2⟩
  | succ k ih =>
    intro acc h1 h2
    simp only [isqrtFrom]
    split
    · rename_i h
      refine ih _ h ?_
      rwa [show acc + 2 ^ k + 2 ^ k = acc + 2 ^ (k + 1) by ring]
    · rename_i h
      exact ih _ h1 (by omega)

/-- `isqrt` is the integer square root. -/
theorem isqrt_spec (n : Nat) : isqrt n * isqrt n ≤ n ∧ n < (isqrt n + 1) * (isqrt n + 1) := by
  refine isqrtFrom_spec n _ 0 (by omega) ?_
  have h : n < 2 ^ (n.log2 + 1) := Nat.lt_log2_self
  calc n < 2 ^ (n.log2 + 1) := h
    _ ≤ 2 ^ (2 * (n.log2 / 2 + 1)) := Nat.pow_le_pow_right (by norm_num) (by omega)
    _ = (0 + 2 ^ (n.log2 / 2 + 1)) * (0 + 2 ^ (n.log2 / 2 + 1)) := by rw [two_mul, pow_add]; ring

/-! ### The interval primitives -/

theorem key_of_nonneg {a : F32} (h : sign a = false) : key a = mag a := by simp [key, h]
theorem key_of_neg {a : F32} (h : sign a = true) : key a = -(mag a : Int) := by simp [key, h]

theorem key_zero : key zero = 0 := by decide
theorem key_one : key one = 0x3F800000 := by decide
theorem key_negOne : key negOne = -0x3F800000 := by decide
theorem isNaN_zero : isNaN zero = false := by decide
theorem isNaN_one : isNaN one = false := by decide
theorem isNaN_negOne : isNaN negOne = false := by decide

/-- `clamp_u` gives a UnitInterval other than -0.0. -/
theorem clampU_unit (x : F32) : (clampU x).toNat ≤ 0x3F800000 := by
  unfold clampU
  split
  · decide
  · rename_i h
    split
    · decide
    · rename_i h1
      simp only [Bool.or_eq_true, not_or, Bool.not_eq_true] at h
      obtain ⟨hn, hle⟩ := h
      have h0 : ¬ key x ≤ 0 := by
        intro hk
        simp [le, hn, isNaN_zero, key_zero, hk] at hle
      have h2 : ¬ (0x3F800000 : Int) ≤ key x := by
        intro hk
        simp [le, hn, isNaN_one, key_one, hk] at h1
      have hs : sign x = false := by
        by_contra hc
        have hc : sign x = true := by simpa using hc
        rw [key_of_neg hc] at h0
        omega
      rw [key_of_nonneg hs] at h2
      rw [toNat_eq, hs]
      simp only [Bool.false_eq_true, if_false]
      omega

/-- `clamp_u` leaves a UnitInterval other than -0.0 as it is. -/
theorem clampU_of_unit {x : F32} (h : x.toNat ≤ 0x3F800000) : clampU x = x := by
  have hs : sign x = false := by simp only [sign, decide_eq_false_iff_not]; omega
  have hm : mag x = x.toNat := by rw [toNat_eq x, hs]; simp
  have hn : isNaN x = false := by
    have := lt_inf (m := mag x) (by omega)
    simp only [isNaN, decide_eq_false_iff_not]; omega
  unfold clampU
  simp only [le, hn, isNaN_zero, isNaN_one, key_zero, key_one, key_of_nonneg hs, Bool.not_false,
    Bool.true_and, Bool.false_or, decide_eq_true_eq]
  split
  · exact ext_sign_mag (by rw [hs]; decide) (by rw [show mag zero = 0 by decide]; omega)
  · split
    · exact ext_sign_mag (by rw [hs]; decide) (by rw [show mag one = 0x3F800000 by decide]; omega)
    · rfl

/-- `clamp_s` gives a SignedUnitInterval. -/
theorem clampS_unit (x : F32) : mag (clampS x) ≤ 0x3F800000 := by
  unfold clampS
  split
  · decide
  · rename_i h
    split
    · decide
    · rename_i h1
      simp only [Bool.or_eq_true, not_or, Bool.not_eq_true] at h
      obtain ⟨hn, hle⟩ := h
      have h0 : ¬ key x ≤ -0x3F800000 := by
        intro hk
        simp [le, hn, isNaN_negOne, key_negOne, hk] at hle
      have h2 : ¬ (0x3F800000 : Int) ≤ key x := by
        intro hk
        simp [le, hn, isNaN_one, key_one, hk] at h1
      cases hs : sign x
      · rw [key_of_nonneg hs] at h2; omega
      · rw [key_of_neg hs] at h0; omega

theorem isNaN_of_le {a : F32} (h : mag a ≤ infMag) : isNaN a = false := by
  simp only [isNaN, decide_eq_false_iff_not]; omega

theorem isInf_of_lt {a : F32} (h : mag a < infMag) : isInf a = false := by
  simp only [isInf, decide_eq_false_iff_not]; omega

/-- The sum of finite values is the rounding of the exact sum. -/
theorem add_finite {a b : F32} (ha : mag a < infMag) (hb : mag b < infMag) :
    add a b = ofUnits (sign a && sign b) (units a + units b) 1 := by
  simp [add, isNaN_of_le (Nat.le_of_lt ha), isNaN_of_le (Nat.le_of_lt hb), isInf_of_lt ha, isInf_of_lt hb]

/-- The product of finite values is the rounding of the exact product. -/
theorem mul_finite {a b : F32} (ha : mag a < infMag) (hb : mag b < infMag) :
    mul a b = pack (sign a != sign b) (roundMag (magUnits a * magUnits b) (2 ^ 149)) := by
  simp [mul, isNaN_of_le (Nat.le_of_lt ha), isNaN_of_le (Nat.le_of_lt hb), isInf_of_lt ha, isInf_of_lt hb]

/-- The quotient of finite values with a non-zero divisor is the rounding of the exact quotient. -/
theorem div_finite {a b : F32} (ha : mag a < infMag) (hb : mag b < infMag) (h0 : mag b ≠ 0) :
    div a b = pack (sign a != sign b) (roundMag (magUnits a * 2 ^ 149) (magUnits b)) := by
  simp [div, isNaN_of_le (Nat.le_of_lt ha), isNaN_of_le (Nat.le_of_lt hb), isInf_of_lt ha, isInf_of_lt hb,
    isZero, h0]

/-- `sqrt` of a UnitInterval is a UnitInterval. -/
theorem sqrt_unit {x : F32} (h : x.toNat ≤ 0x3F800000) : (sqrt x).toNat ≤ 0x3F800000 := by
  have hs : sign x = false := by simp only [sign, decide_eq_false_iff_not]; omega
  have hm : mag x ≤ 0x3F800000 := by unfold mag; omega
  have hU := magUnits_le_one hm
  unfold sqrt
  rw [isNaN_of_le (Nat.le_of_lt (lt_inf (by omega))), isInf_of_lt (lt_inf (by omega)), hs]
  simp only [Bool.false_eq_true, if_false]
  split
  · exact h
  · obtain ⟨hr, -⟩ := isqrt_spec (magUnits x * 2 ^ 149)
    set r := isqrt (magUnits x * 2 ^ 149)
    have hle : magUnits x * 2 ^ 149 ≤ 2 ^ 149 * 2 ^ 149 := Nat.mul_le_mul_right _ hU
    have hr' : r ≤ 2 ^ 149 := by
      by_contra hc
      have : (2 ^ 149 + 1) * (2 ^ 149 + 1) ≤ r * r := Nat.mul_le_mul (by omega) (by omega)
      omega
    have hbound : roundMag (2 * r + (if r * r = magUnits x * 2 ^ 149 then 0 else 1)) 2 ≤ 0x3F800000 := by
      apply roundMag_le_of_le (by decide) (by decide)
      rw [unitsOfMag_one]
      split
      · omega
      · rename_i hne
        have : r ≠ 2 ^ 149 := by
          intro he
          rw [he] at hr hne
          omega
        omega
    rw [pack_toNat (roundMag_lt _ _)]
    simpa using hbound

/-- The magnitude of the exact value behind a finite sum. -/
theorem mag_ofUnits (z : Bool) (n : Int) (d : Nat) :
    mag (ofUnits z n d) = if n = 0 then 0 else roundMag n.natAbs d := by
  unfold ofUnits
  split
  · exact mag_pack (by norm_num)
  · exact mag_pack (roundMag_lt _ _)

theorem units_of_nonneg {a : F32} (h : sign a = false) : units a = magUnits a := by simp [units, h]
theorem units_one : units one = 2 ^ 149 := by decide +kernel
theorem units_natAbs (a : F32) : (units a).natAbs = magUnits a := by
  unfold units; split <;> omega

theorem sign_ofUnits {z : Bool} {n : Int} {d : Nat} :
    sign (ofUnits z n d) = if n = 0 then z else decide (n < 0) := by
  unfold ofUnits
  split
  · exact sign_pack (by norm_num)
  · exact sign_pack (roundMag_lt _ _)

/-- `fl(1 - x)` of a UnitInterval is a UnitInterval. -/
theorem one_sub_unit {x : F32} (h : x.toNat ≤ 0x3F800000) : (sub one x).toNat ≤ 0x3F800000 := by
  have hs : sign x = false := by simp only [sign, decide_eq_false_iff_not]; omega
  have hm : mag x ≤ 0x3F800000 := by unfold mag; omega
  have hU := magUnits_le_one hm
  have hneg : units (neg x) = -(magUnits x : Int) := by
    simp [units, hs, magUnits_eq]
  unfold sub
  rw [add_finite (by decide) (lt_inf (by simp; omega)), units_one, hneg, toNat_eq, sign_ofUnits, mag_ofUnits]
  have hso : sign one = false := by decide
  split
  · simp [hso]
  · rename_i hz
    have h1 : ¬ (2 ^ 149 + -(magUnits x : Int) < 0) := by
      have : (magUnits x : Int) ≤ 2 ^ 149 := by exact_mod_cast hU
      omega
    simp only [h1, decide_false, Bool.false_eq_true, if_false]
    apply roundMag_le_of_le (by decide) (by decide)
    rw [unitsOfMag_one]
    omega

/-- `remap_u` of a SignedUnitInterval is a UnitInterval. -/
theorem remapU_unit {x : F32} (h : mag x ≤ 0x3F800000) : (remapU x).toNat ≤ 0x3F800000 := by
  have hU := magUnits_le_one h
  have hu : -(2 ^ 149 : Int) ≤ units x ∧ units x ≤ 2 ^ 149 := by
    have h1 := units_natAbs x
    have : (magUnits x : Int) ≤ 2 ^ 149 := by exact_mod_cast hU
    omega
  have hsum : sign (add x one) = false ∧ mag (add x one) ≤ 0x40000000 := by
    rw [add_finite (lt_inf (by omega)) (by decide), units_one, sign_ofUnits, mag_ofUnits]
    have hso : sign one = false := by decide
    split
    · simp [hso]
    · refine ⟨by simp; omega, ?_⟩
      apply roundMag_le_of_le (by decide) (by decide)
      rw [show unitsOfMag 0x40000000 = 2 ^ 150 by decide +kernel]
      omega
  obtain ⟨hs, hmag⟩ := hsum
  unfold remapU
  rw [div_finite (lt_inf hmag) (by decide) (by decide), hs, show sign two = false by decide,
    pack_toNat (roundMag_lt _ _)]
  simp only [bne_self_eq_false, Bool.false_eq_true, if_false]
  rw [show magUnits two = 2 ^ 150 by decide +kernel]
  apply roundMag_le_of_le (by decide) (by positivity)
  rw [unitsOfMag_one]
  have : magUnits (add x one) ≤ 2 ^ 150 := by
    rw [magUnits_eq, show (2:Nat) ^ 150 = unitsOfMag 0x40000000 by decide +kernel]
    exact (unitsOfMag_le_iff (Nat.le_of_lt (lt_inf hmag)) (by decide)).mpr hmag
  calc magUnits (add x one) * 2 ^ 149 ≤ 2 ^ 150 * 2 ^ 149 := Nat.mul_le_mul_right _ this
    _ = 2 ^ 149 * 2 ^ 150 := by ring

end Sys2Proof.F32
end

