-- ==== Sys2Proof/Laws/Memory.lean ====
section
/-! SUPPORT. Laws of the wavetable memory: a read after a write, and the canonical form, which every operation
keeps and in which equal contents are equal lists. -/

namespace Sys2Proof.Machine.Memory

theorem read_of_lt {m : Memory} {a : Nat} (h : ∀ c ∈ m, a < c.1) : m.read a = unlisted := by
  induction m with
  | nil => rfl
  | cons c m ih =>
    have hc := h c (by simp)
    have : ¬ c.1 = a := by omega
    simp only [read, this, if_false]
    exact ih fun d hd => h d (by simp [hd])

theorem read_entry_append (a : Nat) (v : F32) {m : Memory} (h : ∀ c ∈ m, a < c.1) (b : Nat) :
    (entry a v ++ m).read b = if b = a then v else m.read b := by
  unfold entry
  by_cases hb : b = a
  · subst hb
    split
    · simp [read_of_lt h, *]
    · simp [read]
  · have : ¬ a = b := fun e => hb e.symm
    split <;> simp [read, this]

/-- The canonical form, by its parts. -/
theorem wf_cons (c : Nat × F32) (m : Memory) :
    wf (c :: m) = true ↔ c.2 ≠ unlisted ∧ (∀ d ∈ m, c.1 < d.1) ∧ wf m = true := by
  obtain ⟨a, x⟩ := c
  induction m generalizing a x with
  | nil => simp [wf]
  | cons d m ih =>
    obtain ⟨b, y⟩ := d
    have := ih b y
    simp only [wf, Bool.and_eq_true, decide_eq_true_eq, bne_iff_ne, ne_eq, List.mem_cons,
      forall_eq_or_imp] at this ⊢
    constructor
    · rintro ⟨⟨hx, hab⟩, hw⟩
      refine ⟨hx, ⟨hab, fun e he => ?_⟩, hw⟩
      exact Nat.lt_trans hab ((this.1 hw).2.1 e he)
    · rintro ⟨hx, ⟨hab, -⟩, hw⟩
      exact ⟨⟨hx, hab⟩, hw⟩

@[simp] theorem wf_nil : wf [] = true := rfl

theorem wf_entry_append {a : Nat} {v : F32} {m : Memory} (h : ∀ c ∈ m, a < c.1) (hm : wf m = true) :
    wf (entry a v ++ m) = true := by
  unfold entry
  split
  · simpa
  · exact (wf_cons _ _).2 ⟨by assumption, h, hm⟩

theorem mem_entry {a : Nat} {v : F32} {c : Nat × F32} (h : c ∈ entry a v) : c = (a, v) := by
  unfold entry at h
  split at h <;> simp_all

/-- Every entry after a write is the new one or an old one. -/
theorem mem_write {m : Memory} {a : Nat} {v : F32} {c : Nat × F32} (h : c ∈ m.write a v) :
    c = (a, v) ∨ c ∈ m := by
  induction m with
  | nil => exact .inl (mem_entry h)
  | cons d m ih =>
    simp only [write] at h
    split at h
    · rcases List.mem_cons.1 h with h | h
      · simp [h]
      · rcases ih h with h | h <;> simp [h]
    · split at h <;> rcases List.mem_append.1 h with h | h <;> first | exact .inl (mem_entry h) | simp_all

/-- A write keeps the canonical form. -/
theorem write_wf {m : Memory} (h : wf m = true) (a : Nat) (v : F32) : wf (m.write a v) = true := by
  induction m with
  | nil =>
    have := wf_entry_append (a := a) (v := v) (m := []) (by simp) rfl
    simpa [write] using this
  | cons c m ih =>
    obtain ⟨hx, hlt, hw⟩ := (wf_cons c m).1 h
    simp only [write]
    split
    · rename_i hca
      refine (wf_cons _ _).2 ⟨hx, fun d hd => ?_, ih hw⟩
      rcases mem_write hd with rfl | hd
      · exact hca
      · exact hlt d hd
    · split
      · rename_i hca
        exact wf_entry_append (fun d hd => by have := hlt d hd; omega) hw
      · refine wf_entry_append (fun d hd => ?_) h
        rcases List.mem_cons.1 hd with rfl | hd
        · omega
        · have := hlt d hd; omega

/-- What a read gives after a write. -/
theorem read_write {m : Memory} (h : wf m = true) (a : Nat) (v : F32) (b : Nat) :
    (m.write a v).read b = if b = a then v else m.read b := by
  induction m with
  | nil =>
    have := read_entry_append a v (m := []) (by simp) b
    simpa [write, read] using this
  | cons c m ih =>
    obtain ⟨hx, hlt, hw⟩ := (wf_cons c m).1 h
    simp only [write]
    split
    · rename_i hca
      simp only [read, ih hw]
      by_cases hb : b = a
      · subst hb; simp only [if_true]; rw [if_neg (by omega)]
      · simp only [hb, if_false]
    · split
      · rename_i hca
        rw [read_entry_append a v (fun d hd => by have := hlt d hd; omega) b]
        by_cases hb : b = a
        · simp [hb]
        · simp only [hb, if_false, read]; rw [if_neg (by omega)]
      · exact read_entry_append a v (fun d hd => by
          rcases List.mem_cons.1 hd with rfl | hd
          · omega
          · have := hlt d hd; omega) b

theorem read_write_same {m : Memory} (h : wf m = true) (a : Nat) (v : F32) : (m.write a v).read a = v := by
  simp [read_write h]

theorem read_write_other {m : Memory} (h : wf m = true) {a b : Nat} (v : F32) (hb : b ≠ a) :
    (m.write a v).read b = m.read b := by
  simp [read_write h, hb]

/-- Canonical memories with the same contents are the same list. -/
theorem ext_of_wf {m k : Memory} (hm : wf m = true) (hk : wf k = true) (h : ∀ a, m.read a = k.read a) : m = k := by
  induction m generalizing k with
  | nil =>
    cases k with
    | nil => rfl
    | cons d k =>
      have h1 := ((wf_cons d k).1 hk).1
      have h2 := h d.1
      simp [read] at h2
      exact absurd h2.symm h1
  | cons c m ih =>
    obtain ⟨hx, hlt, hw⟩ := (wf_cons c m).1 hm
    cases k with
    | nil =>
      have h2 := h c.1
      simp [read] at h2
      exact absurd h2 hx
    | cons d k =>
      obtain ⟨hy, hlt', hw'⟩ := (wf_cons d k).1 hk
      have hcd : c.1 = d.1 := by
        rcases Nat.lt_trichotomy c.1 d.1 with hl | he | hl
        · have h2 := h c.1
          rw [read_of_lt (m := d :: k) (a := c.1)] at h2
          · simp [read] at h2; exact absurd h2 hx
          · intro e he
            rcases List.mem_cons.1 he with rfl | he
            · exact hl
            · exact Nat.lt_trans hl (hlt' e he)
        · exact he
        · have h2 := h d.1
          rw [read_of_lt (m := c :: m) (a := d.1)] at h2
          · simp [read] at h2; exact absurd h2.symm hy
          · intro e he
            rcases List.mem_cons.1 he with rfl | he
            · exact hl
            · exact Nat.lt_trans hl (hlt e he)
      have h2 := h c.1
      simp only [read, if_true, hcd] at h2
      have hcd' : c = d := Prod.ext hcd h2
      subst hcd'
      congr 1
      apply ih hw hw'
      intro a
      by_cases ha : c.1 = a
      · rw [read_of_lt fun e he => by have := hlt e he; omega, read_of_lt fun e he => by have := hlt' e he; omega]
      · have := h a
        simpa [read, ha] using this

end Sys2Proof.Machine.Memory

namespace Sys2Proof.Machine

/-- The addresses of two cells differ when the cells do. -/
theorem wtAddress_inj {r r' c c' : Nat} (hc : c < 65536) (hc' : c' < 65536) :
    wtAddress r c = wtAddress r' c' ↔ r = r' ∧ c = c' := by
  unfold wtAddress; omega

/-- The reset memory is in canonical form. -/
theorem reset_wt_wf (p : Params) : (State.resetWith p).wt.wf = true := rfl

end Sys2Proof.Machine
end

