-- ==== Sys2Proof/Laws/PerInstr.lean ====
section
/-! SUPPORT. The fields of a command word, and the family `TableRow`: the word of each command is of its row of
spec/opcode_table.json. -/

namespace Sys2Proof

/-! ### The fields of a word that `commandWord` makes -/

section
variable (opc : BitVec 8) (addr : BitVec 16) (arg : BitVec 8) (data : U32)

theorem commandWord_toNat : (commandWord opc addr arg data).toNat =
    opc.toNat * 2 ^ 56 + addr.toNat * 2 ^ 40 + arg.toNat * 2 ^ 32 + data.toNat := by
  have := data.isLt
  have := arg.isLt
  have := addr.isLt
  have := opc.isLt
  unfold commandWord
  rw [BitVec.toNat_append, BitVec.toNat_append, BitVec.toNat_append,
    ← Nat.shiftLeft_add_eq_or_of_lt (by omega), ← Nat.shiftLeft_add_eq_or_of_lt (by omega),
    ← Nat.shiftLeft_add_eq_or_of_lt (by omega)]
  simp only [Nat.shiftLeft_eq]
  omega

theorem opcField_commandWord : opcField (commandWord opc addr arg data) = opc := by
  apply BitVec.eq_of_toNat_eq
  have := commandWord_toNat opc addr arg data
  have := data.isLt
  have := arg.isLt
  have := addr.isLt
  have := opc.isLt
  simp only [opcField, BitVec.extractLsb'_toNat, Nat.shiftRight_eq_div_pow]
  omega

theorem addrField_commandWord : addrField (commandWord opc addr arg data) = addr := by
  apply BitVec.eq_of_toNat_eq
  have := commandWord_toNat opc addr arg data
  have := data.isLt
  have := arg.isLt
  have := addr.isLt
  simp only [addrField, BitVec.extractLsb'_toNat, Nat.shiftRight_eq_div_pow]
  omega

theorem argField_commandWord : argField (commandWord opc addr arg data) = arg := by
  apply BitVec.eq_of_toNat_eq
  have := commandWord_toNat opc addr arg data
  have := data.isLt
  have := arg.isLt
  simp only [argField, BitVec.extractLsb'_toNat, Nat.shiftRight_eq_div_pow]
  omega

theorem dataField_commandWord : dataField (commandWord opc addr arg data) = data := by
  apply BitVec.eq_of_toNat_eq
  have := commandWord_toNat opc addr arg data
  have := data.isLt
  simp only [dataField, BitVec.extractLsb'_toNat, Nat.shiftRight_eq_div_pow]
  omega

end

/-- A word is made of its four fields (R55). -/
theorem commandWord_fields (w : Word) :
    commandWord (opcField w) (addrField w) (argField w) (dataField w) = w := by
  apply BitVec.eq_of_toNat_eq
  have := w.isLt
  rw [commandWord_toNat]
  simp only [opcField, addrField, argField, dataField, BitVec.extractLsb'_toNat, Nat.shiftRight_eq_div_pow]
  omega

end Sys2Proof

namespace Sys2Proof.Laws.TableRow

/-- The `mask` of the command's row of spec/opcode_table.json. -/
def mask : Instr → Word
  | .nop => 0xFFFFFFFFFFFFFFFF#64
  | .tick => 0xFFFFFFFFFFFFFFFF#64
  | .noteOn _ _ => 0xFFFFFF0000000000#64
  | .noteOff _ _ => 0xFFFFFF0000000000#64
  | .wr _ _ => 0xFF0000FF00000000#64
  | .rd _ => 0xFF0000FFFFFFFFFF#64
  | .wtWr _ _ _ => 0xFF00000000000000#64
  | .wtSeal => 0xFFFFFFFFFFFFFFFF#64

/-- The `match` of the command's row. -/
def pattern : Instr → Word
  | .nop => 0x0000000000000000#64
  | .tick => 0x0100000000000000#64
  | .noteOn _ _ => 0x0200000000000000#64
  | .noteOff _ _ => 0x0300000000000000#64
  | .wr _ _ => 0x1000000000000000#64
  | .rd _ => 0x1100000000000000#64
  | .wtWr _ _ _ => 0x2000000000000000#64
  | .wtSeal => 0x2100000000000000#64

/-- The word of the command matches the command's row. -/
def Statement (i : Instr) : Prop := encode i &&& mask i = pattern i

theorem append_and {n m : Nat} (a a' : BitVec n) (b b' : BitVec m) :
    (a ++ b) &&& (a' ++ b') = (a &&& a') ++ (b &&& b') := by
  ext i
  simp only [BitVec.getElem_and, BitVec.getElem_append]
  split <;> rfl

theorem commandWord_and (o o' : BitVec 8) (a a' : BitVec 16) (g g' : BitVec 8) (d d' : U32) :
    commandWord o a g d &&& commandWord o' a' g' d' = commandWord (o &&& o') (a &&& a') (g &&& g') (d &&& d') :=
  (append_and (o ++ a ++ g) (o' ++ a' ++ g') d d').trans
    (congrArg (· ++ (d &&& d'))
      ((append_and (o ++ a) (o' ++ a') g g').trans (congrArg (· ++ (g &&& g')) (append_and o o' a a'))))

theorem nop : Statement .nop := by unfold Statement; decide
theorem tick : Statement .tick := by unfold Statement; decide
theorem noteOn (n : BitVec 8) (v : F32) : Statement (.noteOn n v) :=
  (commandWord_and _ 0xFF#8 _ 0xFFFF#16 _ 0#8 _ 0#32).trans (by simp only [BitVec.and_zero]; rfl)
theorem noteOff (n : BitVec 8) (v : F32) : Statement (.noteOff n v) :=
  (commandWord_and _ 0xFF#8 _ 0xFFFF#16 _ 0#8 _ 0#32).trans (by simp only [BitVec.and_zero]; rfl)
theorem wr (a : BitVec 16) (v : U32) : Statement (.wr a v) :=
  (commandWord_and _ 0xFF#8 _ 0#16 _ 0xFF#8 _ 0#32).trans (by simp only [BitVec.and_zero]; rfl)
theorem rd (a : BitVec 16) : Statement (.rd a) :=
  (commandWord_and _ 0xFF#8 _ 0#16 _ 0xFF#8 _ 0xFFFFFFFF#32).trans (by simp only [BitVec.and_zero]; rfl)
theorem wtWr (r : BitVec 8) (c : BitVec 16) (x : F32) : Statement (.wtWr r c x) :=
  (commandWord_and _ 0xFF#8 _ 0#16 _ 0#8 _ 0#32).trans (by simp only [BitVec.and_zero]; rfl)
theorem wtSeal : Statement .wtSeal := by unfold Statement; decide

end Sys2Proof.Laws.TableRow
end

