-- ==== Sys2Proof/Laws/Registers.lean ====
section
/-! SUPPORT. Laws of the register space: what the operand checks let through, and that a write of a slot keeps its
registers legal. -/

namespace Sys2Proof.Machine

/-! ### What the operand checks let through (R74 to R79) -/

theorem unitOperand_unit {v : U32} {x : F32} (h : unitOperand v = some x) : unitBits x := by
  unfold unitOperand at h
  split at h <;> cases h
  exact F32.clampU_unit _

theorem targetOperand_legal {p : Params} {v : U32} {x : ModTarget} (h : targetOperand p v = some x) :
    x.legal p := by
  unfold targetOperand at h
  split at h
  · cases h; trivial
  · split at h
    · cases h; trivial
    · split at h <;> cases h
      assumption

theorem tuneOperand_bounds {b : Int} {v : U32} {x : Int} (h : tuneOperand b v = some x) : -b ≤ x ∧ x ≤ b := by
  unfold tuneOperand at h
  split at h <;> cases h
  assumption

theorem freqOperand_legal {v : U32} {x : F32} (h : freqOperand v = some x) :
    F32.isFinite x ∧ F32.lt F32.zero x ∧ F32.le x F32.twoPow20 := by
  unfold freqOperand at h
  split at h <;> cases h
  simp_all

theorem nonzeroOperand_ne {v x : U32} (h : nonzeroOperand v = some x) : x ≠ 0 := by
  unfold nonzeroOperand at h
  split at h <;> cases h
  assumption

theorem countOperand_bounds {p : Params} {v : U32} {n : Nat} (h : countOperand p v = some n) :
    1 ≤ n ∧ n ≤ p.voices := by
  unfold countOperand at h
  split at h <;> cases h
  assumption

/-! ### Writing a slot -/

theorem EnvProps.write_legal {p : Params} {e e' : EnvProps} {f : EnvField} {v : U32} (h : e.Legal p)
    (hw : e.write p f v = some e') : e'.Legal p := by
  cases f <;> simp only [EnvProps.write, Option.map_eq_some_iff, Option.some.injEq] at hw
  case delay | attack | hold | decay => subst hw; exact ⟨h.1, h.2, h.3, h.4⟩
  all_goals obtain ⟨x, hx, rfl⟩ := hw
  case enabled => exact ⟨h.1, h.2, h.3, h.4⟩
  case amount => exact ⟨unitOperand_unit hx, h.2, h.3, h.4⟩
  case target => exact ⟨h.1, targetOperand_legal hx, h.3, h.4⟩
  case sustain => exact ⟨h.1, h.2, unitOperand_unit hx, h.4⟩
  case release => exact ⟨h.1, h.2, h.3, nonzeroOperand_ne hx⟩

theorem LfoProps.write_legal {p : Params} {l l' : LfoProps} {f : LfoField} {v : U32} (h : l.Legal p)
    (hw : l.write p f v = some l') : l'.Legal p := by
  cases f <;> simp only [LfoProps.write, Option.map_eq_some_iff] at hw <;> obtain ⟨x, hx, rfl⟩ := hw
  case enabled | waveform => exact ⟨h.1, h.2, h.3, h.4⟩
  case amount => exact ⟨unitOperand_unit hx, h.2, h.3, h.4⟩
  case freq => exact ⟨h.1, freqOperand_legal hx, h.3, h.4⟩
  case width => exact ⟨h.1, h.2, unitOperand_unit hx, h.4⟩
  case target => exact ⟨h.1, h.2, h.3, targetOperand_legal hx⟩

theorem OpProps.write_legal {o o' : OpProps} {f : OpField} {v : U32} (h : o.Legal)
    (hw : o.write f v = some o') : o'.Legal := by
  cases f <;> simp only [OpProps.write, Option.map_eq_some_iff] at hw <;> obtain ⟨x, hx, rfl⟩ := hw
  case enabled | output => exact ⟨h.1, h.2, h.3⟩
  case tuneSemi => exact ⟨tuneOperand_bounds hx, h.2, h.3⟩
  case tuneCents => exact ⟨h.1, tuneOperand_bounds hx, h.3⟩
  case wtPos => exact ⟨h.1, h.2, unitOperand_unit hx⟩

/-! ### Writing an element of a list -/

theorem writeAt_eq_some {α : Type} {xs ys : List α} {i : Nat} {f : α → Option α} :
    writeAt xs i f = some ys ↔ ∃ x y, xs[i]? = some x ∧ f x = some y ∧ ys = xs.set i y := by
  simp only [writeAt, Option.bind_eq_some_iff, Option.map_eq_some_iff]
  constructor
  · rintro ⟨x, hx, y, hy, rfl⟩; exact ⟨x, y, hx, hy, rfl⟩
  · rintro ⟨x, y, hx, hy, rfl⟩; exact ⟨x, hx, y, hy, rfl⟩

theorem writeAt_length {α : Type} {xs ys : List α} {i : Nat} {f : α → Option α} (h : writeAt xs i f = some ys) :
    ys.length = xs.length := by
  obtain ⟨x, y, -, -, rfl⟩ := writeAt_eq_some.1 h
  exact List.length_set

/-- What holds of every element before holds of every element after, if the write keeps it. -/
theorem forall_mem_writeAt {α : Type} {P : α → Prop} {xs ys : List α} {i : Nat} {f : α → Option α}
    (h : writeAt xs i f = some ys) (hx : ∀ x ∈ xs, P x) (hf : ∀ x y, P x → f x = some y → P y) :
    ∀ y ∈ ys, P y := by
  obtain ⟨a, b, ha, hb, rfl⟩ := writeAt_eq_some.1 h
  intro y hy
  rcases List.mem_or_eq_of_mem_set hy with h | rfl
  · exact hx _ h
  · exact hf a _ (hx _ (List.mem_of_getElem? ha)) hb

end Sys2Proof.Machine
end

