-- ==== Sys2Proof/Laws/Step.lean ====
section
/-! SUPPORT. What a command can do and what a step can do, each said once: every command completes
(`exec_total`), its effect is one of the cases of `Effect`, and a step is one of the cases of `step_cases`. -/

namespace Sys2Proof.Machine

/-! ### Commands -/

/-- Everything a command can do to a state. -/
inductive Effect (s : State) : Instr → State → Prop where
  /-- No effect: NOP, and a command that a halted core discards (R69, R170). -/
  | nothing (i : Instr) : Effect s i s
  /-- A fault of a command other than RD (R168). -/
  | fault (i : Instr) (k : FaultKind) : s.halted = false → (∀ a, i ≠ .rd a) →
      Effect s i (s.takeFault k (encode i))
  /-- RD of a register (R81). -/
  | read (a : BitVec 16) (v : U32) : s.peek a = some v → Effect s (.rd a) (s.emitRead v)
  /-- RD of an unmapped address (R81). -/
  | readUnmapped (a : BitVec 16) : s.peek a = none →
      Effect s (.rd a) ((s.emitRead 0).takeFault .badAddr (encode (.rd a)))
  /-- TICK (R70). -/
  | tick : s.halted = false → s.sealed = true → Effect s .tick s.tickFrame
  /-- NOTE_ON (R71). -/
  | noteOn (n : BitVec 8) (v : F32) : s.halted = false → n.toNat ≤ 127 → F32.isFinite v = true →
      Effect s (.noteOn n v) (s.allocate n.toNat (F32.clampU v))
  /-- NOTE_OFF (R72). -/
  | noteOff (n : BitVec 8) (v : F32) : s.halted = false → n.toNat ≤ 127 → F32.isFinite v = true →
      Effect s (.noteOff n v) (s.releaseNote n.toNat)
  /-- WR (R73). -/
  | write (a : BitVec 16) (v : U32) (r : Reg) (t : State) : s.halted = false → regAt s.par a = some r →
      r.access = .rw → s.writeReg r v = some t → Effect s (.wr a v) t
  /-- WT_WR (R82). -/
  | wtWr (row : BitVec 8) (col : BitVec 16) (x : F32) : s.halted = false → s.sealed = false →
      row.toNat < s.par.depth → col.toNat < s.par.length → legalSample x = true →
      Effect s (.wtWr row col x) (s.wtWrite row.toNat col.toNat x)
  /-- WT_SEAL (R83). -/
  | wtSeal : s.halted = false → Effect s .wtSeal { s with sealed := true }

/-- The checks of NOTE_ON and NOTE_OFF succeed exactly on a legal note and a finite velocity. -/
theorem noteFault_none {n : BitVec 8} {v : F32} :
    noteFault n v = none ↔ n.toNat ≤ 127 ∧ F32.isFinite v = true := by
  unfold noteFault
  split <;> rename_i h
  · simp only [reduceCtorEq, false_iff, not_and]; omega
  · split <;> simp_all

/-- The checks of WR: what it does to a core that is not halted. -/
theorem writeAddress_effect {s : State} (h : s.halted = false) (a : BitVec 16) (v : U32) :
    Effect s (.wr a v) (s.writeAddress a v) := by
  unfold State.writeAddress
  split
  · exact .fault _ _ h (by simp)
  · split
    · exact .fault _ _ h (by simp)
    · rename_i r hr hro
      split
      · exact .fault _ _ h (by simp)
      · rename_i t ht
        refine .write a v r t h hr ?_ ht
        cases hacc : r.access <;> simp_all

/-- A command on a running core. -/
theorem next_running {s : State} (h : s.halted = false) (f : State → State) :
    (.next (s.unlessHalted f) : Host.Outcome State Fault Refusal) = .next (f s) := by
  rw [State.unlessHalted_running h]

/-- A command on a halted core. -/
theorem next_halted {s : State} (h : s.halted = true) (f : State → State) :
    (.next (s.unlessHalted f) : Host.Outcome State Fault Refusal) = .next s := by
  rw [State.unlessHalted_halted h]

/-- Every command completes, and its effect is one of the cases. -/
theorem exec_total (i : Instr) (s : State) : ∃ t, exec i s = .next t ∧ Effect s i t := by
  by_cases h : s.halted
  · cases i with
    | rd a =>
      refine ⟨_, rfl, ?_⟩
      split
      · exact .readUnmapped a (by assumption)
      · exact .read a _ (by assumption)
    | nop => exact ⟨s, rfl, .nothing _⟩
    | tick => exact ⟨s, next_halted h _, .nothing _⟩
    | noteOn n v => exact ⟨s, next_halted h _, .nothing _⟩
    | noteOff n v => exact ⟨s, next_halted h _, .nothing _⟩
    | wr a v => exact ⟨s, next_halted h _, .nothing _⟩
    | wtWr r c x => exact ⟨s, next_halted h _, .nothing _⟩
    | wtSeal => exact ⟨s, next_halted h _, .nothing _⟩
  · have h : s.halted = false := by simpa using h
    cases i with
    | rd a =>
      refine ⟨_, rfl, ?_⟩
      split
      · exact .readUnmapped a (by assumption)
      · exact .read a _ (by assumption)
    | nop => exact ⟨s, rfl, .nothing _⟩
    | tick =>
      refine ⟨_, next_running h _, ?_⟩
      split
      · exact .tick h (by assumption)
      · exact .fault _ _ h (by simp)
    | noteOn n v =>
      refine ⟨_, next_running h _, ?_⟩
      split
      · exact .fault _ _ h (by simp)
      · rename_i hn
        exact .noteOn n v h (noteFault_none.1 hn).1 (noteFault_none.1 hn).2
    | noteOff n v =>
      refine ⟨_, next_running h _, ?_⟩
      split
      · exact .fault _ _ h (by simp)
      · rename_i hn
        exact .noteOff n v h (noteFault_none.1 hn).1 (noteFault_none.1 hn).2
    | wr a v => exact ⟨_, next_running h _, writeAddress_effect h a v⟩
    | wtWr r c x =>
      refine ⟨_, next_running h _, ?_⟩
      split
      · exact .fault _ _ h (by simp)
      · rename_i hs
        split
        · exact .fault _ _ h (by simp)
        · rename_i hi
          split
          · exact .fault _ _ h (by simp)
          · rename_i hx
            simp only [not_not] at hi hx
            exact .wtWr r c x h (by simpa using hs) hi.1 hi.2 hx
    | wtSeal => exact ⟨_, next_running h _, .wtSeal h⟩

/-- What a command did is one of the cases. -/
theorem exec_effect {i : Instr} {s t : State} (h : exec i s = .next t) : Effect s i t := by
  obtain ⟨u, hu, he⟩ := exec_total i s
  cases hu.symm.trans h
  exact he

/-- No command touches the parameters, the port or `CMD_SEQ`. -/
theorem Effect.keeps {s t : State} {i : Instr} (h : Effect s i t) :
    t.par = s.par ∧ t.port = s.port ∧ t.cmdSeq = s.cmdSeq := by
  cases h with
  | noteOn n v => rw [State.allocate_frame]; exact ⟨rfl, rfl, rfl⟩
  | write a v r t _ _ _ h => rw [State.writeReg_frame h]; exact ⟨rfl, rfl, rfl⟩
  | _ => simp [State.releaseNote]

/-- A halted core discards every command but RD (R170). -/
theorem exec_halted {i : Instr} {s : State} (h : s.halted = true) (hi : ∀ a, i ≠ .rd a) :
    exec i s = .next s := by
  cases i with
  | rd a => exact absurd rfl (hi a)
  | nop => rfl
  | tick => exact next_halted h _
  | noteOn n v => exact next_halted h _
  | noteOff n v => exact next_halted h _
  | wr a v => exact next_halted h _
  | wtWr r c x => exact next_halted h _
  | wtSeal => exact next_halted h _

/-! ### Steps -/

/-- `step` on a word. -/
theorem step_word {s : State} {w : Word} {rest : List Input} (h : s.port = .word w :: rest) :
    step s = stepWord w { s with port := rest } := by
  simp [step, State.takeInput, h]

/-- `step` on the reset input. -/
theorem step_reset {s : State} {rest : List Input} (h : s.port = .reset :: rest) :
    step s = .next { State.resetWith s.par with port := rest } := by
  simp [step, State.takeInput, h, State.assertReset]

/-- `step` with nothing sent. -/
theorem step_idle {s : State} (h : s.port = []) : step s = .next s := by
  simp [step, State.takeInput, h]

theorem stepWord_legal {w : Word} {i : Instr} (s : State) (h : decode w = some i) :
    stepWord w s = mapNext State.countCommand (exec i s) := by
  simp [stepWord, h]

theorem stepWord_illegal {w : Word} (s : State) (h : decode w = none) :
    stepWord w s = .next (s.illegalWord w).countCommand := by
  simp [stepWord, h, mapNext]

/-- Everything a step can do. -/
theorem step_cases {s t : State} (h : step s = .next t) :
    (s.port = [] ∧ t = s) ∨
    (∃ rest, s.port = .reset :: rest ∧ t = { State.resetWith s.par with port := rest }) ∨
    (∃ w rest i u, s.port = .word w :: rest ∧ decode w = some i ∧
      exec i { s with port := rest } = .next u ∧ Effect { s with port := rest } i u ∧ t = u.countCommand) ∨
    (∃ w rest, s.port = .word w :: rest ∧ decode w = none ∧
      t = (State.illegalWord { s with port := rest } w).countCommand) := by
  match hp : s.port with
  | [] =>
    rw [step_idle hp] at h
    exact .inl ⟨rfl, by cases h; rfl⟩
  | .reset :: rest =>
    rw [step_reset hp] at h
    exact .inr (.inl ⟨rest, rfl, by cases h; rfl⟩)
  | .word w :: rest =>
    rw [step_word hp] at h
    match hd : decode w with
    | some i =>
      rw [stepWord_legal _ hd] at h
      obtain ⟨u, hu, he⟩ := exec_total i { s with port := rest }
      rw [hu] at h
      exact .inr (.inr (.inl ⟨w, rest, i, u, rfl, hd, hu, he, by cases h; rfl⟩))
    | none =>
      rw [stepWord_illegal _ hd] at h
      exact .inr (.inr (.inr ⟨w, rest, rfl, hd, by cases h; rfl⟩))

/-- Every step answers a next state. -/
theorem step_total (s : State) : ∃ t, step s = .next t := by
  match hp : s.port with
  | [] => exact ⟨s, step_idle hp⟩
  | .reset :: rest => exact ⟨_, step_reset hp⟩
  | .word w :: rest =>
    rw [step_word hp]
    match hd : decode w with
    | some i =>
      obtain ⟨t, ht, -⟩ := exec_total i { s with port := rest }
      exact ⟨t.countCommand, by rw [stepWord_legal _ hd, ht]; rfl⟩
    | none => exact ⟨_, stepWord_illegal _ hd⟩

/-- An invariant that does not speak of the port or of `CMD_SEQ` is kept by a step when it holds after reset
and every effect of a command keeps it. -/
theorem step_keeps {P : State → Prop}
    (hport : ∀ s p, P s → P { s with port := p })
    (hcount : ∀ s, P s → P s.countCommand)
    (hreset : ∀ s, P s → P (State.resetWith s.par))
    (hill : ∀ s w, s.halted = false → P s → P (s.takeFault .illegalCmd w))
    (heff : ∀ s i t, Effect s i t → P s → P t)
    {s t : State} (hs : P s) (h : step s = .next t) : P t := by
  rcases step_cases h with ⟨-, rfl⟩ | ⟨rest, -, rfl⟩ | ⟨w, rest, i, u, -, -, -, he, rfl⟩ | ⟨w, rest, -, -, rfl⟩
  · exact hs
  · exact hport _ _ (hreset _ hs)
  · exact hcount _ (heff _ _ _ he (hport _ _ hs))
  · apply hcount
    by_cases hh : s.halted
    · rw [State.illegalWord, State.unlessHalted_halted (by exact hh)]
      exact hport _ _ hs
    · rw [State.illegalWord, State.unlessHalted_running (by simpa using hh)]
      exact hill _ _ (by simpa using hh) (hport _ _ hs)

end Sys2Proof.Machine
end

