-- ==== Sys2Proof/Laws/Tick.lean ====
section
/-! SUPPORT. What the computation of a frame can change: LFO instances and operator anchors, and those only in
the ways of `LfoState.Ticked`, `Pack.Ticked` and `VoiceRec.Ticked`. -/

namespace Sys2Proof.Machine

/-! ### LFO instances -/

theorem LfoState.Ticked.refl (tick : U32) (x : LfoState) : LfoState.Ticked tick x x :=
  ⟨rfl, fun _ => rfl, .inl rfl⟩

theorem LfoState.Ticked.trans {tick : U32} {x y z : LfoState} (h : LfoState.Ticked tick x y)
    (k : LfoState.Ticked tick y z) : LfoState.Ticked tick x z where
  active := k.active.trans h.active
  stopped hx := by
    have := h.stopped hx
    subst this
    exact k.stopped hx
  last := by
    rcases k.last with hk | hk
    · rcases h.last with hh | hh
      · exact .inl (hk.trans hh)
      · exact .inr (hk.trans hh)
    · exact .inr hk

/-- Resynchronisation keeps the anchor or moves it to the current tick (R91). -/
theorem Clock.resynchronise_anchor (c : Clock) (f p : F32) (anchor : U32) :
    (c.resynchronise f p anchor).1 = anchor ∨ (c.resynchronise f p anchor).1 = c.tick := by
  unfold Clock.resynchronise
  split <;> simp

theorem Clock.phaseExact_anchor (c : Clock) (f : F32) (anchor : U32) :
    (c.phaseExact f anchor).1 = anchor ∨ (c.phaseExact f anchor).1 = c.tick := by
  unfold Clock.phaseExact
  exact c.resynchronise_anchor _ _ _

theorem Clock.phaseFast_anchor (c : Clock) (f g : F32) (anchor : U32) :
    (c.phaseFast f g anchor).1 = anchor ∨ (c.phaseFast f g anchor).1 = c.tick := by
  unfold Clock.phaseFast
  exact c.resynchronise_anchor _ _ _

theorem lfoTick_ticked (c : Clock) (l : LfoProps) (x : LfoState) :
    LfoState.Ticked c.tick x (lfoTick c l x).1 := by
  have hl := c.phaseExact_anchor l.freq x.last
  unfold lfoTick
  generalize c.phaseExact l.freq x.last = r at hl ⊢
  dsimp only
  generalize F32.le r.2 (c.step l.freq) = b
  generalize some (F32.clampS (F32.mul (l.wave r.2) l.amount)) = y
  obtain ⟨act, stop, last⟩ := x
  cases l.enabled <;> cases stop <;> cases act <;> cases b <;>
    first
      | exact .refl _ _
      | exact ⟨rfl, fun hx => by simp at hx, hl⟩

/-- An LFO that is enabled and not stopped takes the anchor of its phase. An inactive one at most one step past a
cycle start stops; any other gives its scaled waveform (R125, R127). -/
theorem lfoTick_running {c : Clock} {l : LfoProps} {x : LfoState} (he : l.enabled = true) (hs : x.stopped = false) :
    lfoTick c l x =
      if x.active = false ∧ F32.le (c.phaseExact l.freq x.last).2 (c.step l.freq) = true then
        ({ active := false, stopped := true, last := (c.phaseExact l.freq x.last).1 }, none)
      else
        ({ active := x.active, stopped := false, last := (c.phaseExact l.freq x.last).1 },
          some (F32.clampS (F32.mul (l.wave (c.phaseExact l.freq x.last).2) l.amount))) := by
  obtain ⟨act, stop, last⟩ := x
  dsimp only at hs
  subst hs
  cases act <;> simp [lfoTick, he]

/-! ### Packs -/

theorem Pack.Ticked.refl (tick : U32) (k : Pack) : Pack.Ticked tick k k where
  envs := rfl
  lfos := List.forall₂_same.2 fun x _ => .refl tick x

theorem forall₂_trans {α : Type} {R : α → α → Prop} (hR : ∀ x y z, R x y → R y z → R x z) {xs ys zs : List α}
    (h : List.Forall₂ R xs ys) (k : List.Forall₂ R ys zs) : List.Forall₂ R xs zs := by
  induction h generalizing zs with
  | nil => exact k
  | cons h _ ih => cases k with
    | cons hk k => exact .cons (hR _ _ _ h hk) (ih k)

theorem Pack.Ticked.trans {tick : U32} {k q r : Pack} (h : Pack.Ticked tick k q) (g : Pack.Ticked tick q r) :
    Pack.Ticked tick k r where
  envs := g.envs.trans h.envs
  lfos := forall₂_trans (R := LfoState.Ticked tick) (fun _ _ _ h k => h.trans k) h.lfos g.lfos

/-- Setting one element of a list to a related one. -/
theorem forall₂_set {α : Type} {R : α → α → Prop} (hR : ∀ x, R x x) {xs : List α} {i : Nat} {x y : α}
    (hx : xs[i]? = some x) (h : R x y) : List.Forall₂ R xs (xs.set i y) := by
  induction xs generalizing i with
  | nil => simp at hx
  | cons a xs ih =>
    cases i with
    | zero =>
      simp only [List.getElem?_cons_zero, Option.some.injEq] at hx
      subst hx
      exact .cons h (List.forall₂_same.2 fun z _ => hR z)
    | succ i => exact .cons (hR a) (ih (by simpa using hx))

theorem Pack.tickLfo_ticked (c : Clock) (lfos : List LfoProps) (k : Pack) (l : Nat) :
    Pack.Ticked c.tick k (k.tickLfo c lfos l).1 := by
  unfold Pack.tickLfo
  split
  · rename_i p x _ hx
    exact ⟨rfl, forall₂_set (.refl _) hx (lfoTick_ticked c p x)⟩
  · exact .refl _ _

theorem Pack.resolveLfo_ticked (c : Clock) (lfos : List LfoProps) (t : ModTarget) (k : Pack) :
    Pack.Ticked c.tick k (k.resolveLfo c lfos t).1 := by
  unfold Pack.resolveLfo
  split
  · exact k.tickLfo_ticked c lfos _
  · exact .refl _ _

/-- `resolve` gives the pack that its LFO part leaves (R133). -/
theorem State.resolve_fst (s : State) (t : ModTarget) (k : Pack) :
    (s.resolve t k).1 = (k.resolveLfo s.clock s.lfo t).1 := by
  unfold State.resolve
  dsimp only
  split <;> rfl

theorem State.resolve_ticked (s : State) (t : ModTarget) (k : Pack) :
    Pack.Ticked s.clkTick k (s.resolve t k).1 := by
  rw [State.resolve_fst]
  exact k.resolveLfo_ticked s.clock s.lfo t

theorem State.resolveAll_ticked (s : State) (ts : List ModTarget) (k : Pack) :
    Pack.Ticked s.clkTick k (s.resolveAll ts k).1 := by
  induction ts generalizing k with
  | nil => exact .refl _ _
  | cons t ts ih => exact (s.resolve_ticked t k).trans (ih _)

@[simp] theorem State.resolveAll_length (s : State) (ts : List ModTarget) (k : Pack) :
    (s.resolveAll ts k).2.length = ts.length := by
  induction ts generalizing k with
  | nil => rfl
  | cons t ts ih => simp [State.resolveAll, ih]

/-! ### The operator pack -/

/-- The anchors of a voice move to the current tick or stay (R91). -/
theorem State.opPack_anchors (s : State) (fv pm : F32) (ops : List OpProps) (gws : List (Option ModValue))
    (anchors : List U32) (mod : OscMod) (mix : F32) :
    List.Forall₂ (fun a b => b = a ∨ b = s.clkTick) anchors (s.opPack fv pm ops gws anchors mod mix).1 := by
  induction anchors generalizing ops gws mod mix with
  | nil => cases ops <;> cases gws <;> exact .nil
  | cons a anchors ih =>
    have same : List.Forall₂ (fun a b : U32 => b = a ∨ b = s.clkTick) (a :: anchors) (a :: anchors) :=
      List.forall₂_same.2 fun _ _ => .inl rfl
    cases ops with
    | nil => exact same
    | cons op ops =>
      cases gws with
      | nil => exact same
      | cons gw gws =>
        simp only [State.opPack]
        split
        · exact .cons (Clock.phaseFast_anchor s.clock _ _ a) (ih _ _ _ _)
        · exact .cons (.inl rfl) (ih _ _ _ _)

/-- A route other than FM carries no FM value (R142). -/
theorem route_ne_fm {o : Output} (y x : F32) (h : o ≠ .fmNext) : route o y ≠ .fm x := by
  cases o <;> simp_all [route]

/-- The anchor of an enabled operator is the one its own frequency gives; without a chained FM value the frequency is
that of its tuning (R137, R143). -/
theorem State.opPack_anchor_enabled (s : State) (fv pm : F32) {ops : List OpProps} {gws : List (Option ModValue)}
    {anchors : List U32} (mod : OscMod) (mix : F32) (hl : ops.length ≤ gws.length) {i : Nat} {o : OpProps} {a : U32}
    (ho : ops[i]? = some o) (he : o.enabled = true) (ha : anchors[i]? = some a) :
    ∃ m, ((i = 0 → ∀ x, mod ≠ .fm x) →
        (∀ k q, i = k + 1 → ops[k]? = some q → q.enabled = false ∨ q.output ≠ .fmNext) → m = F32.zero) ∧
      (s.opPack fv pm ops gws anchors mod mix).1[i]? =
        some (s.clock.phaseFast (fm s.par fv (F32.add (tuneMod pm o) m))
          (s.clock.step (fm s.par fv (F32.add (tuneMod pm o) m))) a).1 := by
  induction ops generalizing gws anchors mod mix i with
  | nil => simp at ho
  | cons op ops ih =>
    cases gws with
    | nil => simp at hl
    | cons gw gws =>
      cases anchors with
      | nil => simp at ha
      | cons an anchors =>
        cases i with
        | zero =>
          simp only [List.getElem?_cons_zero, Option.some.injEq] at ho ha
          subst ho ha
          refine ⟨chainedFm mod, fun h _ => ?_, ?_⟩
          · have := h rfl
            cases mod <;> simp_all [chainedFm]
          · simp only [State.opPack, he, if_true, List.getElem?_cons_zero]
            rfl
        | succ i =>
          simp only [List.getElem?_cons_succ] at ho ha
          simp only [State.opPack]
          split
          · rename_i hen
            obtain ⟨m, h, hq⟩ := ih (route op.output (s.opRaw fv pm op gw mod an).2)
              (if op.output = .direct then F32.add mix (applyMod s.par mod (s.opRaw fv pm op gw mod an).2) else mix)
              (by simpa using hl) ho ha
            refine ⟨m, fun _ hk => h (fun h0 x => ?_) fun k q e hq => hk (k + 1) q (by omega) hq, hq⟩
            rcases hk i op rfl (by subst h0; rfl) with hd | hd
            · rw [hen] at hd; cases hd
            · exact route_ne_fm _ x hd
          · obtain ⟨m, h, hq⟩ := ih .none mix (by simpa using hl) ho ha
            exact ⟨m, fun _ hk => h (fun _ x => by simp) fun k q e hq => hk (k + 1) q (by omega) hq, hq⟩

/-! ### Voices -/

theorem State.voiceTick_ticked (s : State) (gp : Option ModValue) (gw : List (Option ModValue)) (v : VoiceRec) :
    VoiceRec.Ticked s.clkTick v (s.voiceTick gp gw v).1 where
  fields := rfl
  anchors := s.opPack_anchors _ _ _ _ _ _ _
  pack := s.resolve_ticked _ _

theorem State.mixVoices_ticked (s : State) (gp : Option ModValue) (gw : List (Option ModValue))
    (vs : List VoiceRec) (l r : F32) :
    List.Forall₂ (VoiceRec.Ticked s.clkTick) vs (s.mixVoices gp gw vs l r).1 := by
  induction vs generalizing l r with
  | nil => exact .nil
  | cons v vs ih => exact .cons (s.voiceTick_ticked gp gw v) (ih _ _)

/-- The voices after a frame are those that their own ticks leave (R150). -/
theorem State.mixVoices_fst (s : State) (gp : Option ModValue) (gw : List (Option ModValue))
    (vs : List VoiceRec) (l r : F32) :
    (s.mixVoices gp gw vs l r).1 = vs.map fun v => (s.voiceTick gp gw v).1 := by
  induction vs generalizing l r with
  | nil => rfl
  | cons v vs ih => simp only [State.mixVoices, List.map_cons, ih]

theorem State.frameAt_global_ticked (s : State) : Pack.Ticked s.clkTick s.global s.frameAt.global :=
  s.resolveAll_ticked _ _

theorem State.frameAt_voice_ticked (s : State) :
    List.Forall₂ (VoiceRec.Ticked s.clkTick) s.voice s.frameAt.voice :=
  s.mixVoices_ticked _ _ _ _ _

/-! ### What follows of the sizes -/

theorem Pack.Ticked.sized {tick : U32} {k q : Pack} {p : Params} (h : Pack.Ticked tick k q) (hk : k.sized p) :
    q.sized p := ⟨h.envs ▸ hk.1, h.lfos.length_eq ▸ hk.2⟩

theorem VoiceRec.Ticked.sized {tick : U32} {v w : VoiceRec} {p : Params} (h : VoiceRec.Ticked tick v w)
    (hv : v.sized p) : w.sized p := ⟨h.anchors.length_eq ▸ hv.1, h.pack.sized hv.2⟩

theorem VoiceRec.Ticked.note {tick : U32} {v w : VoiceRec} (h : VoiceRec.Ticked tick v w) : w.note = v.note := by
  rw [h.fields]

/-- Every element of the second list stands beside one of the first. -/
theorem exists_of_forall₂ {α : Type} {R : α → α → Prop} {xs ys : List α} (h : List.Forall₂ R xs ys) {y : α}
    (hy : y ∈ ys) : ∃ x ∈ xs, R x y := by
  induction h with
  | nil => simp at hy
  | cons hR _ ih =>
    rcases List.mem_cons.1 hy with rfl | hy
    · exact ⟨_, by simp, hR⟩
    · obtain ⟨x, hx, hR⟩ := ih hy
      exact ⟨x, by simp [hx], hR⟩

end Sys2Proof.Machine
end

