-- ==== Sys2Proof/WellFormed.lean ====
section
/-! DEFINITION. The operand ranges that a command's own rule gives and that do not depend on the core: the
legal note numbers (R60), a finite velocity (R71, R72), a finite sample in [-1.0, 1.0] (R82). Decoding makes
none of these checks (R61): a command outside them decodes and faults when it executes, so nothing
about decoding or execution assumes them. -/

namespace Sys2Proof

/-- A note number is 0..127 (R60). -/
def noteInRange (note : BitVec 8) : Bool := decide (note.toNat ≤ 127)

/-- A wavetable sample is finite and in [-1.0, 1.0] (R82). -/
def sampleInRange (x : F32) : Bool :=
  F32.isFinite x && F32.le F32.negOne x && F32.le x F32.one

/-- A command whose operands are in the ranges above. -/
def Instr.wellFormed : Instr → Bool
  | .nop => true
  | .tick => true
  | .noteOn note velocity => noteInRange note && F32.isFinite velocity
  | .noteOff note velocity => noteInRange note && F32.isFinite velocity
  | .wr _ _ => true
  | .rd _ => true
  | .wtWr _ _ sample => sampleInRange sample
  | .wtSeal => true

end Sys2Proof
end

