-- ==== Sys2Proof/Tests/Slice0.lean ====
section
/-! SUPPORT. The package's own tests: the checks of WellFormed, the worked encodings of R67, one-step tests of each
command with the values the spec gives, and for every statement with hypotheses a state and operands that
meet them. -/

namespace Sys2Proof.Tests

open Sys2Proof.Machine Sys2Proof.Claims

/-! ### WellFormed refuses an ill-formed command for each of its checks -/

theorem test_note_on_number_out_of_range : Instr.wellFormed (.noteOn 128#8 F32.one) = false := by decide
theorem test_note_on_velocity_infinite : Instr.wellFormed (.noteOn 127#8 0x7F800000#32) = false := by decide
theorem test_note_off_number_out_of_range : Instr.wellFormed (.noteOff 255#8 F32.one) = false := by decide
theorem test_note_off_velocity_nan : Instr.wellFormed (.noteOff 0#8 0x7FC00000#32) = false := by decide
theorem test_sample_above_one : Instr.wellFormed (.wtWr 0#8 0#16 0x3F800001#32) = false := by decide
theorem test_sample_below_minus_one : Instr.wellFormed (.wtWr 0#8 0#16 0xBF800001#32) = false := by decide
theorem test_sample_nan : Instr.wellFormed (.wtWr 0#8 0#16 0x7FC00000#32) = false := by decide
theorem test_well_formed_at_the_bounds :
    Instr.wellFormed (.noteOn 127#8 0xFF7FFFFF#32) = true ∧
    Instr.wellFormed (.wtWr 255#8 0xFFFF#16 0xBF800000#32) = true := by decide

/-! ### The words of R67, bit by bit: `{OPC, ADDR, ARG, DATA}` -/

theorem test_decode_nop : decode 0x0000000000000000#64 = some .nop := by decide
theorem test_decode_tick : decode 0x0100000000000000#64 = some .tick := by decide
theorem test_decode_note_on : decode 0x020000453F800000#64 = some (.noteOn 69#8 0x3F800000#32) := by decide
theorem test_decode_note_off : decode 0x0300004500000000#64 = some (.noteOff 69#8 0#32) := by decide
theorem test_decode_wr : decode 0x100107003F000000#64 = some (.wr 0x0107#16 0x3F000000#32) := by decide
theorem test_decode_rd : decode 0x1104450000000000#64 = some (.rd 0x0445#16) := by decide
theorem test_decode_wt_wr : decode 0x20000301BF800000#64 = some (.wtWr 1#8 3#16 0xBF800000#32) := by decide
theorem test_decode_wt_seal : decode 0x2100000000000000#64 = some .wtSeal := by decide

/-- The first unused field that is not zero makes a word ILLEGAL (R57, R61), and so does an opcode with no row. -/
theorem test_decode_refuses : decode 0x0000000000000001#64 = none ∧ decode 0x0100000100000000#64 = none ∧
    decode 0x0200010045000000#64 = none ∧ decode 0x1000100100000000#64 = none ∧
    decode 0x1104450000000001#64 = none ∧ decode 0x0400000000000000#64 = none ∧
    decode 0xFF00000000000000#64 = none := by decide

/-- The bits of the opcode table, least significant first (R44). -/
theorem test_table_word : decodeTableWord 64 0x20000301BF800000 = some (.wtWr 1#8 3#16 0xBF800000#32) ∧
    decodeTableWord 64 0x0400000000000000 = none := by decide

/-! ### One step of each command -/

/-- `s` after the word `w`, which is its whole input. -/
def after (s : State) (w : Word) : State :=
  match step { s with port := [.word w] } with
  | .next t => t
  | .fault _ => s
  | .refused _ => s

/-- R69, R25. -/
theorem test_nop_counts : after State.reset 0x0000000000000000#64 = { State.reset with cmdSeq := 1 } := by
  decide +kernel

/-- R153: the frame at tick 1 is (0.25, 0.25). -/
theorem test_tick_frame : (after playingCore 0x0100000000000000#64).frames = [(0x3E800000#32, 0x3E800000#32)] ∧
    (after playingCore 0x0100000000000000#64).clkTick = 2 := by decide +kernel

/-- R70: before the seal, `NOT_SEALED` (bit 5), no frame. -/
theorem test_tick_unsealed : (after State.reset 0x0100000000000000#64).err = 0x20#7 ∧
    (after State.reset 0x0100000000000000#64).frames = [] ∧
    (after State.reset 0x0100000000000000#64).errCmd = 0x0100000000000000#64 := by decide +kernel

/-- R145, R156: the first note takes voice 0, with the root frequency of A4. -/
theorem test_note_on_first_voice : (after State.reset 0x020000453F800000#64).voice[0]? =
    some { note := some 69, rootFreq := 0x43DC0000#32, detune := 0#32, blend := 0x3F800000#32,
           balance := 0x3F000000#32, velocity := 0x3F800000#32, anchors := [0, 0],
           pack := { envs := [.noteOn 0x3F800000#32 0], lfos := [{ active := true, stopped := false, last := 0 }] } } ∧
    (after State.reset 0x020000453F800000#64).lastVoice = 0 := by decide +kernel

/-- R71: note 128 raises `BAD_NOTE` (bit 6). -/
theorem test_note_on_bad_note : (after State.reset 0x020000803F800000#64).err = 0x40#7 := by decide +kernel

/-- R112, R128, R160: the voice is free, its envelope in its release from the current tick. -/
theorem test_note_off_releases : ((after playingCore 0x0300004500000000#64).voice.map (·.note)) = [none, none] ∧
    (after playingCore 0x0300004500000000#64).global =
      { envs := [.noteOff 1], lfos := [{ active := false, stopped := false, last := 0 }] } := by decide +kernel

/-- R72: a velocity that is not finite raises `BAD_VALUE` (bit 3). -/
theorem test_note_off_bad_velocity : (after playingCore 0x030000457F800000#64).err = 0x08#7 := by decide +kernel

/-- R67: `WR CLK_RATE, 1760`. -/
theorem test_wr_rate : (after State.reset 0x10001000000006E0#64).clkRate = 1760 := by decide +kernel

/-- R75: a `unit` register stores -0.0 as +0.0 and 2.0 as 1.0. -/
theorem test_wr_clamps :
    ((after State.reset 0x1001070080000000#64).env.map (·.sustain)) = [0x00000000#32] ∧
    ((after State.reset 0x1001070040000000#64).env.map (·.sustain)) = [0x3F800000#32] := by decide +kernel

/-- R31: `HAS_NOTE(69)` reads 1. -/
theorem test_rd_has_note : (after playingCore 0x1104450000000000#64).reads = [1] := by decide +kernel

/-- R81: an unmapped address gives 0 and `BAD_ADDR` (bit 1). -/
theorem test_rd_unmapped : (after playingCore 0x1100070000000000#64).reads = [0] ∧
    (after playingCore 0x1100070000000000#64).err = 0x02#7 := by decide +kernel

/-- R67: `WT_WR 1, 3, -1.0`. -/
theorem test_wt_wr : (after State.reset 0x20000301BF800000#64).wtRead 1 3 = 0xBF800000#32 ∧
    (after State.reset 0x20000301BF800000#64).wtRead 1 2 = 0x00000000#32 := by decide +kernel

/-- R173: after the seal `WT_LOCKED` (bit 4) comes before `BAD_ADDR`. -/
theorem test_wt_wr_locked : (after playingCore 0x200000C800000000#64).err = 0x10#7 := by decide +kernel

/-- R83, R19. -/
theorem test_wt_seal : (after State.reset 0x2100000000000000#64).statusWord = 2 := by decide +kernel

/-- The waveforms Pulse, Triangle, Saw and ReverseSaw at a phase, width 0.5. -/
def waves (ph : F32) : List F32 :=
  [Waveform.pulse, .triangle, .saw, .reverseSaw].map fun f => LfoProps.wave { waveform := f } ph

/-- R131, row by row, without Sine, which is a parameter. -/
theorem test_waveform_table :
    [0x00000000#32, 0x3E000000#32, 0x3E800000#32, 0x3EC00000#32, 0x3F000000#32, 0x3F400000#32].map waves =
      [[0x3F800000#32, 0x00000000#32, 0xBF800000#32, 0x3F800000#32],
       [0x3F800000#32, 0x3F000000#32, 0xBF400000#32, 0x3F400000#32],
       [0x3F800000#32, 0x3F800000#32, 0xBF000000#32, 0x3F000000#32],
       [0x3F800000#32, 0x3F000000#32, 0xBE800000#32, 0x3E800000#32],
       [0xBF800000#32, 0x00000000#32, 0x00000000#32, 0x00000000#32],
       [0xBF800000#32, 0xBF800000#32, 0x3F000000#32, 0xBF000000#32]] := by decide +kernel

/-- The last row of R131, phase 1 - 2^-24. Its Triangle is R126 worked out by hand: both sums are ties and round to
1.25 and 1.75. The value that R131 prints for it is that of the phase 1 - 2^-23 (log entry 12). -/
theorem test_waveform_table_last :
    waves 0x3F7FFFFF#32 = [0xBF800000#32, 0x00000000#32, 0x3F7FFFFE#32, 0xBF7FFFFE#32] ∧
    triangle 0x3F7FFFFE#32 = 0xB5000000#32 := by decide +kernel

/-- R116 with a release of 2^32 - 1 at the position 2^31, by hand: 1 - 2^31 / 2^32 is 0.5. Whether 2^31 samples have
passed or a seek went back from tick 2^31 to tick 0, the position is the same (log entry 21). -/
theorem test_release_after_seek :
    envTick 0x80000000#32 { enabled := true, release := 0xFFFFFFFF#32 } (.noteOff 0) = some 0x3F000000#32 ∧
    envTick 0 { enabled := true, release := 0xFFFFFFFF#32 } (.noteOff 0x80000000#32) = some 0x3F000000#32 := by
  decide +kernel

/-- R139 with the largest note frequency of R5 an octave up: 2 * 0x7F7FFFFF rounds to +infinity (log entry 16). -/
theorem test_frequency_overflow :
    { Params.vectors with noteFreq := List.replicate 128 0x7F7FFFFF#32 }.valid ∧
    fm Params.vectors 0x7F7FFFFF#32 F32.one = 0x7F800000#32 := by decide +kernel

/-! ### States that meet the statements' hypotheses -/

/-- A word on the port of the playing core. -/
def sent (w : Word) : State := { playingCore with port := [.word w] }

/-- The playing core after an ILLEGAL word, with the interrupt enabled. -/
def haltedCore : State :=
  { playingCore with halted := true, err := 0x01#7, errSeq := 7, errCmd := 0xFF00000000000000#64, irqEn := true, cmdSeq := 8 }

/-- The playing core in Unison mode: voice 0 holds note 69, voice 1 is free. -/
def unisonCore : State := { playingCore with polyMode := .unison }

/-- The playing core before its seal. -/
def openCore : State := { playingCore with sealed := false }

theorem test_valid_parameters : Params.vectors.valid := by decide +kernel

/-- The largest core of R5. -/
theorem test_valid_parameters_largest :
    { Params.vectors with
      voices := 64
      oscs := 16
      lfos := 16
      envs := 16
      depth := 256
      length := 65536 }.valid := by decide +kernel

/-- The smallest core of R5. -/
theorem test_valid_parameters_smallest :
    { Params.vectors with
      voices := 1
      oscs := 1
      lfos := 0
      envs := 0
      depth := 1
      length := 1
      epsDetune := 0 }.valid := by decide +kernel

theorem test_playing_core_sized : playingCore.Sized :=
  ⟨by decide +kernel, by decide, by decide, by decide, by decide, by decide +kernel, by decide⟩

theorem test_playing_core_config : playingCore.ConfigLegal where
  rate := by decide
  env := by
    intro e he
    obtain rfl : e = {} := by simpa [playingCore, State.resetWith, Params.vectors] using he
    exact ⟨by decide, trivial, by decide, by decide⟩
  lfo := by
    intro l hl
    obtain rfl : l = {} := by simpa [playingCore, State.resetWith, Params.vectors] using hl
    exact ⟨by decide, by decide, by decide, trivial⟩
  op := by
    intro o ho
    have : o = { enabled := true } ∨ o = {} := by
      simpa [playingCore, State.resetWith, Params.vectors, List.range, List.range.loop] using ho
    rcases this with rfl | rfl <;> exact ⟨by decide, by decide, by decide⟩
  count := by decide
  detune := by decide
  blend := by decide
  spread := by decide

theorem test_playing_core_fault_record : playingCore.FaultRecord :=
  ⟨by decide, fun _ => by decide, .inl (by decide)⟩

theorem test_playing_core_table : playingCore.TableLegal := ⟨by decide, by decide +kernel⟩

theorem test_playing_core_notes : playingCore.NotesLegal where
  notes := by
    intro v hv n hn
    have : v.note = some 69 ∨ v.note = none := by
      revert hv hn; simp only [playingCore, List.mem_cons, List.not_mem_nil, or_false]
      rintro (rfl | rfl) <;> simp [voiceOn, VoiceRec.reset]
    rcases this with h | h <;> rw [h] at hn <;> simp at hn
    omega
  last := by decide
  poly _ := by simp [playingCore, voiceOn, VoiceRec.reset]

theorem test_playing_core_voices : playingCore.VoicesLegal where
  voices := by
    intro v hv
    simp only [playingCore, List.mem_cons, List.not_mem_nil, or_false] at hv
    rcases hv with rfl | rfl
    · exact ⟨by decide +kernel, by decide, by decide, by decide, by decide, by
        intro x hx
        obtain rfl : x = .noteOn 0x3F000000#32 0 := by simpa [voiceOn, packOn, Params.vectors] using hx
        show unitBits _
        decide⟩
    · exact ⟨by decide, by decide, by decide, by decide, by decide, by
        intro x hx
        obtain rfl : x = .idle := by simpa [VoiceRec.reset, Pack.reset, Params.vectors] using hx
        trivial⟩
  global := by
    intro x hx
    obtain rfl : x = .noteOn 0x3F000000#32 0 := by simpa [playingCore, packOn, Params.vectors] using hx
    show unitBits _
    decide

theorem test_playing_core_inv : playingCore.Inv :=
  ⟨test_playing_core_sized, test_playing_core_config, test_playing_core_fault_record, test_playing_core_table,
    test_playing_core_notes, test_playing_core_voices⟩

theorem test_sent_inv (w : Word) : (sent w).Inv where
  sized := ⟨test_playing_core_sized.1, test_playing_core_sized.2, test_playing_core_sized.3, test_playing_core_sized.4,
    test_playing_core_sized.5, test_playing_core_sized.6, test_playing_core_sized.7⟩
  config := ⟨test_playing_core_config.1, test_playing_core_config.2, test_playing_core_config.3,
    test_playing_core_config.4, test_playing_core_config.5, test_playing_core_config.6, test_playing_core_config.7,
    test_playing_core_config.8⟩
  fault := ⟨test_playing_core_fault_record.1, test_playing_core_fault_record.2, test_playing_core_fault_record.3⟩
  table := ⟨test_playing_core_table.1, test_playing_core_table.2⟩
  notes := ⟨test_playing_core_notes.1, test_playing_core_notes.2, test_playing_core_notes.3⟩
  voices := ⟨test_playing_core_voices.1, test_playing_core_voices.2⟩

theorem test_halted_core_fault_record : haltedCore.FaultRecord :=
  ⟨by decide, fun h => by simp [haltedCore] at h, .inr ⟨.illegalCmd, by decide, .inl (by decide)⟩⟩

theorem test_unison_core_sized : unisonCore.Sized :=
  ⟨test_playing_core_sized.1, test_playing_core_sized.2, test_playing_core_sized.3, test_playing_core_sized.4,
    test_playing_core_sized.5, test_playing_core_sized.6, test_playing_core_sized.7⟩

/-! #### Encoding, the execution cycle and reset -/

/-- EncodeAfterDecodeIsIdentity -/
theorem test_witness_encode_after_decode : decode 0x11FFFF0000000000#64 = some (.rd 0xFFFF#16) := by decide

/-- StepRunsDecodedCommand, EveryWordAdvancesCmdSeqByOne -/
theorem test_witness_word_on_the_port : (sent 0x0300004500000000#64).port = .word 0x0300004500000000#64 :: [] ∧
    decode 0x0300004500000000#64 = some (.noteOff 69#8 0#32) := by decide

/-- ResetInputRestoresResetState, from a halted core with a word behind the reset -/
theorem test_witness_reset_input :
    { haltedCore with port := [.reset, .word 0#64] }.port = .reset :: [.word 0#64] := rfl

/-- StepKeepsParametersAndIdles -/
theorem test_witness_step_and_idle : (∃ t, step (sent 0x0300004500000000#64) = .next t) ∧ playingCore.port = [] :=
  ⟨step_total _, rfl⟩

/-- ResetRegistersReadTheirResetValues: a register of the last voice of the largest core, and the first address -/
theorem test_witness_reset_registers :
    { Params.vectors with voices := 64 }.valid ∧
    regAt { Params.vectors with voices := 64 } 0x4F00#16 = some (.voice 63 .note) ∧
    regAt Params.vectors 0x0000#16 = some .id := by decide +kernel

/-! #### Invariants: a state that meets each and a step from it -/

/-- ResetMeetsInvariant takes `test_valid_parameters`; the statements StepKeeps… take this. -/
theorem test_witness_step_keeps : (sent 0x0100000000000000#64).Inv ∧
    ∃ t, step (sent 0x0100000000000000#64) = .next t := ⟨test_sent_inv _, step_total _⟩

/-! #### Faults -/

/-- IllegalWordFaults -/
theorem test_witness_illegal_word : (sent 0xFF00000000000000#64).running ∧
    (sent 0xFF00000000000000#64).port = .word 0xFF00000000000000#64 :: [] ∧
    decode 0xFF00000000000000#64 = none := by decide

/-- FaultsArePrecise: a word other than an RD that halts the core -/
theorem test_witness_fault_of_another_word : (sent 0x2000000000000000#64).running ∧
    ∃ t, step (sent 0x2000000000000000#64) = .next t ∧ t.halted = true ∧
      ∀ a, decode 0x2000000000000000#64 ≠ some (.rd a) := by
  refine ⟨by decide, (after playingCore 0x2000000000000000#64), rfl, by decide +kernel, ?_⟩
  have : decode 0x2000000000000000#64 = some (.wtWr 0#8 0#16 0#32) := by decide
  simp [this]

/-- FaultsArePrecise: an RD that halts the core -/
theorem test_witness_fault_of_a_read : (sent 0x11FFFF0000000000#64).running ∧
    ∃ t, step (sent 0x11FFFF0000000000#64) = .next t ∧ t.halted = true ∧
      decode 0x11FFFF0000000000#64 = some (.rd 0xFFFF#16) :=
  ⟨by decide, after playingCore 0x11FFFF0000000000#64, rfl, by decide +kernel, by decide⟩

/-- HaltedCoreExecutesOnlyReads: an RD of a register, an RD of an unmapped address, and another word -/
theorem test_witness_halted_core : haltedCore.halted = true ∧
    { haltedCore with port := [.word 0x1100090000000000#64] }.port = .word 0x1100090000000000#64 :: [] ∧
    decode 0x1100090000000000#64 = some (.rd 0x0009#16) ∧ haltedCore.peek 0x0009#16 = some 1 ∧
    decode 0x1150000000000000#64 = some (.rd 0x5000#16) ∧ regAt haltedCore.par 0x5000#16 = none ∧
    decode 0x0100000000000000#64 = some .tick := by decide +kernel

/-- CommandsNeverClearFaults, InterruptStaysRaised: a halted core with the interrupt raised, given a reset-value
write of `IRQ_EN` -/
theorem test_witness_interrupt : haltedCore.FaultRecord ∧ haltedCore.irq = true ∧ haltedCore.halted = true ∧
    ∃ t, step { haltedCore with port := [.word 0x10000E0000000000#64] } = .next t :=
  ⟨test_halted_core_fault_record, by decide, rfl, step_total _⟩

/-! #### The register space -/

/-- AddressMapIsTheTable: the ends of a mapped range and the addresses beside them -/
theorem test_witness_address_map : Params.vectors.valid ∧
    regAt Params.vectors 0x047F#16 = some (.hasNote 127) ∧ regAt Params.vectors 0x0480#16 = none ∧
    regAt Params.vectors 0x1111#16 = some (.opAnchor 1 1) ∧ regAt Params.vectors 0x1112#16 = none ∧
    regAt Params.vectors 0x0007#16 = none := by decide +kernel

/-- WriteStoresLegalValuesOrFaults, LegalWriteChangesItsRegisterAlone: the ends of the ranges -/
theorem test_witness_legal_write : playingCore.Sized ∧ playingCore.running ∧
    regAt playingCore.par 0x0312#16 = some (.op 1 .tuneSemi) ∧ (Reg.op 1 .tuneSemi).access = .rw ∧
    LegalValue playingCore.par (.op 1 .tuneSemi) (BitVec.ofInt 32 (-36)) ∧
    LegalValue playingCore.par (.op 1 .tuneCents) (BitVec.ofInt 32 50) ∧
    LegalValue playingCore.par (.env 0 .target) 3 ∧ LegalValue playingCore.par (.env 0 .release) 0xFFFFFFFF#32 ∧
    LegalValue playingCore.par (.lfo 0 .freq) 0x49800000#32 ∧ LegalValue playingCore.par (.lfo 0 .freq) 0x00000001#32 ∧
    LegalValue playingCore.par .uniCount 2 ∧ LegalValue playingCore.par .uniBlend 0xFF7FFFFF#32 ∧
    LegalValue playingCore.par .polyMode 1 ∧ Reg.op 1 .tuneSemi ≠ .polyMode ∧
    ∃ t, exec (.wr 0x0312#16 (BitVec.ofInt 32 (-36))) playingCore = .next t := by
  refine ⟨test_playing_core_sized, rfl, by decide, by decide, ?_, ?_, ?_, ?_, ?_, ?_, ?_, ?_, ?_, by decide,
    (exec_total _ _).imp fun _ h => h.1⟩ <;> unfold LegalValue <;> decide

/-- WriteStoresLegalValuesOrFaults: each of the three checks fails, the value just outside its range -/
theorem test_witness_write_checks : playingCore.Sized ∧ playingCore.running ∧
    regAt playingCore.par 0xFFFF#16 = none ∧
    regAt playingCore.par 0x0008#16 = some .status ∧ Reg.status.access = .ro ∧
    regAt playingCore.par 0x0108#16 = some (.env 0 .release) ∧ (Reg.env 0 .release).access = .rw ∧
    ¬ LegalValue playingCore.par (.env 0 .release) 0 ∧ ¬ LegalValue playingCore.par (.env 0 .target) 4 ∧
    ¬ LegalValue playingCore.par (.op 1 .tuneSemi) 37 ∧ ¬ LegalValue playingCore.par .uniCount 3 ∧
    ¬ LegalValue playingCore.par (.lfo 0 .freq) 0x49800001#32 ∧ ¬ LegalValue playingCore.par .notePriority 3 := by
  refine ⟨test_playing_core_sized, rfl, by decide, by decide, by decide, by decide, by decide, ?_, ?_, ?_, ?_, ?_, ?_⟩ <;>
    unfold LegalValue <;> decide

/-- PolyModeWriteReleasesEveryVoice, SealSetsTheSealAlone, with a voice to release -/
theorem test_witness_running : playingCore.running ∧ Held playingCore 69 ∧ openCore.running ∧ openCore.sealed = false ∧
    playingCore.sealed = true := by
  refine ⟨rfl, ?_, rfl, rfl, rfl⟩
  exact ⟨_, List.mem_cons_self, rfl⟩

/-- ReadEmitsTheRegister, UnmappedReadEmitsZeroAndFaults -/
theorem test_witness_reads : playingCore.Sized ∧ regAt playingCore.par 0x1001#16 = some (.voice 0 .rootFreq) ∧
    playingCore.running ∧ regAt playingCore.par 0x1200#16 = none :=
  ⟨test_playing_core_sized, by decide, rfl, by decide⟩

/-- ReadEmitsTheRegister: on a halted core the first and the last control register and the last register of each block,
with the values that R17, R19 to R21, R32 and R34 give the captured fault, the note and the last pack registers. -/
theorem test_witness_read_blocks :
    [0x0000#16, 0x0026#16, 0x0108#16, 0x0205#16, 0x0314#16, 0x047F#16, 0x1105#16, 0x1111#16, 0x0822#16, 0x1162#16].map
      (regAt haltedCore.par) =
      [some .id, some .notePriority, some (.env 0 .release), some (.lfo 0 .target), some (.op 1 .wtPos),
        some (.hasNote 127), some (.voice 1 .velocity), some (.opAnchor 1 1), some (.packEnv .global 0 .at_),
        some (.packLfo (.voice 1) 0 .last)] ∧
    [0x0008#16, 0x0009#16, 0x000A#16, 0x000B#16, 0x000C#16, 0x000D#16, 0x1000#16, 0x1020#16, 0x1021#16, 0x1022#16].map
      haltedCore.peek =
      [some 3, some 1, some 7, some 0xFF000000#32, some 0, some 8, some 69, some 1, some 0x3F000000#32, some 0] := by
  decide +kernel

/-- HasNoteReflectsTheNoteMap: a held note, and one that is not -/
theorem test_witness_has_note : Held playingCore 69 ∧ ¬ Held playingCore 127 ∧ 127 < 128 := by
  refine ⟨⟨_, List.mem_cons_self, rfl⟩, ?_, by decide⟩
  simp [Held, playingCore, voiceOn, VoiceRec.reset]

/-- NopHasNoEffect: a word with the opcode of NOP that is not NOP -/
theorem test_witness_nop_opcode : opcField 0x0000010000000000#64 = 0x00#8 ∧ (0x0000010000000000#64 : Word) ≠ 0 := by
  decide

/-- OtherCommandsAreIdempotent: a WR of another register, done twice -/
theorem test_witness_idempotent : playingCore.wt.wf = true ∧ Instr.wr 0x0022#16 2 ≠ .tick ∧
    (∀ n v, Instr.wr 0x0022#16 2 ≠ .noteOn n v) ∧ (∀ n v, Instr.wr 0x0022#16 2 ≠ .noteOff n v) ∧
    (∀ v, Instr.wr 0x0022#16 2 ≠ .wr 0x0020#16 v) ∧
    ∃ t u, exec (.wr 0x0022#16 2) playingCore = .next t ∧ exec (.wr 0x0022#16 2) t = .next u := by
  refine ⟨by decide, by simp, by simp, by simp, by simp, ?_⟩
  obtain ⟨t, ht, -⟩ := exec_total (.wr 0x0022#16 2) playingCore
  obtain ⟨u, hu, -⟩ := exec_total (.wr 0x0022#16 2) t
  exact ⟨t, u, ht, hu⟩

/-! #### The wavetable -/

/-- WavetableWriteStoresItsCell, at the last cell and the largest sample -/
theorem test_witness_wavetable_write : openCore.running ∧ openCore.sealed = false ∧ openCore.wt.wf = true ∧
    (1#8).toNat < openCore.par.depth ∧ (3#16).toNat < openCore.par.length ∧ F32.isFinite 0x3F800000#32 = true ∧
    F32.le F32.negOne 0x3F800000#32 = true ∧ F32.le 0x3F800000#32 F32.one = true := by decide

/-- WavetableWriteChecksInOrder: a sealed table; an index one too large; a sample just above 1 -/
theorem test_witness_wavetable_checks : playingCore.running ∧ playingCore.sealed = true ∧ openCore.sealed = false ∧
    openCore.par.depth ≤ (2#8).toNat ∧ openCore.par.length ≤ (4#16).toNat ∧
    ¬ (F32.isFinite 0x3F800001#32 = true ∧ F32.le F32.negOne 0x3F800001#32 = true ∧
      F32.le 0x3F800001#32 F32.one = true) := by decide

/-- SealedWavetableNeverChanges, given a WT_WR -/
theorem test_witness_sealed : (sent 0x20000301BF800000#64).sealed = true ∧
    ∃ t, step (sent 0x20000301BF800000#64) = .next t := ⟨rfl, step_total _⟩

/-! #### NOTE_ON and NOTE_OFF -/

/-- PolyNoteOnTakesScannedVoice -/
theorem test_witness_poly_note_on : playingCore.Sized ∧ playingCore.running ∧ playingCore.polyMode = .poly ∧
    (127#8).toNat ≤ 127 ∧ F32.isFinite 0x3F800000#32 = true ∧ ¬ Held playingCore 127 :=
  ⟨test_playing_core_sized, rfl, rfl, by decide, by decide, test_witness_has_note.2.1⟩

/-- UnisonNoteOnTakesItsGroupOrNothing: exactly as many free voices as it needs -/
theorem test_witness_unison_note_on : unisonCore.Sized ∧ unisonCore.running ∧ unisonCore.polyMode = .unison ∧
    ¬ Held unisonCore 127 ∧ unisonCore.uniCount = 1 ∧ freeList unisonCore = [1] :=
  ⟨test_unison_core_sized, rfl, rfl, test_witness_has_note.2.1, rfl, by decide⟩

/-- UnisonNoteOnTakesItsGroupOrNothing: one free voice too few -/
theorem test_witness_unison_dropped : { unisonCore with uniCount := 2 }.Sized ∧
    ¬ Held { unisonCore with uniCount := 2 } 127 ∧ { unisonCore with uniCount := 2 }.running ∧
    { unisonCore with uniCount := 2 }.polyMode = .unison ∧
    (freeList { unisonCore with uniCount := 2 }).length < 2 :=
  ⟨⟨test_playing_core_sized.1, test_playing_core_sized.2, test_playing_core_sized.3, test_playing_core_sized.4,
    test_playing_core_sized.5, test_playing_core_sized.6, test_playing_core_sized.7⟩,
    test_witness_has_note.2.1, by decide⟩

/-- HeldNoteIsNotRetriggered, NoteOffReleasesItsNote -/
theorem test_witness_held_note : playingCore.running ∧ (69#8).toNat ≤ 127 ∧ F32.isFinite 0xFF7FFFFF#32 = true ∧
    Held playingCore (69#8).toNat := ⟨rfl, by decide, by decide, test_witness_has_note.1⟩

/-- NoteChecksInOrder: the first note number out of range; the last one in it, with a velocity that is a NaN -/
theorem test_witness_note_checks : playingCore.running ∧ 127 < (128#8).toNat ∧ (127#8).toNat ≤ 127 ∧
    F32.isFinite 0x7FC00000#32 = false := by decide

/-- EvenSpreadIsSymmetric: the smallest and the largest even count, an innermost voice -/
theorem test_witness_even_spread : Params.vectors.valid ∧ 2 % 2 = 0 ∧ 64 % 2 = 0 ∧ 0 < 2 ∧ 63 < 64 ∧ 0 = 2 / 2 - 1 ∧
    31 = 64 / 2 - 1 := ⟨test_valid_parameters, by decide⟩

/-! #### TICK -/

/-- TickEmitsOneFrame, and FrameSumsTheVoices but for its last clause -/
theorem test_witness_tick : playingCore.Sized ∧ playingCore.playable ∧ ∃ t, exec .tick playingCore = .next t :=
  ⟨test_playing_core_sized, ⟨rfl, rfl⟩, _, rfl⟩

/-- FrameSumsTheVoices, the last clause: operator 0 of voice 0, which has no chained FM, and operator 1 behind an
operator routed to FM, which has. -/
theorem test_witness_enabled_operator : playingCore.op[0]? = some { enabled := true } ∧ NoChainedFm playingCore 0 ∧
    ¬ NoChainedFm { playingCore with op := [{ enabled := true, output := .fmNext }, { enabled := true }] } 1 ∧
    (∃ v : VoiceRec, playingCore.voice[0]? = some v ∧ v.anchors[0]? = some 0 ∧ v.anchors[1]? = some 0) ∧
    (∃ t w, exec .tick playingCore = .next t ∧ t.voice[0]? = some w) :=
  ⟨by decide, fun _ _ h => by simp at h, fun h => by simpa using h 0 _ rfl rfl, ⟨_, rfl, rfl, rfl⟩, _, _, rfl, rfl⟩

/-- EnvelopeAmountHasNoEffect: two amounts that differ -/
theorem test_witness_amount : List.Forall₂ (fun e e' : EnvProps => e' = { e with amount := e'.amount })
    playingCore.env [{ amount := F32.half }] := by
  simp [playingCore, State.resetWith, Params.vectors]

/-- DisabledOperatorKeepsItsAnchors: operator 1 of voice 0, whose anchor is not the current tick -/
theorem test_witness_disabled_operator : playingCore.op[1]? = some { enabled := false } ∧
    (∃ v : VoiceRec, playingCore.voice[0]? = some v ∧ v.anchors[1]? = some 0) ∧
    (∃ t w, exec .tick playingCore = .next t ∧ t.voice[0]? = some w) :=
  ⟨by decide, ⟨_, rfl, rfl⟩, _, _, rfl, rfl⟩

/-- ResolveAsksFirstLfoThenFirstEnvelope: the first LFO slot targets the pitch and the first envelope slot the level;
with both on one target, each clause has its case, the LFO disabled or not. -/
theorem test_witness_resolve : playingCore.lfo[0]? = some ({} : LfoProps) ∧ ({} : LfoProps).target = .globalPitch ∧
    playingCore.global.lfos[0]? = some { active := true, stopped := false, last := 0 } ∧
    (lfoTick playingCore.clock {} { active := true, stopped := false, last := 0 }).2 = none ∧
    (lfoTick playingCore.clock { enabled := true, waveform := .saw } { active := true, stopped := false, last := 1 }).2 =
      some F32.negOne ∧
    { playingCore with env := [{ target := .globalPitch }] }.env[0]? = some { target := .globalPitch } ∧
    (∀ q ∈ playingCore.env, q.target ≠ .globalPitch) := by
  refine ⟨by decide, rfl, by decide, by decide, by decide +kernel, by decide, ?_⟩
  simp [playingCore, State.resetWith, Params.vectors]

/-! #### Envelopes, LFOs, phases and arithmetic -/

/-- EnvelopeValuesAreUnitIntervals, ReleaseEndsAtZeroThenNone -/
theorem test_witness_envelope : EnvProps.Legal Params.vectors { enabled := true } ∧
    (EnvState.noteOn F32.half 0).legal ∧ ({} : EnvProps).release.toNat < (2#32).toNat :=
  ⟨⟨by decide, trivial, by decide, by decide⟩, by show unitBits _; decide, by decide⟩

/-- EnvelopePlateaus: the last position of the delay, the first of the hold, the first of the sustain -/
theorem test_witness_plateaus : (3#32).toNat ≤ (3#32).toNat ∧
    (3#32).toNat + (2#32).toNat < (6#32).toNat ∧ (6#32).toNat ≤ (3#32).toNat + (2#32).toNat + (4#32).toNat ∧
    (3#32).toNat + (2#32).toNat + (4#32).toNat + (1#32).toNat < (11#32).toNat := by decide

/-- LfoStopsClickFree: the LFO of R132 at tick 5, whose phase is exactly one step past a cycle start, and at tick 6. -/
theorem test_witness_lfo_stop :
    (Clock.phaseExact ⟨.invFreq, 1760, 5⟩ F32.a440 4).2 = Clock.step ⟨.invFreq, 1760, 5⟩ F32.a440 ∧
    F32.le (Clock.phaseExact ⟨.invFreq, 1760, 5⟩ F32.a440 4).2 (Clock.step ⟨.invFreq, 1760, 5⟩ F32.a440) = true ∧
    F32.le (Clock.phaseExact ⟨.invFreq, 1760, 6⟩ F32.a440 4).2 (Clock.step ⟨.invFreq, 1760, 6⟩ F32.a440) = false := by
  decide +kernel

/-- FractionLiesBelowOne: -0.0, and the first value without a fraction -/
theorem test_witness_fraction : F32.isFinite 0x80000000#32 = true ∧ F32.le F32.zero 0x80000000#32 = true ∧
    F32.isFinite 0x4B000000#32 = true ∧ F32.le 0x4B000000#32 0x4B000000#32 = true := by decide

/-- PhaseAtTheAnchorIsZero, SlowLfoResynchronisesAlways: the smallest frequency and 1 Hz -/
theorem test_witness_phase : (Clock.mk .invFreq 48000 5).resync = .invFreq ∧ (Clock.mk .invFreq 48000 5).rate ≠ 0 ∧
    F32.isFinite 0x00000001#32 = true ∧ F32.lt F32.zero 0x00000001#32 = true ∧ F32.le 0x00000001#32 F32.one = true ∧
    F32.le F32.one F32.one = true := by decide

/-- ArithmeticRoundsToNearest: operands whose sum, product and quotient are finite -/
theorem test_witness_arithmetic : F32.isFinite F32.twelve = true ∧ F32.isFinite F32.negOne = true ∧
    F32.isFinite (F32.add F32.twelve F32.negOne) = true ∧ F32.isFinite (F32.mul F32.twelve F32.negOne) = true ∧
    F32.isZero F32.negOne = false ∧ F32.isFinite (F32.div F32.twelve F32.negOne) = true := by decide +kernel

/-- InterpolationAtACellIsTheCell -/
theorem test_witness_samples : legalSample F32.negOne = true ∧ legalSample F32.one = true := by decide

/-- LookupIsFiniteAndBounded: the last phase below 1 and the last row -/
theorem test_witness_lookup : playingCore.par.valid ∧ playingCore.TableLegal ∧ F32.isFinite 0x3F7FFFFF#32 = true ∧
    F32.le F32.zero 0x3F7FFFFF#32 = true ∧ F32.lt 0x3F7FFFFF#32 F32.one = true ∧ unitBits F32.one :=
  ⟨test_playing_core_sized.1, test_playing_core_table, by decide, by decide, by decide, by decide⟩

end Sys2Proof.Tests
end

/-! PROOFS. The scope statements (spec/00_scope.md): the voices' intervals (R8), the parameters (R5) and the rounding
of binary32 arithmetic (R9). -/

/-! ### The voices' intervals -/

namespace Sys2Proof.Machine

/-! #### Packs -/

/-- A pack's `note_on` leaves its envelopes with the velocity of the note (R111). -/
theorem Pack.noteOn_envs_legal {vel : F32} (hv : unitBits vel) (tick : U32) (k : Pack) :
    ∀ x ∈ (k.noteOn vel tick).envs, x.legal := by
  intro x hx
  rw [Pack.noteOn_eq] at hx
  rw [List.eq_of_mem_replicate hx]
  exact hv

/-- After a pack's `note_off` no envelope carries a velocity (R112). -/
theorem Pack.noteOff_envs_legal (tick : U32) (k : Pack) : ∀ x ∈ (k.noteOff tick).envs, x.legal := by
  intro x hx
  obtain ⟨y, -, rfl⟩ := List.mem_map.1 hx
  cases y <;> trivial

/-- After reset every envelope of a pack is idle (R182). -/
theorem Pack.reset_envs_legal (p : Params) : ∀ x ∈ (Pack.reset p).envs, x.legal := by
  intro x hx
  rw [List.eq_of_mem_replicate hx]
  trivial

/-! #### Voices -/

/-- Every note number has a finite positive frequency (R5). -/
theorem noteFreq_legal {p : Params} (hp : p.valid) {n : Nat} (hn : n ≤ 127) :
    F32.isFinite (noteFreq p n) ∧ F32.lt F32.zero (noteFreq p n) := by
  obtain ⟨-, -, -, -, -, -, -, -, hlen, hall⟩ := hp
  have hlt : n < p.noteFreq.length := by omega
  have hmem : noteFreq p n ∈ p.noteFreq := by
    rw [noteFreq, List.getD_eq_getElem _ _ hlt]
    exact List.getElem_mem hlt
  simpa using List.all_eq_true.1 hall _ hmem

/-- A voice's `note_on` of a note number leaves it legal, whatever it was doing, if its factors are in their intervals
(R145). -/
theorem VoiceRec.noteOn_legal {p : Params} (hp : p.valid) {note : Nat} (hn : note ≤ 127) {vel det blend bal : F32}
    (hv : unitBits vel) (hd : signedUnitBits det) (hb : unitBits blend) (hl : unitBits bal) (tick : U32)
    (v : VoiceRec) : (v.noteOn p tick note vel det blend bal).Legal where
  freq := noteFreq_legal hp hn
  detune := hd
  blend := hb
  balance := hl
  velocity := hv
  envs := v.pack.noteOn_envs_legal hv tick

theorem VoiceRec.Legal.release {v : VoiceRec} (h : v.Legal) (tick : U32) : (v.release tick).Legal where
  freq := h.freq
  detune := h.detune
  blend := h.blend
  balance := h.balance
  velocity := h.velocity
  envs := v.pack.noteOff_envs_legal tick

/-- A TICK changes no field of a voice that has an interval. -/
theorem VoiceRec.Ticked.legal {tick : U32} {v w : VoiceRec} (h : VoiceRec.Ticked tick v w) (hv : v.Legal) :
    w.Legal := by
  rw [h.fields]
  exact ⟨hv.freq, hv.detune, hv.blend, hv.balance, hv.velocity, h.pack.envs ▸ hv.envs⟩

theorem VoiceRec.reset_legal (p : Params) : (VoiceRec.reset p).Legal where
  freq := (by decide : F32.isFinite F32.a440 = true ∧ F32.lt F32.zero F32.a440 = true)
  detune := (by decide : signedUnitBits F32.zero)
  blend := (by decide : unitBits F32.one)
  balance := (by decide : unitBits F32.half)
  velocity := (by decide : unitBits F32.zero)
  envs := Pack.reset_envs_legal p

/-! #### The factors of a unison group (R158, R159) -/

theorem spreadDetune_signedUnit (count k : Nat) (detune : F32) : signedUnitBits (spreadDetune count k detune) :=
  F32.clampS_unit _

theorem spreadBlend_unit (p : Params) (count k : Nat) {blend : F32} (h : unitBits blend) :
    unitBits (spreadBlend p count k blend) := by
  unfold spreadBlend
  split
  · exact F32.sqrt_unit (F32.one_sub_unit h)
  · exact F32.sqrt_unit h

theorem spreadBalance_unit (count k : Nat) (amount : F32) : unitBits (spreadBalance count k amount) :=
  F32.remapU_unit (F32.clampS_unit _)

/-! #### Operations on the state -/

/-- The voices' intervals speak of the voices and the global pack alone. -/
theorem State.VoicesLegal.congr {s t : State} (h : s.VoicesLegal) (hv : t.voice = s.voice)
    (hg : t.global = s.global) : t.VoicesLegal :=
  ⟨hv ▸ h.voices, hg ▸ h.global⟩

theorem State.resetWith_voicesLegal (p : Params) : (State.resetWith p).VoicesLegal where
  voices v hv := by
    rw [List.eq_of_mem_replicate hv]
    exact VoiceRec.reset_legal p
  global := Pack.reset_envs_legal p

/-- A `note_on` of one voice. -/
theorem State.VoicesLegal.voiceNoteOn {s : State} (h : s.VoicesLegal) (hp : s.par.valid) {note : Nat}
    (hn : note ≤ 127) {vel det blend bal : F32} (hv : unitBits vel) (hd : signedUnitBits det) (hb : unitBits blend)
    (hl : unitBits bal) (i : Nat) : (s.voiceNoteOn i note vel det blend bal).VoicesLegal where
  voices v hm := by
    rw [State.voiceNoteOn_voice] at hm
    obtain ⟨j, hj, rfl⟩ := List.mem_iff_getElem.1 hm
    rw [List.getElem_modify]
    split
    · exact VoiceRec.noteOn_legal hp hn hv hd hb hl _ _
    · exact h.voices _ (List.getElem_mem _)
  global := h.global

/-- The global pack's `note_on`. -/
theorem State.VoicesLegal.globalNoteOn {s : State} (h : s.VoicesLegal) {vel : F32} (hv : unitBits vel) :
    (s.globalNoteOn vel).VoicesLegal :=
  ⟨h.voices, s.global.noteOn_envs_legal hv s.clkTick⟩

/-- A unison group keeps the intervals, since the blend it spreads is a UnitInterval. -/
theorem State.VoicesLegal.unisonGroup {note : Nat} (hn : note ≤ 127) {vel : F32} (hv : unitBits vel)
    (is : List Nat) (k : Nat) {s : State} (h : s.VoicesLegal) (hp : s.par.valid) (hb : unitBits s.uniBlend) :
    (State.unisonGroup note vel is k s).VoicesLegal := by
  induction is generalizing k s with
  | nil => exact h
  | cons i is ih =>
    have hi : (s.unisonVoiceOn note vel i k).VoicesLegal :=
      h.voiceNoteOn hp hn hv (spreadDetune_signedUnit _ _ _) (spreadBlend_unit _ _ _ hb) (spreadBalance_unit _ _ _) i
    exact ih (k + 1) hi hp hb

/-- `allocate` keeps the intervals, in either mode (R155 to R159). -/
theorem State.VoicesLegal.allocate {s : State} (h : s.VoicesLegal) (hp : s.par.valid) (hb : unitBits s.uniBlend)
    {note : Nat} (hn : note ≤ 127) {vel : F32} (hv : unitBits vel) : (s.allocate note vel).VoicesLegal := by
  unfold State.allocate
  split
  · exact h
  · split
    · have hone := h.voiceNoteOn hp hn hv (det := F32.zero) (blend := F32.one) (bal := F32.half)
        (by decide) (by decide) (by decide) s.polyIndex
      exact (hone.congr (t := s.polyOn note vel) rfl rfl).globalNoteOn hv
    · split
      · exact h
      · exact (h.unisonGroup hn hv _ 0 hp hb).globalNoteOn hv

/-- Releasing voices keeps the intervals (R160, R161). -/
theorem State.VoicesLegal.releaseWhere {s : State} (h : s.VoicesLegal) (sel : VoiceRec → Bool) :
    (s.releaseWhere sel).VoicesLegal where
  voices v hm := by
    obtain ⟨u, hu, rfl⟩ := List.mem_map.1 hm
    split
    · exact (h.voices u hu).release s.clkTick
    · exact h.voices u hu
  global := by
    rw [State.releaseWhere_global]
    split
    · exact s.global.noteOff_envs_legal s.clkTick
    · exact h.global

/-- A TICK keeps the intervals (R70). -/
theorem State.VoicesLegal.tickFrame {s : State} (h : s.VoicesLegal) : s.tickFrame.VoicesLegal where
  voices w hw := by
    obtain ⟨v, hv, hvw⟩ := exists_of_forall₂ s.frameAt_voice_ticked hw
    exact hvw.legal (h.voices v hv)
  global := by
    rw [State.tickFrame_global, s.frameAt_global_ticked.envs]
    exact h.global

/-- Of all registers only POLY_MODE touches the voices and the global pack when it is written: it releases every voice
(R80). -/
theorem State.writeReg_voices {s t : State} {r : Reg} {v : U32} (h : s.writeReg r v = some t) :
    (t.voice = s.voice ∧ t.global = s.global) ∨
    (t.voice = s.releaseAll.voice ∧ t.global = s.releaseAll.global) := by
  cases r <;> simp only [State.writeReg, Option.map_eq_some_iff, reduceCtorEq] at h
  case clkTick => cases h; exact .inl ⟨rfl, rfl⟩
  case notePriority => split at h <;> cases h; exact .inl ⟨rfl, rfl⟩
  case polyMode => obtain ⟨x, -, rfl⟩ := h; exact .inr ⟨rfl, rfl⟩
  all_goals obtain ⟨x, -, rfl⟩ := h; exact .inl ⟨rfl, rfl⟩

/-- Every command keeps the voices' intervals. -/
theorem Effect.voicesLegal {s t : State} {i : Instr} (he : Effect s i t) (hp : s.par.valid)
    (hb : unitBits s.uniBlend) (h : s.VoicesLegal) : t.VoicesLegal := by
  cases he with
  | nothing => exact h
  | fault => exact h.congr (by simp) (by simp)
  | read => exact h.congr rfl rfl
  | readUnmapped => exact h.congr (by simp) (by simp)
  | tick => exact h.tickFrame
  | noteOn n v _ hn => exact h.allocate hp hb hn (F32.clampU_unit v)
  | noteOff => exact h.releaseWhere _
  | write a v r t _ _ _ hw =>
    rcases State.writeReg_voices hw with ⟨hv, hg⟩ | ⟨hv, hg⟩
    · exact h.congr hv hg
    · exact (h.releaseWhere _).congr hv hg
  | wtWr => exact h.congr rfl rfl
  | wtSeal => exact h.congr rfl rfl

/-- An ILLEGAL word does nothing or takes a fault (R62, R170). -/
theorem State.illegalWord_cases (s : State) (w : Word) :
    s.illegalWord w = s ∨ s.illegalWord w = s.takeFault .illegalCmd w := by
  unfold State.illegalWord State.unlessHalted
  split
  · exact .inl rfl
  · exact .inr rfl

theorem State.VoicesLegal.illegalWord {s : State} (h : s.VoicesLegal) (w : Word) :
    (s.illegalWord w).VoicesLegal := by
  rcases s.illegalWord_cases w with e | e <;> rw [e]
  · exact h
  · exact h.congr (by simp) (by simp)

/-- Settles O17: NOTE_ON alone writes the fields that have an interval, from a legal note number, a clamped velocity and
the spread of a legal blend; every other command and the reset keep them or give them constants. -/
theorem stepKeepsVoiceIntervals : Obligations.StepKeepsVoiceIntervals := by
  intro s t hs hc h hst
  rcases step_cases hst with
    ⟨-, rfl⟩ | ⟨rest, -, rfl⟩ | ⟨w, rest, i, u, -, -, -, he, rfl⟩ | ⟨w, rest, -, -, rfl⟩
  · exact h
  · exact (State.resetWith_voicesLegal s.par).congr rfl rfl
  · exact (he.voicesLegal hs.params hc.blend (h.congr rfl rfl)).congr rfl rfl
  · exact ((h.congr (t := { s with port := rest }) rfl rfl).illegalWord w).congr rfl rfl

/-! ### The parameters and the idle core -/

/-- Settles O9: the parameters are kept by every effect of a command, by trap entry and by reset, and a step with an
empty port takes no input. -/
theorem stepKeepsParametersAndIdles : Obligations.StepKeepsParametersAndIdles := by
  refine ⟨fun s t hst => ?_, fun s => step_idle⟩
  exact step_keeps (P := fun u => u.par = s.par)
    (hport := fun _ _ h => h)
    (hcount := fun _ h => h)
    (hreset := fun _ h => h)
    (hill := fun u w _ h => (u.takeFault_par .illegalCmd w).trans h)
    (heff := fun _ _ _ he h => he.keeps.1.trans h)
    rfl hst

end Sys2Proof.Machine

/-! ### Rounding to nearest -/

namespace Sys2Proof.F32

/-! #### Signed magnitudes -/

/-- The integer with the sign `s` and the magnitude `n`, as `units` reads a bit pattern. -/
def signedInt (s : Bool) (n : Nat) : Int := if s then -(n : Int) else n

theorem units_eq_signedInt (a : F32) : units a = signedInt (sign a) (magUnits a) := rfl

theorem units_pack {s : Bool} {m : Nat} (h : m < 2 ^ 31) : units (pack s m) = signedInt s (unitsOfMag m) := by
  rw [units_eq_signedInt, sign_pack h, magUnits_eq, mag_pack h]

theorem signedInt_mul (s t : Bool) (n m : Nat) :
    signedInt s n * signedInt t m = signedInt (s != t) (n * m) := by
  cases s <;> cases t <;> simp [signedInt]

theorem signedInt_mul_natCast (s : Bool) (n m : Nat) : signedInt s n * m = signedInt s (n * m) := by
  cases s <;> simp [signedInt]

theorem signedInt_not (s : Bool) (n : Nat) : signedInt (!s) n = -signedInt s n := by
  cases s <;> simp [signedInt]

theorem abs_signedInt (s : Bool) (n : Nat) : |signedInt s n| = n := by
  cases s <;> simp [signedInt]

theorem signedInt_natAbs (z : Int) : signedInt (decide (z < 0)) z.natAbs = z := by
  unfold signedInt
  split <;> rename_i h <;> simp only [decide_eq_true_eq] at h <;> omega

/-- Of two integers with one sign the distance is that of their magnitudes. -/
theorem abs_signedInt_sub_same (s : Bool) (u n d : Nat) :
    |signedInt s u * d - signedInt s n| = |(u : Int) * d - n| := by
  cases s
  · rfl
  · rw [← abs_neg]
    simp only [signedInt, if_true]
    congr 1
    ring

/-- A change of sign brings no integer nearer. -/
theorem abs_sub_le_abs_signedInt_sub (s t : Bool) (u n d : Nat) :
    |(u : Int) * d - n| ≤ |signedInt t u * d - signedInt s n| := by
  have h := abs_abs_sub_abs_le (signedInt t u * d) (signedInt s n)
  rwa [abs_mul, abs_signedInt, abs_signedInt, Nat.abs_cast] at h

/-! #### The grid of the significands -/

/-- `nearest n D` times `D` is the multiple of `D` nearest to `n`. -/
theorem abs_nearest_mul_sub_le {D : Nat} (hD : 0 < D) (n j : Nat) :
    |(nearest n D : Int) * D - n| ≤ |(j : Int) * D - n| := by
  have hr : n % D < D := Nat.mod_lt n hD
  have hn : (n : Int) = (n / D : Nat) * (D : Int) + (n % D : Nat) := by exact_mod_cast (Nat.div_add_mod' n D).symm
  have hup : ((n / D + 1 : Nat) : Int) * D = (n / D : Nat) * (D : Int) + D := by push_cast; ring
  -- `j` lies at the quotient or below it, or above it
  have hj : (j : Int) * D ≤ (n / D : Nat) * (D : Int) ∨ (n / D : Nat) * (D : Int) + D ≤ (j : Int) * D := by
    rcases Nat.lt_or_ge (n / D) j with h | h
    · right; rw [← hup]; exact_mod_cast Nat.mul_le_mul_right D h
    · left; exact_mod_cast Nat.mul_le_mul_right D h
  have hpos := le_abs_self ((j : Int) * D - n)
  have hneg := neg_abs_le ((j : Int) * D - n)
  rw [abs_le']
  unfold nearest
  split
  · rw [hup]; omega
  · omega

/-- The magnitude bits that `roundMag` makes of a significand: a normal one is in [2^23, 2^24], and a subnormal one has
the exponent 0. -/
theorem unitsOfMag_significand {sh m : Nat} (hle : m ≤ 2 ^ 24) (hge : sh = 0 ∨ 2 ^ 23 ≤ m) :
    unitsOfMag (sh * 2 ^ 23 + m) = m * 2 ^ sh := by
  unfold unitsOfMag
  split
  · rename_i hlt
    have hsh : sh = 0 := by omega
    subst hsh
    omega
  · rename_i hnorm
    rcases Nat.lt_or_eq_of_le hle with hlt | rfl
    · rw [show (sh * 2 ^ 23 + m) / 2 ^ 23 - 1 = sh by omega, show 2 ^ 23 + (sh * 2 ^ 23 + m) % 2 ^ 23 = m by omega]
    · rw [show (sh * 2 ^ 23 + 2 ^ 24) / 2 ^ 23 - 1 = sh + 1 by omega,
        show (sh * 2 ^ 23 + 2 ^ 24) % 2 ^ 23 = 0 by omega, pow_succ]
      ring

/-- A binary32 lies on the grid of the spacing `2^sh` units, or below the least significand of that grid. -/
theorem unitsOfMag_on_grid_or_le (m sh : Nat) :
    (∃ j, unitsOfMag m = j * 2 ^ sh) ∨ (0 < sh ∧ unitsOfMag m ≤ 2 ^ 23 * 2 ^ sh) := by
  unfold unitsOfMag
  rcases Nat.eq_zero_or_pos sh with rfl | hsh
  · exact .inl ⟨_, (Nat.mul_one _).symm⟩
  · split
    · exact .inr ⟨hsh, (by omega : m ≤ 2 ^ 23).trans (Nat.le_mul_of_pos_right _ (by positivity))⟩
    · rcases Nat.lt_or_ge (m / 2 ^ 23 - 1) sh with hlt | hge
      · refine .inr ⟨hsh, ?_⟩
        calc (2 ^ 23 + m % 2 ^ 23) * 2 ^ (m / 2 ^ 23 - 1)
            ≤ 2 ^ 24 * 2 ^ (sh - 1) := Nat.mul_le_mul (by omega) (Nat.pow_le_pow_right (by norm_num) (by omega))
          _ = 2 ^ 23 * 2 ^ sh := by rw [← pow_add, ← pow_add]; congr 1; omega
      · exact .inl ⟨(2 ^ 23 + m % 2 ^ 23) * 2 ^ (m / 2 ^ 23 - 1 - sh), by
          rw [Nat.mul_assoc, ← pow_add, Nat.sub_add_cancel hge]⟩

/-! #### Rounding -/

/-- Above the subnormals the exact value is at least the least significand of its grid. -/
theorem le_of_pos_shift {n d : Nat} (h : 0 < (n / d).log2 - 23) : 2 ^ 23 * 2 ^ ((n / d).log2 - 23) * d ≤ n := by
  have hne : n / d ≠ 0 := fun h0 => by simp [h0] at h
  have hle : 2 ^ (n / d).log2 ≤ n / d := Nat.log2_self_le hne
  calc 2 ^ 23 * 2 ^ ((n / d).log2 - 23) * d
      = 2 ^ (n / d).log2 * d := by rw [← pow_add]; congr 2; omega
    _ ≤ n / d * d := Nat.mul_le_mul_right d hle
    _ ≤ n := Nat.div_mul_le_self n d

/-- The significand that `roundMag` keeps has at most 24 bits, or is the 2^24 that it was rounded up to. -/
theorem nearest_le_significand {n d : Nat} : nearest n (d * 2 ^ ((n / d).log2 - 23)) ≤ 2 ^ 24 := by
  have hlt : n / d < 2 ^ 24 * 2 ^ ((n / d).log2 - 23) := by
    calc n / d < 2 ^ ((n / d).log2 + 1) := Nat.lt_log2_self
      _ ≤ 2 ^ (24 + ((n / d).log2 - 23)) := Nat.pow_le_pow_right (by norm_num) (by omega)
      _ = 2 ^ 24 * 2 ^ ((n / d).log2 - 23) := pow_add _ _ _
  have hdiv : n / (d * 2 ^ ((n / d).log2 - 23)) < 2 ^ 24 := by
    rw [← Nat.div_div_eq_div_mul]
    exact (Nat.div_lt_iff_lt_mul (by positivity)).2 hlt
  exact (nearest_le _ _).trans hdiv

/-- Where places are cut off, the significand that `roundMag` keeps is a normal one. -/
theorem significand_le_nearest {n d : Nat} (hd : 0 < d) (h : 0 < (n / d).log2 - 23) :
    2 ^ 23 ≤ nearest n (d * 2 ^ ((n / d).log2 - 23)) := by
  refine le_trans ?_ (div_le_nearest _ _)
  rw [Nat.le_div_iff_mul_le (by positivity)]
  calc 2 ^ 23 * (d * 2 ^ ((n / d).log2 - 23)) = 2 ^ 23 * 2 ^ ((n / d).log2 - 23) * d := by ring
    _ ≤ n := le_of_pos_shift h

/-- What `roundMag` answers below the infinity: the quotient in units rounded to a significand of 24 bits. -/
theorem unitsOfMag_roundMag {n d : Nat} (hd : 0 < d) (hfin : roundMag n d < infMag) :
    unitsOfMag (roundMag n d) =
      nearest n (d * 2 ^ ((n / d).log2 - 23)) * 2 ^ ((n / d).log2 - 23) := by
  rw [roundMag_eq, min_lt_iff, or_iff_left (lt_irrefl _)] at hfin
  rw [roundMag_eq, min_eq_left hfin.le]
  exact unitsOfMag_significand nearest_le_significand
    ((Nat.eq_zero_or_pos _).imp_right (significand_le_nearest hd))

/-- A finite rounding of `n / d` units is the magnitude nearest to it. -/
theorem abs_roundMag_sub_le {n d : Nat} (hd : 0 < d) (hfin : roundMag n d < infMag) (k : Nat) :
    |(unitsOfMag (roundMag n d) : Int) * d - n| ≤ |(unitsOfMag k : Int) * d - n| := by
  rw [unitsOfMag_roundMag hd hfin]
  generalize hsh : (n / d).log2 - 23 = sh
  -- no point of the grid is nearer
  have hgrid : ∀ j : Nat,
      |((nearest n (d * 2 ^ sh) * 2 ^ sh : Nat) : Int) * d - n| ≤ |((j * 2 ^ sh : Nat) : Int) * d - n| := by
    intro j
    have h := abs_nearest_mul_sub_le (D := d * 2 ^ sh) (by positivity) n j
    have e : ∀ q : Nat, ((q * 2 ^ sh : Nat) : Int) * d = q * (d * 2 ^ sh : Nat) := fun q => by push_cast; ring
    rwa [e, e]
  rcases unitsOfMag_on_grid_or_le k sh with ⟨j, hj⟩ | ⟨hpos, hle⟩
  · rw [hj]
    exact hgrid j
  · -- below the grid, the grid's least significand lies between the value and `n / d`
    refine (hgrid (2 ^ 23)).trans ?_
    have hn : 2 ^ 23 * 2 ^ sh * d ≤ n := hsh ▸ le_of_pos_shift (hsh ▸ hpos)
    have hk : unitsOfMag k * d ≤ 2 ^ 23 * 2 ^ sh * d := Nat.mul_le_mul_right d hle
    have hn' : ((2 ^ 23 * 2 ^ sh : Nat) : Int) * d ≤ n := by exact_mod_cast hn
    have hk' : (unitsOfMag k : Int) * d ≤ ((2 ^ 23 * 2 ^ sh : Nat) : Int) * d := by exact_mod_cast hk
    rw [abs_of_nonpos (by omega), abs_of_nonpos (by omega)]
    omega

/-- A finite rounding of a signed quotient is the binary32 nearest to it: the form that every operation takes. -/
theorem abs_units_pack_roundMag_sub_le {n d : Nat} (hd : 0 < d) {s : Bool}
    (hfin : isFinite (pack s (roundMag n d)) = true) (c : F32) :
    |units (pack s (roundMag n d)) * d - signedInt s n| ≤ |units c * d - signedInt s n| := by
  simp only [isFinite, mag_pack (roundMag_lt n d), decide_eq_true_eq] at hfin
  rw [units_pack (roundMag_lt n d), abs_signedInt_sub_same, units_eq_signedInt c, magUnits_eq]
  exact (abs_roundMag_sub_le hd hfin (mag c)).trans (abs_sub_le_abs_signedInt_sub s (sign c) _ n d)

/-! #### The operations -/

theorem mag_lt_of_isFinite {a : F32} (h : isFinite a = true) : mag a < infMag := of_decide_eq_true h

theorem magUnits_pos {b : F32} (h : isZero b = false) : 0 < magUnits b := by
  have hm : mag b ≠ 0 := of_decide_eq_false h
  unfold magUnits
  split
  · omega
  · positivity

/-- A finite sum is nearest to the exact one. -/
theorem add_nearest {a b : F32} (ha : isFinite a = true) (hb : isFinite b = true) (c : F32)
    (hfin : isFinite (add a b) = true) :
    |units (add a b) - (units a + units b)| ≤ |units c - (units a + units b)| := by
  rw [add_finite (mag_lt_of_isFinite ha) (mag_lt_of_isFinite hb)] at hfin ⊢
  generalize units a + units b = z at hfin ⊢
  unfold ofUnits at hfin ⊢
  split
  · rename_i hz
    rw [hz, units_pack (by norm_num)]
    cases (sign a && sign b) <;> simp [signedInt, unitsOfMag]
  · rename_i hz
    rw [if_neg hz] at hfin
    simpa only [signedInt_natAbs, Nat.cast_one, mul_one] using abs_units_pack_roundMag_sub_le Nat.one_pos hfin c

/-- A finite product is nearest to the exact one. -/
theorem mul_nearest {a b : F32} (ha : isFinite a = true) (hb : isFinite b = true) (c : F32)
    (hfin : isFinite (mul a b) = true) :
    |units (mul a b) * 2 ^ 149 - units a * units b| ≤ |units c * 2 ^ 149 - units a * units b| := by
  rw [mul_finite (mag_lt_of_isFinite ha) (mag_lt_of_isFinite hb)] at hfin ⊢
  rw [units_eq_signedInt a, units_eq_signedInt b, signedInt_mul]
  exact_mod_cast abs_units_pack_roundMag_sub_le (by positivity) hfin c

/-- Multiplying by a divisor's sign moves it from the quotient to the dividend. -/
theorem abs_mul_units_sub (q : Int) (a b : F32) :
    |q * units b - units a * 2 ^ 149| =
      |q * magUnits b - signedInt (sign a != sign b) (magUnits a * 2 ^ 149)| := by
  have ha : units a * 2 ^ 149 = signedInt (sign a) (magUnits a * 2 ^ 149) := by
    exact_mod_cast signedInt_mul_natCast (sign a) (magUnits a) (2 ^ 149)
  rw [ha, units_eq_signedInt b]
  cases sign b
  · rw [Bool.bne_false]; rfl
  · rw [Bool.bne_true, signedInt_not, ← abs_neg]
    generalize signedInt (sign a) _ = z
    simp only [signedInt, if_true]
    congr 1
    ring

/-- A finite quotient is nearest to the exact one. -/
theorem div_nearest {a b : F32} (ha : isFinite a = true) (hb : isFinite b = true) (hz : isZero b = false) (c : F32)
    (hfin : isFinite (div a b) = true) :
    |units (div a b) * units b - units a * 2 ^ 149| ≤ |units c * units b - units a * 2 ^ 149| := by
  rw [div_finite (mag_lt_of_isFinite ha) (mag_lt_of_isFinite hb) (of_decide_eq_false hz)] at hfin ⊢
  rw [abs_mul_units_sub, abs_mul_units_sub]
  exact abs_units_pack_roundMag_sub_le (magUnits_pos hz) hfin c

/-- Settles O58: each operation is one `roundMag` of the exact result, whose significand is the nearest on a grid that
every binary32 near the result lies on. -/
theorem arithmeticRoundsToNearest : Obligations.ArithmeticRoundsToNearest := fun _ _ c ha hb _ =>
  ⟨add_nearest ha hb c, mul_nearest ha hb c, fun hz => div_nearest ha hb hz c⟩

end Sys2Proof.F32

/-! PROOFS. The state statements (spec/10_state.md): what every step keeps (the configuration registers, the sizes,
the fault record), the address map and HAS_NOTE. -/

namespace Sys2Proof.Machine

/-! ### Trap entry (R168) -/

/-- Trap entry changes the fault record and `HALTED` alone (R168). -/
theorem State.takeFault_frame (s : State) (k : FaultKind) (w : Word) : s.takeFault k w =
    { s with
      err := (s.takeFault k w).err
      errSeq := (s.takeFault k w).errSeq
      errCmd := (s.takeFault k w).errCmd
      halted := (s.takeFault k w).halted } := by
  unfold State.takeFault
  split <;> rfl

/-! ### The configuration registers (R23, R27 to R30) -/

/-- After reset the configuration registers hold legal values, with any number of voices but 0 (R182). -/
theorem State.resetWith_configLegal {p : Params} (hp : 1 ≤ p.voices) : (State.resetWith p).ConfigLegal where
  rate := (by decide : (48000 : U32) ≠ 0)
  env e he := by
    rw [List.eq_of_mem_replicate he]
    exact ⟨by decide, trivial, by decide, by decide⟩
  lfo l hl := by
    rw [List.eq_of_mem_replicate hl]
    exact ⟨by decide, by decide, by decide, trivial⟩
  op o ho := by
    obtain ⟨i, -, rfl⟩ := List.mem_map.1 ho
    exact ⟨(by decide : -36 ≤ (0 : Int) ∧ (0 : Int) ≤ 36), (by decide : -50 ≤ (0 : Int) ∧ (0 : Int) ≤ 50),
      (by decide : unitBits F32.zero)⟩
  count := ⟨le_rfl, hp⟩
  detune := (by decide : unitBits F32.zero)
  blend := (by decide : unitBits F32.half)
  spread := (by decide : unitBits F32.zero)

theorem State.ConfigLegal.takeFault {s : State} (h : s.ConfigLegal) (k : FaultKind) (w : Word) :
    (s.takeFault k w).ConfigLegal := by
  rw [State.takeFault_frame]
  exact { h with }

/-- A WR stores what the checks of its register let through (R74 to R79). -/
theorem State.ConfigLegal.writeReg {s t : State} (h : s.ConfigLegal) {r : Reg} {v : U32}
    (hw : s.writeReg r v = some t) : t.ConfigLegal := by
  cases r <;> simp only [State.writeReg, Option.map_eq_some_iff, reduceCtorEq] at hw
  case clkTick => cases hw; exact { h with }
  case notePriority => split at hw <;> cases hw; exact h
  all_goals obtain ⟨x, hx, rfl⟩ := hw
  case irqEn | polyMode => exact { h with }
  case clkRate => exact { h with rate := nonzeroOperand_ne hx }
  case uniCount => exact { h with count := countOperand_bounds hx }
  case uniDetune => exact { h with detune := unitOperand_unit hx }
  case uniBlend => exact { h with blend := unitOperand_unit hx }
  case uniSpread => exact { h with spread := unitOperand_unit hx }
  case env => exact { h with env := forall_mem_writeAt hx h.env fun _ _ => EnvProps.write_legal }
  case lfo => exact { h with lfo := forall_mem_writeAt hx h.lfo fun _ _ => LfoProps.write_legal }
  case op => exact { h with op := forall_mem_writeAt hx h.op fun _ _ => OpProps.write_legal }

/-- No command but WR touches a configuration register, and WR checks what it stores. -/
theorem Effect.configLegal {s t : State} {i : Instr} (he : Effect s i t) (h : s.ConfigLegal) : t.ConfigLegal := by
  cases he with
  | nothing => exact h
  | fault => exact h.takeFault _ _
  | read => exact { h with }
  | readUnmapped => exact State.ConfigLegal.takeFault (s := s.emitRead 0) { h with } _ _
  | tick => exact { h with }
  | noteOn => rw [State.allocate_frame]; exact { h with }
  | noteOff => exact { h with }
  | write _ _ _ _ _ _ _ hw => exact h.writeReg hw
  | wtWr => exact { h with }
  | wtSeal => exact { h with }

/-- Settles O13: WR alone writes a configuration register, with a value that passed its check, and the reset gives each
a legal constant. -/
theorem stepKeepsConfigLegal : Obligations.StepKeepsConfigLegal := by
  intro s t hs hc hst
  have hkeep : t.par.valid ∧ t.ConfigLegal := step_keeps (P := fun u => u.par.valid ∧ u.ConfigLegal)
    (hport := fun _ _ ⟨hp, h⟩ => ⟨hp, { h with }⟩)
    (hcount := fun _ ⟨hp, h⟩ => ⟨hp, { h with }⟩)
    (hreset := fun _ ⟨hp, _⟩ => ⟨hp, State.resetWith_configLegal hp.1.1⟩)
    (hill := fun u w _ ⟨hp, h⟩ => ⟨(u.takeFault_par .illegalCmd w).symm ▸ hp, h.takeFault _ _⟩)
    (heff := fun _ _ _ he ⟨hp, h⟩ => ⟨he.keeps.1.symm ▸ hp, he.configLegal h⟩)
    ⟨hs.params, hc⟩ hst
  exact hkeep.2

/-! ### Sizes (R14, R40) -/

theorem Pack.reset_sized (p : Params) : (Pack.reset p).sized p :=
  ⟨List.length_replicate, List.length_replicate⟩

theorem Pack.noteOn_sized {p : Params} {k : Pack} (h : k.sized p) (vel : F32) (tick : U32) :
    (k.noteOn vel tick).sized p :=
  ⟨(k.noteOn_envs_length vel tick).trans h.1, (k.noteOn_lfos_length vel tick).trans h.2⟩

theorem Pack.noteOff_sized {p : Params} {k : Pack} (h : k.sized p) (tick : U32) : (k.noteOff tick).sized p :=
  ⟨(k.noteOff_envs_length tick).trans h.1, (k.noteOff_lfos_length tick).trans h.2⟩

theorem VoiceRec.noteOn_sized {p : Params} {v : VoiceRec} (h : v.sized p) (tick : U32) (note : Nat)
    (vel det blend bal : F32) : (v.noteOn p tick note vel det blend bal).sized p :=
  ⟨(List.length_map _).trans h.1, Pack.noteOn_sized h.2 vel tick⟩

theorem VoiceRec.release_sized {p : Params} {v : VoiceRec} (h : v.sized p) (tick : U32) : (v.release tick).sized p :=
  ⟨h.1, Pack.noteOff_sized h.2 tick⟩

theorem State.resetWith_sized {p : Params} (hp : p.valid) : (State.resetWith p).Sized where
  params := hp
  env := List.length_replicate
  lfo := List.length_replicate
  op := (List.length_map _).trans List.length_range
  voice := List.length_replicate
  voices v hv := by
    rw [List.eq_of_mem_replicate hv]
    exact ⟨List.length_replicate, Pack.reset_sized p⟩
  global := Pack.reset_sized p

theorem State.Sized.takeFault {s : State} (h : s.Sized) (k : FaultKind) (w : Word) : (s.takeFault k w).Sized := by
  rw [State.takeFault_frame]
  exact { h with }

theorem State.Sized.voiceNoteOn {s : State} (h : s.Sized) (i note : Nat) (vel det blend bal : F32) :
    (s.voiceNoteOn i note vel det blend bal).Sized :=
  { h with
    voice := (List.length_modify ..).trans h.voice
    voices := fun v hv => by
      rw [State.voiceNoteOn_voice] at hv
      obtain ⟨j, hj, rfl⟩ := List.mem_iff_getElem.1 hv
      rw [List.getElem_modify]
      split
      · exact VoiceRec.noteOn_sized (h.voices _ (List.getElem_mem _)) ..
      · exact h.voices _ (List.getElem_mem _) }

theorem State.Sized.globalNoteOn {s : State} (h : s.Sized) (vel : F32) : (s.globalNoteOn vel).Sized :=
  { h with global := Pack.noteOn_sized h.global vel s.clkTick }

theorem State.Sized.unisonGroup (note : Nat) (vel : F32) (is : List Nat) (k : Nat) {s : State} (h : s.Sized) :
    (State.unisonGroup note vel is k s).Sized := by
  induction is generalizing k s with
  | nil => exact h
  | cons i is ih => exact ih (k + 1) (h.voiceNoteOn ..)

/-- `allocate` keeps the sizes, in either mode (R155 to R159). -/
theorem State.Sized.allocate {s : State} (h : s.Sized) (note : Nat) (vel : F32) : (s.allocate note vel).Sized := by
  unfold State.allocate
  split
  · exact h
  · split
    · have hone := h.voiceNoteOn s.polyIndex note vel F32.zero F32.one F32.half
      exact State.Sized.globalNoteOn (s := s.polyOn note vel) { hone with } vel
    · split
      · exact h
      · exact (h.unisonGroup note vel _ 0).globalNoteOn vel

/-- Releasing voices keeps the sizes (R160, R161). -/
theorem State.Sized.releaseWhere {s : State} (h : s.Sized) (sel : VoiceRec → Bool) : (s.releaseWhere sel).Sized :=
  { h with
    voice := (List.length_map _).trans h.voice
    voices := fun v hv => by
      obtain ⟨u, hu, rfl⟩ := List.mem_map.1 hv
      split
      · exact VoiceRec.release_sized (h.voices u hu) s.clkTick
      · exact h.voices u hu
    global := by
      rw [State.releaseWhere_global]
      split
      · exact Pack.noteOff_sized h.global s.clkTick
      · exact h.global }

/-- A TICK keeps the sizes (R70). -/
theorem State.Sized.tickFrame {s : State} (h : s.Sized) : s.tickFrame.Sized :=
  { h with
    voice := s.frameAt_voice_ticked.length_eq.symm.trans h.voice
    voices := fun w hw => by
      obtain ⟨v, hv, hvw⟩ := exists_of_forall₂ s.frameAt_voice_ticked hw
      exact hvw.sized (h.voices v hv)
    global := s.frameAt_global_ticked.sized h.global }

/-- A WR keeps the sizes: it replaces one slot, or with POLY_MODE releases the voices (R73, R80). -/
theorem State.Sized.writeReg {s t : State} (h : s.Sized) {r : Reg} {v : U32} (hw : s.writeReg r v = some t) :
    t.Sized := by
  cases r <;> simp only [State.writeReg, Option.map_eq_some_iff, reduceCtorEq] at hw
  case clkTick => cases hw; exact { h with }
  case notePriority => split at hw <;> cases hw; exact h
  all_goals obtain ⟨x, hx, rfl⟩ := hw
  case irqEn | clkRate | uniCount | uniDetune | uniBlend | uniSpread => exact { h with }
  case polyMode => exact { h.releaseWhere fun v => v.note.isSome with }
  case env => exact { h with env := (writeAt_length hx).trans h.env }
  case lfo => exact { h with lfo := (writeAt_length hx).trans h.lfo }
  case op => exact { h with op := (writeAt_length hx).trans h.op }

/-- Every command keeps the sizes. -/
theorem Effect.sized {s t : State} {i : Instr} (he : Effect s i t) (h : s.Sized) : t.Sized := by
  cases he with
  | nothing => exact h
  | fault => exact h.takeFault _ _
  | read => exact { h with }
  | readUnmapped => exact State.Sized.takeFault (s := s.emitRead 0) { h with } _ _
  | tick => exact h.tickFrame
  | noteOn => exact h.allocate _ _
  | noteOff => exact h.releaseWhere _
  | write _ _ _ _ _ _ _ hw => exact h.writeReg hw
  | wtWr => exact { h with }
  | wtSeal => exact { h with }

/-- Settles O12: an array changes by a map, by the replacement of one element or by the ticks of its elements, each of
which keeps its length, and after reset it has its size. -/
theorem stepKeepsSizes : Obligations.StepKeepsSizes := by
  intro s t hs hst
  exact step_keeps (P := State.Sized)
    (hport := fun _ _ h => { h with })
    (hcount := fun _ h => { h with })
    (hreset := fun _ h => State.resetWith_sized h.params)
    (hill := fun _ _ _ h => h.takeFault _ _)
    (heff := fun _ _ _ he h => he.sized h)
    hs hst

/-! ### The fault record (R20, R21, R168, R172) -/

/-- Before the first fault `ERR` is 0. -/
theorem State.FaultRecord.err_of_running {s : State} (h : s.FaultRecord) (hr : s.halted = false) : s.err = 0 := by
  by_contra he
  rw [h.halted.2 he] at hr
  cases hr

theorem FaultKind.mem_all (k : FaultKind) : k ∈ FaultKind.all := by cases k <;> decide

theorem FaultKind.bit_ne_zero (k : FaultKind) : k.bit ≠ 0#7 := by cases k <;> decide

/-- After trap entry the core is halted with a bit set, so only the rule about the bits of `ERR` is left to show. -/
theorem State.takeFault_faultRecord {s : State} {k : FaultKind} (w : Word) (hbits : ∃ j ∈ FaultKind.all,
    s.err ||| k.bit = j.bit ∨ s.err ||| k.bit = j.bit ||| FaultKind.badAddr.bit) : (s.takeFault k w).FaultRecord where
  halted := by simp [k.bit_ne_zero]
  capture := by simp
  bits := .inr (by rwa [State.takeFault_err])

/-- The first fault sets its bit alone (R168). -/
theorem State.FaultRecord.takeFault {s : State} (h : s.FaultRecord) (hr : s.halted = false) (k : FaultKind) (w : Word) :
    (s.takeFault k w).FaultRecord :=
  State.takeFault_faultRecord w ⟨k, k.mem_all, .inl (by simp [h.err_of_running hr])⟩

/-- A `BAD_ADDR` fault on a halted core adds its bit to that of the first fault, or finds it there (R172). -/
theorem State.FaultRecord.takeFault_badAddr_halted {s : State} (h : s.FaultRecord) (hh : s.halted = true) (w : Word) :
    (s.takeFault .badAddr w).FaultRecord := by
  obtain he | ⟨k, hk, he | he⟩ := h.bits
  · exact absurd he (h.halted.1 hh)
  · exact State.takeFault_faultRecord w ⟨k, hk, .inr (by rw [he])⟩
  · exact State.takeFault_faultRecord w ⟨k, hk, .inr (by rw [he, BitVec.or_assoc, BitVec.or_self])⟩

theorem State.FaultRecord.takeFault_badAddr {s : State} (h : s.FaultRecord) (w : Word) :
    (s.takeFault .badAddr w).FaultRecord := by
  cases hh : s.halted with
  | false => exact h.takeFault hh .badAddr w
  | true => exact h.takeFault_badAddr_halted hh w

/-- After reset no fault is recorded (R182). -/
theorem State.resetWith_faultRecord (p : Params) : (State.resetWith p).FaultRecord :=
  ⟨by simp [State.resetWith], fun _ => ⟨rfl, rfl⟩, .inl rfl⟩

/-- Every command keeps the fault record: only a fault touches it. -/
theorem Effect.faultRecord {s t : State} {i : Instr} (he : Effect s i t) (h : s.FaultRecord) : t.FaultRecord := by
  cases he with
  | nothing => exact h
  | fault _ _ hr => exact h.takeFault hr _ _
  | read => exact { h with }
  | readUnmapped => exact State.FaultRecord.takeFault_badAddr (s := s.emitRead 0) { h with } _
  | tick => exact { h with }
  | noteOn => rw [State.allocate_frame]; exact { h with }
  | noteOff => exact { h with }
  | write _ _ _ _ _ _ _ hw => rw [State.writeReg_frame hw]; exact { h with }
  | wtWr => exact { h with }
  | wtSeal => exact { h with }

/-- Settles O14: a running core has no bit set and takes one with the capture; a halted core executes RD alone, whose
only fault is `BAD_ADDR`. -/
theorem stepKeepsFaultRecord : Obligations.StepKeepsFaultRecord := by
  intro s t hs hst
  exact step_keeps (P := State.FaultRecord)
    (hport := fun _ _ h => { h with })
    (hcount := fun _ h => { h with })
    (hreset := fun s _ => State.resetWith_faultRecord s.par)
    (hill := fun _ _ hr h => h.takeFault hr _ _)
    (heff := fun _ _ _ he h => he.faultRecord h)
    hs hst

/-! ### The address map (R16, R36) -/

/-! #### The offset tables and the addresses by name are inverse -/

theorem envFieldAt_eq_some {n : Nat} {f : EnvField} : envFieldAt n = some f ↔ n = f.offset := by
  refine ⟨fun h => ?_, fun h => by subst h; cases f <;> rfl⟩
  unfold envFieldAt at h
  split at h <;> cases h <;> rfl

theorem lfoFieldAt_eq_some {n : Nat} {f : LfoField} : lfoFieldAt n = some f ↔ n = f.offset := by
  refine ⟨fun h => ?_, fun h => by subst h; cases f <;> rfl⟩
  unfold lfoFieldAt at h
  split at h <;> cases h <;> rfl

theorem opFieldAt_eq_some {n : Nat} {f : OpField} : opFieldAt n = some f ↔ n = f.offset := by
  refine ⟨fun h => ?_, fun h => by subst h; cases f <;> rfl⟩
  unfold opFieldAt at h
  split at h <;> cases h <;> rfl

theorem voiceFieldAt_eq_some {n : Nat} {f : VoiceField} : voiceFieldAt n = some f ↔ n = f.offset := by
  refine ⟨fun h => ?_, fun h => by subst h; cases f <;> rfl⟩
  unfold voiceFieldAt at h
  split at h <;> cases h <;> rfl

theorem envStateFieldAt_eq_some {n : Nat} {f : EnvStateField} : envStateFieldAt n = some f ↔ n = f.offset := by
  refine ⟨fun h => ?_, fun h => by subst h; cases f <;> rfl⟩
  unfold envStateFieldAt at h
  split at h <;> cases h <;> rfl

theorem lfoStateFieldAt_eq_some {n : Nat} {f : LfoStateField} : lfoStateFieldAt n = some f ↔ n = f.offset := by
  refine ⟨fun h => ?_, fun h => by subst h; cases f <;> rfl⟩
  unfold lfoStateFieldAt at h
  split at h <;> cases h <;> rfl

theorem EnvField.offset_lt (f : EnvField) : f.offset < 16 := by cases f <;> decide
theorem LfoField.offset_lt (f : LfoField) : f.offset < 16 := by cases f <;> decide
theorem OpField.offset_lt (f : OpField) : f.offset < 16 := by cases f <;> decide
theorem VoiceField.offset_lt (f : VoiceField) : f.offset < 16 := by cases f <;> decide
theorem EnvStateField.offset_lt (f : EnvStateField) : f.offset < 4 := by cases f <;> decide
theorem LfoStateField.offset_lt (f : LfoStateField) : f.offset < 4 := by cases f <;> decide

/-! #### Every mapped address is that of its register -/

/-- A block of slots: the slot is below the number of slots, and the field has the offset in the slot. -/
theorem slotRegAt_eq_some {F : Type} {fieldAt : Nat → Option F} {mk : F → Reg} {slot count off : Nat} {r : Reg} :
    (if slot < count then (fieldAt off).map mk else none) = some r ↔
      slot < count ∧ ∃ f, fieldAt off = some f ∧ mk f = r := by
  split <;> simp [*]

/-- A pack's registers are the core's when the core has the pack and the slot (R34, R35). -/
theorem mapped_packEnv {p : Params} {k : PackId} {e : Nat} {f : EnvStateField} :
    Claims.Mapped p (.packEnv k e f) ↔ (∀ v, k = .voice v → v < p.voices) ∧ e < p.envs := by
  cases k <;> simp [Claims.Mapped]

theorem mapped_packLfo {p : Params} {k : PackId} {l : Nat} {f : LfoStateField} :
    Claims.Mapped p (.packLfo k l f) ↔ (∀ v, k = .voice v → v < p.voices) ∧ l < p.lfos := by
  cases k <;> simp [Claims.Mapped]

/-- The control and polyphony registers, which every core has. -/
theorem controlRegAt_sound {p : Params} {n : Nat} {r : Reg} (h : controlRegAt n = some r) :
    Claims.Mapped p r ∧ n = r.address := by
  unfold controlRegAt at h
  split at h <;> cases h <;> exact ⟨trivial, rfl⟩

/-- A pack, within a core that has the pack. -/
theorem packRegAt_sound {p : Params} {k : PackId} {off : Nat} {r : Reg} (h : packRegAt p k off = some r)
    (hk : ∀ v, k = .voice v → v < p.voices) : Claims.Mapped p r ∧ k.base + off = r.address := by
  unfold packRegAt at h
  split at h
  · obtain ⟨he, f, hf, rfl⟩ := slotRegAt_eq_some.1 h
    rw [envStateFieldAt_eq_some] at hf
    exact ⟨mapped_packEnv.2 ⟨hk, he⟩, by simp only [Reg.address]; omega⟩
  · split at h
    · obtain ⟨hl, f, hf, rfl⟩ := slotRegAt_eq_some.1 h
      rw [lfoStateFieldAt_eq_some] at hf
      exact ⟨mapped_packLfo.2 ⟨hk, hl⟩, by simp only [Reg.address]; omega⟩
    · cases h

/-- A voice's block, within a core that has the voice. -/
theorem voiceRegAt_sound {p : Params} {v off : Nat} {r : Reg} (h : voiceRegAt p v off = some r)
    (hv : v < p.voices) : Claims.Mapped p r ∧ (PackId.voice v).base + off = r.address := by
  unfold voiceRegAt at h
  split at h
  · obtain ⟨f, hf, rfl⟩ := Option.map_eq_some_iff.1 h
    exact ⟨hv, by rw [voiceFieldAt_eq_some.1 hf]; rfl⟩
  · split at h
    · split at h
      · cases h
        exact ⟨⟨hv, ‹_›⟩, by simp only [Reg.address, PackId.base]; omega⟩
      · cases h
    · exact packRegAt_sound h fun w hw => by cases hw; exact hv

/-- What the map gives is a register of the core, at its own address (R36). -/
theorem regAtNat_sound {p : Params} {n : Nat} {r : Reg} (h : regAtNat p n = some r) :
    Claims.Mapped p r ∧ n = r.address := by
  unfold regAtNat at h
  split at h
  · exact controlRegAt_sound h
  split at h
  · obtain ⟨he, f, hf, rfl⟩ := slotRegAt_eq_some.1 h
    rw [envFieldAt_eq_some] at hf
    exact ⟨he, by simp only [Reg.address]; omega⟩
  split at h
  · obtain ⟨hl, f, hf, rfl⟩ := slotRegAt_eq_some.1 h
    rw [lfoFieldAt_eq_some] at hf
    exact ⟨hl, by simp only [Reg.address]; omega⟩
  split at h
  · obtain ⟨hi, f, hf, rfl⟩ := slotRegAt_eq_some.1 h
    rw [opFieldAt_eq_some] at hf
    exact ⟨hi, by simp only [Reg.address]; omega⟩
  split at h
  · cases h
    exact ⟨show _ < 128 by omega, by simp only [Reg.address]; omega⟩
  split at h
  · cases h
  split at h
  · obtain ⟨hm, ha⟩ := packRegAt_sound h nofun
    exact ⟨hm, by rw [← ha, PackId.base]; omega⟩
  split at h
  · cases h
  split at h
  · split at h
    · obtain ⟨hm, ha⟩ := voiceRegAt_sound h ‹_›
      exact ⟨hm, by rw [← ha, PackId.base]; omega⟩
    · cases h
  · cases h

/-! #### Every register of the core is at its address -/

/-- The addresses of a block of slots, each of 16 places: the slot's number and the field's offset come back. -/
theorem slotRegAt_address {F : Type} {fieldAt : Nat → Option F} {mk : Nat → F → Reg} {base slot off count n : Nat}
    {f : F} (hn : n = base + 16 * slot + off) (hbase : base % 16 = 0) (hoff : off < 16) (hslot : slot < count)
    (hf : fieldAt off = some f) :
    (if (n - base) / 16 < count then (fieldAt (n % 16)).map (mk ((n - base) / 16)) else none) =
      some (mk slot f) := by
  have hq : (n - base) / 16 = slot := by omega
  have hr : n % 16 = off := by omega
  rw [hq, hr, if_pos hslot, hf, Option.map_some]

theorem regAtNat_env {p : Params} (hp : p.valid) {n e : Nat} (he : e < p.envs) {f : EnvField}
    (hn : n = 0x0100 + 0x10 * e + f.offset) : regAtNat p n = some (.env e f) := by
  obtain ⟨-, -, -, henvs, -⟩ := hp
  have hf := f.offset_lt
  unfold regAtNat
  rw [if_neg (by omega), if_pos (by omega)]
  exact slotRegAt_address hn rfl hf he (envFieldAt_eq_some.2 rfl)

theorem regAtNat_lfo {p : Params} (hp : p.valid) {n l : Nat} (hl : l < p.lfos) {f : LfoField}
    (hn : n = 0x0200 + 0x10 * l + f.offset) : regAtNat p n = some (.lfo l f) := by
  obtain ⟨-, -, hlfos, -⟩ := hp
  have hf := f.offset_lt
  unfold regAtNat
  rw [if_neg (by omega), if_neg (by omega), if_pos (by omega)]
  exact slotRegAt_address hn rfl hf hl (lfoFieldAt_eq_some.2 rfl)

theorem regAtNat_op {p : Params} (hp : p.valid) {n i : Nat} (hi : i < p.oscs) {f : OpField}
    (hn : n = 0x0300 + 0x10 * i + f.offset) : regAtNat p n = some (.op i f) := by
  obtain ⟨-, ⟨-, hoscs⟩, -⟩ := hp
  have hf := f.offset_lt
  unfold regAtNat
  rw [if_neg (by omega), if_neg (by omega), if_neg (by omega), if_pos (by omega)]
  exact slotRegAt_address hn rfl hf hi (opFieldAt_eq_some.2 rfl)

/-- `HAS_NOTE(n)` is at its address on every core (R31). -/
theorem regAtNat_hasNote (p : Params) {n : Nat} (hn : n < 128) : regAtNat p (0x0400 + n) = some (.hasNote n) := by
  unfold regAtNat
  iterate 4 rw [if_neg (by omega)]
  rw [if_pos (by omega), Nat.add_sub_cancel_left]

/-- The block of the global pack (R35). -/
theorem regAtNat_globalPack (p : Params) {n off : Nat} (hn : n = 0x0800 + off) (hoff : off < 0x100) :
    regAtNat p n = packRegAt p .global off := by
  have hq : n - 0x0800 = off := by omega
  unfold regAtNat
  iterate 6 rw [if_neg (by omega)]
  rw [if_pos (by omega), hq]

/-- The block of a voice (R32, R33, R35). -/
theorem regAtNat_voiceBlock {p : Params} (hp : p.valid) {n v off : Nat} (hn : n = 0x1000 + 0x100 * v + off)
    (hv : v < p.voices) (hoff : off < 0x100) : regAtNat p n = voiceRegAt p v off := by
  obtain ⟨⟨-, hvoices⟩, -⟩ := hp
  have hq : (n - 0x1000) / 256 = v := by omega
  have hr : n % 256 = off := by omega
  unfold regAtNat
  iterate 8 rw [if_neg (by omega)]
  rw [if_pos (by omega), hq, hr, if_pos hv]

theorem packRegAt_packEnv {p : Params} (hp : p.valid) (k : PackId) {off e : Nat} (he : e < p.envs)
    {f : EnvStateField} (hoff : off = 0x20 + 4 * e + f.offset) : packRegAt p k off = some (.packEnv k e f) := by
  obtain ⟨-, -, -, henvs, -⟩ := hp
  have hf := f.offset_lt
  have hq : (off - 0x20) / 4 = e := by omega
  have hr : (off - 0x20) % 4 = f.offset := by omega
  unfold packRegAt
  rw [if_pos (by omega), hq, hr, if_pos he, envStateFieldAt_eq_some.2 rfl, Option.map_some]

theorem packRegAt_packLfo {p : Params} (k : PackId) {off l : Nat} (hl : l < p.lfos)
    {f : LfoStateField} (hoff : off = 0x60 + 4 * l + f.offset) : packRegAt p k off = some (.packLfo k l f) := by
  have hf := f.offset_lt
  have hq : (off - 0x60) / 4 = l := by omega
  have hr : (off - 0x60) % 4 = f.offset := by omega
  unfold packRegAt
  rw [if_neg (by omega), if_pos (by omega), hq, hr, if_pos hl, lfoStateFieldAt_eq_some.2 rfl, Option.map_some]

theorem voiceRegAt_voice (p : Params) (v : Nat) (f : VoiceField) : voiceRegAt p v f.offset = some (.voice v f) := by
  unfold voiceRegAt
  rw [if_pos f.offset_lt, voiceFieldAt_eq_some.2 rfl, Option.map_some]

theorem voiceRegAt_opAnchor {p : Params} (hp : p.valid) (v : Nat) {i : Nat} (hi : i < p.oscs) :
    voiceRegAt p v (0x10 + i) = some (.opAnchor v i) := by
  obtain ⟨-, ⟨-, hoscs⟩, -⟩ := hp
  unfold voiceRegAt
  rw [if_neg (by omega), if_pos (by omega), Nat.add_sub_cancel_left, if_pos hi]

/-- The pack's part of a voice's block. -/
theorem voiceRegAt_pack (p : Params) (v : Nat) {off : Nat} (h : 0x20 ≤ off) :
    voiceRegAt p v off = packRegAt p (.voice v) off := by
  unfold voiceRegAt
  rw [if_neg (by omega), if_neg (by omega)]

/-- The block of the pack `k`, in a core that has the pack: the other direction of `PackId.base` (R35). -/
theorem regAtNat_pack {p : Params} (hp : p.valid) {k : PackId} (hk : ∀ v, k = .voice v → v < p.voices) {n off : Nat}
    (hn : n = k.base + off) (hlo : 0x20 ≤ off) (hhi : off < 0x100) : regAtNat p n = packRegAt p k off := by
  cases k with
  | global => exact regAtNat_globalPack p hn hhi
  | voice v => rw [regAtNat_voiceBlock hp hn (hk v rfl) hhi, voiceRegAt_pack p v hlo]

theorem regAtNat_packEnv {p : Params} (hp : p.valid) {k : PackId} (hk : ∀ v, k = .voice v → v < p.voices) {e : Nat}
    (he : e < p.envs) (f : EnvStateField) : regAtNat p (Reg.packEnv k e f).address = some (.packEnv k e f) := by
  obtain ⟨-, -, -, henvs, -⟩ := id hp
  have hf := f.offset_lt
  rw [regAtNat_pack (off := 0x20 + 4 * e + f.offset) hp hk (by simp only [Reg.address]; omega) (by omega) (by omega),
    packRegAt_packEnv hp k he rfl]

theorem regAtNat_packLfo {p : Params} (hp : p.valid) {k : PackId} (hk : ∀ v, k = .voice v → v < p.voices) {l : Nat}
    (hl : l < p.lfos) (f : LfoStateField) : regAtNat p (Reg.packLfo k l f).address = some (.packLfo k l f) := by
  obtain ⟨-, -, hlfos, -⟩ := id hp
  have hf := f.offset_lt
  rw [regAtNat_pack (off := 0x60 + 4 * l + f.offset) hp hk (by simp only [Reg.address]; omega) (by omega) (by omega),
    packRegAt_packLfo k hl rfl]

/-- The address of a register of the core leads back to it (R36). -/
theorem regAtNat_address {p : Params} (hp : p.valid) {r : Reg} (hm : Claims.Mapped p r) :
    regAtNat p r.address = some r := by
  cases r with
  | env e f => exact regAtNat_env hp hm rfl
  | lfo l f => exact regAtNat_lfo hp hm rfl
  | op i f => exact regAtNat_op hp hm rfl
  | hasNote n => exact regAtNat_hasNote p hm
  | voice v f =>
    have hf := f.offset_lt
    exact (regAtNat_voiceBlock hp rfl hm (by omega)).trans (voiceRegAt_voice p v f)
  | opAnchor v i =>
    obtain ⟨hv, hi⟩ := hm
    obtain ⟨-, ⟨-, hoscs⟩, -⟩ := id hp
    exact (regAtNat_voiceBlock hp (Nat.add_assoc ..) hv (by omega)).trans (voiceRegAt_opAnchor hp v hi)
  | packEnv k e f =>
    obtain ⟨hk, he⟩ := mapped_packEnv.1 hm
    exact regAtNat_packEnv hp hk he f
  | packLfo k l f =>
    obtain ⟨hk, hl⟩ := mapped_packLfo.1 hm
    exact regAtNat_packLfo hp hk hl f
  | _ => rfl

/-- Settles O23: the map, block by block, gives a register of the core at its own address, and the address of every such
register leads back to it. -/
theorem addressMapIsTheTable : Obligations.AddressMapIsTheTable := by
  intro p a r hp
  refine ⟨regAtNat_sound, fun ⟨hm, ha⟩ => ?_⟩
  rw [regAt, ha]
  exact regAtNat_address hp hm

/-! ### HAS_NOTE (R31, R154) -/

/-- An RD of `HAS_NOTE(n)` gives `has_note(n)`. -/
theorem State.peek_hasNote (s : State) {n : Nat} (hn : n < 128) :
    s.peek (BitVec.ofNat 16 (0x0400 + n)) = some (boolCode (s.hasNote n)) := by
  have ha : (BitVec.ofNat 16 (0x0400 + n)).toNat = 0x0400 + n := Nat.mod_eq_of_lt (by omega)
  rw [State.peek, regAt, ha, regAtNat_hasNote s.par hn]
  rfl

/-- Settles O29: the register reads `has_note(n)`, which is true exactly when some voice holds `n`. -/
theorem hasNoteReflectsTheNoteMap : Obligations.HasNoteReflectsTheNoteMap := by
  intro s n hn
  rw [s.peek_hasNote hn]
  constructor <;> intro h
  · rw [State.hasNote_iff.2 h]
    rfl
  · rw [Bool.eq_false_iff.2 (mt State.hasNote_iff.1 h)]
    rfl

end Sys2Proof.Machine

/-! PROOFS. The memory statements (spec/20_memory.md): the bytes of a command on a byte-wide link (R44, R45), the
wavetable that every step keeps legal and that the seal fixes (R42), and the idempotent commands (R46). -/

namespace Sys2Proof

/-! ### Command words as bytes (R44, R45) -/

/-- The eight bytes of a word make the word, and the rest of the stream is left. -/
theorem wordOfBytes_wordBytes_append (w : Word) (rest : List Byte) :
    wordOfBytes (wordBytes w ++ rest) = some (w, rest) := by
  have hjoin : w.extractLsb' 56 8 ++ w.extractLsb' 48 8 ++ w.extractLsb' 40 8 ++ w.extractLsb' 32 8 ++
      w.extractLsb' 24 8 ++ w.extractLsb' 16 8 ++ w.extractLsb' 8 8 ++ w.extractLsb' 0 8 = w := by
    iterate 7 rw [BitVec.extractLsb'_append_extractLsb'_eq_extractLsb' (by decide)]
    exact BitVec.extractLsb'_eq_self
  exact congrArg (fun v => some (v, rest)) hjoin

/-- Every command has a word, and it decodes to the command (R57, R61). -/
theorem decode_encode (i : Instr) : decode (encode i) = some i := by
  cases i <;>
    simp [encode, decode, opcField_commandWord, addrField_commandWord, argField_commandWord, dataField_commandWord]

/-- Settles O4: the bytes make the command's word, and the word decodes to the command. -/
theorem commandBytesDecodeFromStream : Obligations.CommandBytesDecodeFromStream := by
  intro i rest
  rw [decodeBytes, wordOfBytes_wordBytes_append]
  exact congrArg (Option.map _) (decode_encode i)

end Sys2Proof

namespace Sys2Proof.Machine

/-! ### The wavetable (R42, R82, R83, R187) -/

/-- No effect of a command touches the wavetable but that of a WT_WR of a legal sample to a cell of an unsealed table
(R42, R82). -/
theorem Effect.wt_cases {s t : State} {i : Instr} (he : Effect s i t) :
    t.wt = s.wt ∨ s.sealed = false ∧ ∃ (row : BitVec 8) (col : BitVec 16) (x : F32),
      row.toNat < s.par.depth ∧ col.toNat < s.par.length ∧ legalSample x = true ∧
      t.wt = s.wt.write (wtAddress row.toNat col.toNat) x := by
  cases he with
  | wtWr row col x _ hsealed hrow hcol hx => exact .inr ⟨hsealed, row, col, x, hrow, hcol, hx, rfl⟩
  | fault | readUnmapped => exact .inl (State.takeFault_wt ..)
  | noteOn => rw [State.allocate_frame]; exact .inl rfl
  | write _ _ _ _ _ _ _ hw => rw [State.writeReg_frame hw]; exact .inl rfl
  | nothing | read | tick | noteOff | wtSeal => exact .inl rfl

/-- No command unseals the table (R187). -/
theorem Effect.keeps_seal {s t : State} {i : Instr} (he : Effect s i t) (h : s.sealed = true) : t.sealed = true := by
  cases he with
  | wtSeal => rfl
  | fault | readUnmapped => exact (State.takeFault_sealed ..).trans h
  | noteOn => rw [State.allocate_frame]; exact h
  | write _ _ _ _ _ _ _ hw => rw [State.writeReg_frame hw]; exact h
  | nothing | read | tick | noteOff | wtWr => exact h

/-- The wavetable's legality speaks of the memory and the sizes of the table alone. -/
theorem State.TableLegal.congr {s t : State} (h : s.TableLegal) (hp : t.par = s.par) (hw : t.wt = s.wt) :
    t.TableLegal :=
  ⟨hw ▸ h.wf, hw ▸ hp ▸ h.cells⟩

/-- The row of a cell's address. -/
theorem wtAddress_div (row : Nat) {col : Nat} (h : col < 65536) : wtAddress row col / 65536 = row := by
  unfold wtAddress; omega

/-- The column of a cell's address. -/
theorem wtAddress_mod (row : Nat) {col : Nat} (h : col < 65536) : wtAddress row col % 65536 = col := by
  unfold wtAddress; omega

/-- Storing a legal sample in a cell of the table keeps the memory canonical and its cells legal. -/
theorem State.TableLegal.write {s t : State} (h : s.TableLegal) (hp : t.par = s.par) {row : BitVec 8}
    {col : BitVec 16} {x : F32} (hrow : row.toNat < s.par.depth) (hcol : col.toNat < s.par.length)
    (hx : legalSample x = true) (hw : t.wt = s.wt.write (wtAddress row.toNat col.toNat) x) : t.TableLegal where
  wf := hw ▸ Memory.write_wf h.wf _ _
  cells c hc := by
    rw [hw] at hc
    rw [hp]
    rcases Memory.mem_write hc with rfl | hold
    · exact ⟨by rwa [wtAddress_div _ col.isLt], by rwa [wtAddress_mod _ col.isLt], hx⟩
    · exact h.cells c hold

/-- Every command keeps the wavetable legal. -/
theorem Effect.tableLegal {s t : State} {i : Instr} (he : Effect s i t) (h : s.TableLegal) : t.TableLegal := by
  obtain ⟨hp, -, -⟩ := he.keeps
  rcases he.wt_cases with hw | ⟨-, row, col, x, hrow, hcol, hx, hw⟩
  · exact h.congr hp hw
  · exact h.write hp hrow hcol hx hw

/-- Settles O15: WT_WR alone writes a cell, inside the table and with a sample that passed its check, and the reset
empties the memory. -/
theorem stepKeepsWavetableLegal : Obligations.StepKeepsWavetableLegal := by
  intro s t hs hst
  exact step_keeps (P := State.TableLegal)
    (hport := fun _ _ h => h.congr rfl rfl)
    (hcount := fun _ h => h.congr rfl rfl)
    (hreset := fun s _ => ⟨reset_wt_wf s.par, nofun⟩)
    (hill := fun _ _ _ h => h.congr (State.takeFault_par ..) (State.takeFault_wt ..))
    (heff := fun _ _ _ he h => he.tableLegal h)
    hs hst

/-- A sealed core keeps its wavetable and its seal, whatever the command. -/
theorem Effect.keeps_sealed_table {s t : State} {i : Instr} (he : Effect s i t) (h : s.sealed = true) :
    t.wt = s.wt ∧ t.sealed = true := by
  refine ⟨?_, he.keeps_seal h⟩
  rcases he.wt_cases with hw | ⟨hopen, -⟩
  · exact hw
  · rw [h] at hopen
    cases hopen

/-- Settles O35: of all commands WT_WR alone writes the table and it does so before the seal only, no command unseals,
and an ILLEGAL word does nothing or takes a fault. -/
theorem sealedWavetableNeverChanges : Obligations.SealedWavetableNeverChanges := by
  intro s t w rest hs hport hst
  rw [step_word hport] at hst
  cases hd : decode w with
  | some i =>
    obtain ⟨u, hu, he⟩ := exec_total i { s with port := rest }
    rw [stepWord_legal _ hd, hu] at hst
    cases hst
    exact he.keeps_sealed_table hs
  | none =>
    rw [stepWord_illegal _ hd] at hst
    cases hst
    rcases State.illegalWord_cases { s with port := rest } w with e | e <;> rw [e]
    · exact ⟨rfl, hs⟩
    · exact ⟨State.takeFault_wt .., (State.takeFault_sealed ..).trans hs⟩

/-! ### Idempotent commands (R46) -/

/-! #### A second write of the same value changes nothing -/

/-- A second write of a value to a cell of a canonical memory changes nothing. -/
theorem Memory.write_write_same {m : Memory} (h : m.wf = true) (a : Nat) (v : F32) :
    (m.write a v).write a v = m.write a v := by
  have h' : (m.write a v).wf = true := Memory.write_wf h a v
  refine Memory.ext_of_wf (Memory.write_wf h' a v) h' fun b => ?_
  rw [Memory.read_write h']
  split
  · rename_i hb
    rw [hb, Memory.read_write_same h]
  · rfl

theorem EnvProps.write_again {p : Params} {e e' : EnvProps} {f : EnvField} {v : U32} (h : e.write p f v = some e') :
    e'.write p f v = some e' := by
  cases f <;> simp only [EnvProps.write, Option.map_eq_some_iff, Option.some.injEq] at h ⊢
  case delay | attack | hold | decay => subst h; rfl
  all_goals obtain ⟨x, hx, rfl⟩ := h; exact ⟨x, hx, rfl⟩

theorem LfoProps.write_again {p : Params} {l l' : LfoProps} {f : LfoField} {v : U32} (h : l.write p f v = some l') :
    l'.write p f v = some l' := by
  cases f <;> simp only [LfoProps.write, Option.map_eq_some_iff] at h ⊢ <;>
    obtain ⟨x, hx, rfl⟩ := h <;> exact ⟨x, hx, rfl⟩

theorem OpProps.write_again {o o' : OpProps} {f : OpField} {v : U32} (h : o.write f v = some o') :
    o'.write f v = some o' := by
  cases f <;> simp only [OpProps.write, Option.map_eq_some_iff] at h ⊢ <;>
    obtain ⟨x, hx, rfl⟩ := h <;> exact ⟨x, hx, rfl⟩

/-- A write of a list's element that changes nothing the second time changes nothing of the list. -/
theorem writeAt_again {α : Type} {xs ys : List α} {i : Nat} {f : α → Option α} (h : writeAt xs i f = some ys)
    (hf : ∀ x y, f x = some y → f y = some y) : writeAt ys i f = some ys := by
  obtain ⟨x, y, hx, hy, rfl⟩ := writeAt_eq_some.1 h
  obtain ⟨hlt, -⟩ := List.getElem?_eq_some_iff.1 hx
  exact writeAt_eq_some.2 ⟨y, y, List.getElem?_set_self hlt, hf x y hy, (List.set_set ..).symm⟩

/-- A second write of a value to a register other than POLY_MODE changes nothing. -/
theorem State.writeReg_again {s t : State} {r : Reg} {v : U32} (h : s.writeReg r v = some t) (hr : r ≠ .polyMode) :
    t.writeReg r v = some t := by
  cases r <;> simp only [State.writeReg, Option.map_eq_some_iff, reduceCtorEq] at h ⊢
  case polyMode => exact absurd rfl hr
  case clkTick => cases h; rfl
  case notePriority => split at h <;> cases h; exact if_pos ‹_›
  all_goals obtain ⟨x, hx, rfl⟩ := h
  case env => exact ⟨x, writeAt_again hx fun _ _ => EnvProps.write_again, rfl⟩
  case lfo => exact ⟨x, writeAt_again hx fun _ _ => LfoProps.write_again, rfl⟩
  case op => exact ⟨x, writeAt_again hx fun _ _ => OpProps.write_again, rfl⟩
  all_goals exact ⟨x, hx, rfl⟩

/-! #### What the commands do when their checks succeed, and RD -/

/-- WR of a legal value to a writable register. -/
theorem exec_wr {s t : State} {a : BitVec 16} {v : U32} {r : Reg} (hh : s.halted = false)
    (hr : regAt s.par a = some r) (hrw : r.access = .rw) (hw : s.writeReg r v = some t) :
    exec (.wr a v) s = .next t := by
  refine (next_running hh _).trans ?_
  simp [State.writeAddress, hr, hrw, hw]

/-- WT_WR of a legal sample to a cell of an unsealed table. -/
theorem exec_wtWr {s : State} {row : BitVec 8} {col : BitVec 16} {x : F32} (hh : s.halted = false)
    (hs : s.sealed = false) (hrow : row.toNat < s.par.depth) (hcol : col.toNat < s.par.length)
    (hx : legalSample x = true) :
    exec (.wtWr row col x) s = .next (s.wtWrite row.toNat col.toNat x) := by
  refine (next_running hh _).trans ?_
  simp [hs, hrow, hcol, hx]

/-- WT_SEAL on a running core. -/
theorem exec_wtSeal {s : State} (hh : s.halted = false) : exec .wtSeal s = .next { s with sealed := true } :=
  next_running hh _

/-- RD of a register. -/
theorem exec_rd_mapped {s : State} {a : BitVec 16} {v : U32} (h : s.peek a = some v) :
    exec (.rd a) s = .next (s.emitRead v) := by
  rw [exec, execRd, h]

/-- RD of an unmapped address. -/
theorem exec_rd_unmapped {s : State} {a : BitVec 16} (h : s.peek a = none) :
    exec (.rd a) s = .next ((s.emitRead 0).takeFault .badAddr (encode (.rd a))) := by
  rw [exec, execRd, h]

/-! #### A repeated command -/

/-- An RD does not look at the responses given before. -/
theorem State.peek_emitRead (s : State) (v : U32) (a : BitVec 16) : (s.emitRead v).peek a = s.peek a := rfl

/-- A fault whose bit is set leaves a halted core as it is. -/
theorem State.takeFault_again {s : State} {k : FaultKind} (hh : s.halted = true) (hk : s.err ||| k.bit = s.err)
    (w : Word) : s.takeFault k w = s := by
  rw [State.takeFault_halted hh, hk]

/-- On a core that a `BAD_ADDR` fault has halted, an RD of any address adds to the read stream alone. -/
theorem exec_rd_of_badAddr_set {t u : State} {a : BitVec 16} (hh : t.halted = true)
    (hk : t.err ||| FaultKind.badAddr.bit = t.err) (htu : exec (.rd a) t = .next u) :
    u = { t with reads := u.reads } := by
  cases ht : t.peek a with
  | some v =>
    cases (exec_rd_mapped ht).symm.trans htu
    rfl
  | none =>
    cases (exec_rd_unmapped ht).symm.trans htu
    rw [State.takeFault_again (s := t.emitRead 0) hh hk]
    rfl

/-- A repeated RD adds its response to the read stream and changes nothing else. -/
theorem exec_rd_again {s t u : State} {a : BitVec 16} (hst : exec (.rd a) s = .next t)
    (htu : exec (.rd a) t = .next u) : u = { t with reads := u.reads } := by
  cases hs : s.peek a with
  | some v =>
    cases (exec_rd_mapped hs).symm.trans hst
    cases (exec_rd_mapped ((s.peek_emitRead v a).trans hs)).symm.trans htu
    rfl
  | none =>
    cases (exec_rd_unmapped hs).symm.trans hst
    have hk := State.takeFault_err (s := s.emitRead 0) .badAddr (encode (.rd a))
    exact exec_rd_of_badAddr_set (State.takeFault_halted_eq ..)
      (by rw [hk, BitVec.or_assoc, BitVec.or_self]) htu

/-- A command that R46 calls idempotent, RD aside: repeated, it gives the state that it gave, for its fault has halted the
core, or it writes what is written. -/
theorem exec_again {s t : State} {i : Instr} (hwf : s.wt.wf = true) (htick : i ≠ .tick)
    (hon : ∀ n v, i ≠ .noteOn n v) (hoff : ∀ n v, i ≠ .noteOff n v) (hpoly : ∀ v, i ≠ .wr 0x0020#16 v)
    (hrd : ∀ a, i ≠ .rd a) (h : exec i s = .next t) : exec i t = .next t := by
  cases exec_effect h with
  | nothing => exact h
  | fault k => exact exec_halted (State.takeFault_halted_eq ..) hrd
  | read a | readUnmapped a => exact absurd rfl (hrd a)
  | tick => exact absurd rfl htick
  | noteOn n v => exact absurd rfl (hon n v)
  | noteOff n v => exact absurd rfl (hoff n v)
  | write a v r _ hh hr hrw hw =>
    obtain ⟨hpar, -, -⟩ := (exec_effect h).keeps
    have hht : t.halted = false := by rw [State.writeReg_frame hw]; exact hh
    have hne : r ≠ .polyMode := by
      rintro rfl
      have ha : a = 0x0020#16 := BitVec.eq_of_toNat_eq (regAtNat_sound hr).2
      exact hpoly v (by rw [ha])
    exact exec_wr hht (hpar ▸ hr) hrw (State.writeReg_again hw hne)
  | wtWr row col x hh hs hrow hcol hx =>
    rw [exec_wtWr (s := s.wtWrite row.toNat col.toNat x) hh hs hrow hcol hx]
    simp only [State.wtWrite, Memory.write_write_same hwf]
  | wtSeal hh => exact exec_wtSeal hh

/-- Settles O31: a command that faulted is discarded on the halted core, an RD adds to the read stream alone, and a write
stores what is stored already. -/
theorem otherCommandsAreIdempotent : Obligations.OtherCommandsAreIdempotent := by
  intro i s t u hwf htick hon hoff hpoly hst htu
  by_cases hrd : ∃ a, i = .rd a
  · obtain ⟨a, rfl⟩ := hrd
    exact exec_rd_again hst htu
  · have hagain := exec_again hwf htick hon hoff hpoly (not_exists.1 hrd) hst
    cases hagain.symm.trans htu
    rfl

end Sys2Proof.Machine

/-! PROOFS. The encoding statements (spec/30_encoding.md): decoding and encoding are inverse to each other (R57, R61),
the rows of the opcode table (R56), the worked words (R67) and the ILLEGAL word (R62). -/

namespace Sys2Proof

/-! ### Commands and their words (R55 to R57, R61) -/

/-- Settles O1: each field of the word that `encode` makes reads back as it was put in, and each command's opcode
selects its own branch of `decode`. -/
theorem decodeAfterEncodeIsIdentity : Obligations.DecodeAfterEncodeIsIdentity := decode_encode

/-- A word is made of given fields exactly when they are its fields (R55). -/
theorem commandWord_eq_iff {opc : BitVec 8} {addr : BitVec 16} {arg : BitVec 8} {data : U32} {w : Word} :
    commandWord opc addr arg data = w ↔
      opcField w = opc ∧ addrField w = addr ∧ argField w = arg ∧ dataField w = data := by
  constructor
  · rintro rfl
    exact ⟨opcField_commandWord .., addrField_commandWord .., argField_commandWord .., dataField_commandWord ..⟩
  · rintro ⟨rfl, rfl, rfl, rfl⟩
    exact commandWord_fields w

/-- Each branch of the decoder fixes the opcode and every field that its command does not carry, so the command
determines all four fields of the word (R57, R61). -/
theorem encode_of_decode {w : Word} {i : Instr} (h : decode w = some i) : encode i = w := by
  dsimp only [decode] at h
  split_ifs at h <;> cases h
  all_goals exact commandWord_eq_iff.2 (by simp [*])

/-- Settles O2: the four fields make the word, and the command determines each of them. -/
theorem encodeAfterDecodeIsIdentity : Obligations.EncodeAfterDecodeIsIdentity := fun _ _ => encode_of_decode

/-- The words of the commands are the legal words, one each (R57, R61). -/
theorem decode_eq_some_iff {w : Word} {i : Instr} : decode w = some i ↔ encode i = w :=
  ⟨encode_of_decode, fun h => h ▸ decode_encode i⟩

/-! ### The opcode table (R56) -/

/-- A mask acts on each field of a word by itself. -/
theorem and_commandWord_eq_iff (w : Word) (o o' : BitVec 8) (a a' : BitVec 16) (g g' : BitVec 8) (d d' : U32) :
    w &&& commandWord o a g d = commandWord o' a' g' d' ↔
      opcField w &&& o = o' ∧ addrField w &&& a = a' ∧ argField w &&& g = g' ∧ dataField w &&& d = d' := by
  have hand : w &&& commandWord o a g d =
      commandWord (opcField w &&& o) (addrField w &&& a) (argField w &&& g) (dataField w &&& d) := by
    rw [← Laws.TableRow.commandWord_and, commandWord_fields]
  rw [hand, eq_comm, commandWord_eq_iff, opcField_commandWord, addrField_commandWord, argField_commandWord,
    dataField_commandWord]

/-- The row of a command without operands: the mask covers the whole word. -/
theorem decode_eq_some_iff_and {w : Word} {i : Instr} :
    decode w = some i ↔ w &&& 0xFFFFFFFFFFFFFFFF#64 = encode i := by
  rw [decode_eq_some_iff, eq_comm, show w &&& 0xFFFFFFFFFFFFFFFF#64 = w from BitVec.and_allOnes]

/-- Settles O3: a row's commands have the words with the row's opcode and with 0 in the fields that the command does
not carry; those are the fields that the row's mask covers. -/
theorem decodeFollowsOpcodeTable : Obligations.DecodeFollowsOpcodeTable := by
  intro w
  have row := and_commandWord_eq_iff w (.allOnes 8)
  refine ⟨decode_eq_some_iff_and, decode_eq_some_iff_and,
    .trans ?noteOn (row 0x02 (.allOnes 16) 0 0 0 0 0).symm,
    .trans ?noteOff (row 0x03 (.allOnes 16) 0 0 0 0 0).symm,
    .trans ?wr (row 0x10 0 0 (.allOnes 8) 0 0 0).symm,
    .trans ?rd (row 0x11 0 0 (.allOnes 8) 0 (.allOnes 32) 0).symm,
    .trans ?wtWr (row 0x20 0 0 0 0 0 0).symm,
    decode_eq_some_iff_and⟩ <;>
  simp [decode_eq_some_iff, encode, commandWord_eq_iff, -BitVec.reduceAllOnes]

/-- Settles O5: each of the words is the encoding of its command. -/
theorem workedWordsDecode : Obligations.WorkedWordsDecode := by
  unfold Obligations.WorkedWordsDecode
  simp only [decode_eq_some_iff]
  decide

end Sys2Proof

namespace Sys2Proof.Machine

/-! ### The ILLEGAL word (R62) -/

/-- Settles O18: on a running core an ILLEGAL word is trap entry and the count, and nothing else. -/
theorem illegalWordFaults : Obligations.IllegalWordFaults := by
  intro s w rest hr hport hd
  have hrun : { s with port := rest }.halted = false := hr
  rw [step_word hport, stepWord_illegal _ hd, State.illegalWord, State.unlessHalted_running hrun,
    State.takeFault_running hrun]
  rfl

end Sys2Proof.Machine

/-! PROOFS. The command statements (spec/40_commands.md): the execution cycle (R68), the checks of the commands and
their order (R69 to R73, R82, R173), WR and RD register by register (R73 to R81), the wavetable commands and TICK. -/

namespace Sys2Proof.Machine

/-! ### The execution cycle (R68, R25) -/

/-- Settles O6: `step` takes the word from the port, runs the command it decodes to and counts it. -/
theorem stepRunsDecodedCommand : Obligations.StepRunsDecodedCommand := by
  intro s w rest i hport hd
  rw [step_word hport, stepWord_legal _ hd]
  rfl

/-- The word of a step is taken and counted, whatever it is and whether or not the core is halted: no effect of a command
and no trap entry touches the port or `CMD_SEQ`. -/
theorem stepWord_counts (w : Word) (s : State) :
    ∃ t, stepWord w s = .next t ∧ t.cmdSeq = s.cmdSeq + 1 ∧ t.port = s.port := by
  cases hd : decode w with
  | some i =>
    obtain ⟨u, hu, he⟩ := exec_total i s
    obtain ⟨-, hport, hseq⟩ := he.keeps
    exact ⟨u.countCommand, by rw [stepWord_legal s hd, hu]; rfl, by simp [hseq], by simp [hport]⟩
  | none =>
    refine ⟨_, stepWord_illegal s hd, ?_⟩
    rcases s.illegalWord_cases w with e | e <;> rw [e] <;> simp

/-- Settles O7: the step takes the word from the port, and the word's effect leaves the rest of the port alone and counts
the word. -/
theorem everyWordAdvancesCmdSeqByOne : Obligations.EveryWordAdvancesCmdSeqByOne := by
  intro s w rest hport
  rw [step_word hport]
  exact stepWord_counts w { s with port := rest }

/-! ### NOP (R69) -/

/-- Settles O30: a word with the opcode of NOP is NOP exactly when it is NOP's one word, and no other command has that
opcode. -/
theorem nopHasNoEffect : Obligations.NopHasNoEffect := by
  refine ⟨fun _ => rfl, fun w hw => ?_⟩
  split
  · subst w
    exact decode_encode .nop
  · rename_i hne
    cases hd : decode w with
    | none => rfl
    | some i =>
      have he := encode_of_decode hd
      subst he
      cases i with
      | nop => exact absurd rfl hne
      | _ => rw [encode, opcField_commandWord] at hw; cases hw

/-! ### Faults of a running core (R168, R173) -/

/-- Trap entry of a running core, as the statements write it. -/
theorem State.takeFault_eq_faulted {s : State} (h : s.running) (k : FaultKind) (w : Word) :
    s.takeFault k w = Claims.faulted s k.bit w :=
  State.takeFault_running h k w

/-- A command of a running core whose checks end in a fault. -/
theorem next_faulted {s : State} (h : s.running) {f : State → State} {k : FaultKind} {w : Word}
    (hf : f s = s.takeFault k w) :
    (.next (s.unlessHalted f) : Host.Outcome State Fault Refusal) = .next (Claims.faulted s k.bit w) := by
  rw [next_running h, hf, State.takeFault_eq_faulted h]

/-- Settles O44: the seal is TICK's one check. -/
theorem unsealedTickFaults : Obligations.UnsealedTickFaults := fun _ hr hs =>
  next_faulted (k := .notSealed) hr (if_neg (by simp [hs]))

/-- A note above 127 fails the first check, whatever the velocity. -/
theorem noteFault_badNote {note : BitVec 8} (h : 127 < note.toNat) (vel : F32) :
    noteFault note vel = some .badNote :=
  if_pos h

/-- A legal note with a velocity that is not finite fails the second check. -/
theorem noteFault_badValue {note : BitVec 8} {vel : F32} (h : note.toNat ≤ 127) (hv : F32.isFinite vel = false) :
    noteFault note vel = some .badValue := by
  rw [noteFault, if_neg (by omega), hv]
  rfl

/-- NOTE_ON with an operand that fails its check. -/
theorem exec_noteOn_fault {s : State} (h : s.running) {note : BitVec 8} {vel : F32} {k : FaultKind}
    (hk : noteFault note vel = some k) :
    exec (.noteOn note vel) s = .next (Claims.faulted s k.bit (encode (.noteOn note vel))) :=
  next_faulted h (by rw [hk])

/-- NOTE_OFF with an operand that fails its check. -/
theorem exec_noteOff_fault {s : State} (h : s.running) {note : BitVec 8} {vel : F32} {k : FaultKind}
    (hk : noteFault note vel = some k) :
    exec (.noteOff note vel) s = .next (Claims.faulted s k.bit (encode (.noteOff note vel))) :=
  next_faulted h (by rw [hk])

/-- Settles O40: both commands take the fault of `noteFault`, which asks for the note first. -/
theorem noteChecksInOrder : Obligations.NoteChecksInOrder := by
  intro s note vel hr
  refine ⟨fun hn => ?_, fun hn hv => ?_⟩
  · have hk := noteFault_badNote hn vel
    exact ⟨exec_noteOn_fault hr hk, exec_noteOff_fault hr hk⟩
  · have hk := noteFault_badValue hn hv
    exact ⟨exec_noteOn_fault hr hk, exec_noteOff_fault hr hk⟩

/-! ### The wavetable commands (R82, R83) -/

/-- The legal samples of R82, as the statements write them. -/
theorem legalSample_iff {x : F32} : legalSample x = true ↔
    F32.isFinite x = true ∧ F32.le F32.negOne x = true ∧ F32.le x F32.one = true := by
  simp only [legalSample, Bool.and_eq_true, and_assoc]

/-- Settles O33: the three checks in their order, each reached when those before it succeed. -/
theorem wavetableWriteChecksInOrder : Obligations.WavetableWriteChecksInOrder := by
  intro s row col x hr
  refine ⟨fun hs => ?_, fun hs hi => ?_, fun hs hrow hcol hx => ?_⟩
  · exact next_faulted (k := .wtLocked) hr (if_pos hs)
  · refine next_faulted (k := .badAddr) hr ?_
    have hout : ¬(row.toNat < s.par.depth ∧ col.toNat < s.par.length) := by omega
    simp only [hs, hout, Bool.false_eq_true, if_false, not_false_eq_true, if_true]
  · refine next_faulted (k := .badValue) hr ?_
    rw [← legalSample_iff] at hx
    simp only [hs, hrow, hcol, hx, Bool.false_eq_true, and_self, not_true_eq_false, if_false, not_false_eq_true, if_true]

/-- Settles O32: WT_WR writes the one cell that its row and column address, and distinct cells have distinct addresses. -/
theorem wavetableWriteStoresItsCell : Obligations.WavetableWriteStoresItsCell := by
  intro s row col x hr hs hwf hrow hcol hfin hlo hhi
  refine ⟨_, exec_wtWr hr hs hrow hcol (legalSample_iff.2 ⟨hfin, hlo, hhi⟩), ?_, fun r c hc hne => ?_, rfl⟩
  · exact Memory.read_write_same hwf _ x
  · refine Memory.read_write_other hwf x fun ha => ?_
    obtain ⟨rfl, rfl⟩ := (wtAddress_inj hc col.isLt).1 ha
    simp at hne

/-- Settles O34: WT_SEAL has no check, and on a sealed core it stores what is stored. -/
theorem sealSetsTheSealAlone : Obligations.SealSetsTheSealAlone := by
  intro s hr
  refine ⟨exec_wtSeal hr, fun hs => (exec_wtSeal hr).trans ?_⟩
  rw [← hs]

/-! ### TICK (R70) -/

/-- TICK on a sealed core. -/
theorem exec_tick {s : State} (h : s.playable) : exec .tick s = .next s.tickFrame :=
  (next_running h.1 _).trans (congrArg _ (if_pos h.2))

/-- Settles O42: the frame's computation moves the LFOs and the anchors alone, and `tickFrame` stores its results. -/
theorem tickEmitsOneFrame : Obligations.TickEmitsOneFrame := fun s _ hp =>
  ⟨s.tickFrame, exec_tick hp, rfl, rfl, s.frameAt_global_ticked, s.frameAt_voice_ticked, rfl⟩

/-! ### The values of the registers (R17 to R35, R81) -/

/-! #### The codes of R64, as the statements write them -/

theorem ModTarget.code_eq (t : ModTarget) : t.code = Claims.targetValue t := by cases t <;> rfl

theorem EnvProps.read_eq (e : EnvProps) (f : EnvField) : e.read f = Claims.envValue e f := by
  cases f
  case target => exact e.target.code_eq
  all_goals rfl

theorem LfoProps.read_eq (l : LfoProps) (f : LfoField) : l.read f = Claims.lfoValue l f := by
  cases f
  case target => exact l.target.code_eq
  all_goals rfl

theorem OpProps.read_eq (o : OpProps) (f : OpField) : o.read f = Claims.opValue o f := by
  cases f <;> rfl

theorem VoiceRec.read_eq (v : VoiceRec) (f : VoiceField) : v.read f = Claims.voiceValue v f := by
  cases f <;> rfl

theorem EnvState.read_eq (x : EnvState) (f : EnvStateField) : x.read f = Claims.envStateValue x f := by
  cases x <;> cases f <;> rfl

theorem LfoState.read_eq (x : LfoState) (f : LfoStateField) : x.read f = Claims.lfoStateValue x f := by
  cases f <;> rfl

/-- `STATUS` adds the weights of its two flags (R19). -/
theorem State.statusWord_toNat (s : State) :
    s.statusWord.toNat = (if s.halted then 1 else 0) + (if s.sealed then 2 else 0) := by
  unfold State.statusWord
  cases s.halted <;> cases s.sealed <;> rfl

/-- The high half of a command word (R22). -/
theorem toNat_highHalf (w : Word) : (w.extractLsb' 32 32).toNat = w.toNat / 2 ^ 32 := by
  have := w.isLt
  rw [BitVec.extractLsb'_toNat, Nat.shiftRight_eq_div_pow]
  omega

/-- The low half of a command word (R22). -/
theorem toNat_lowHalf (w : Word) : (w.extractLsb' 0 32).toNat = w.toNat % 2 ^ 32 := by
  rw [BitVec.extractLsb'_toNat, Nat.shiftRight_zero]

/-- `HAS_NOTE(n)` is 1 when some voice holds the note and 0 when none does (R31). -/
theorem State.hasNote_value (s : State) (n : Nat) :
    ((∃ w ∈ s.voice, w.note = some n) ∧ boolCode (s.hasNote n) = 1) ∨
      ((∀ w ∈ s.voice, w.note ≠ some n) ∧ boolCode (s.hasNote n) = 0) := by
  cases h : s.hasNote n with
  | true => exact .inl ⟨State.hasNote_iff.1 h, rfl⟩
  | false =>
    refine .inr ⟨fun w hw hn => ?_, rfl⟩
    rw [State.hasNote_iff.2 ⟨w, hw, hn⟩] at h
    cases h

/-- A pack that the state holds, as the statements write it. -/
theorem State.packOf_of_pack? {s : State} {k : PackId} {q : Pack} (h : s.pack? k = some q) : Claims.PackOf s k q := by
  cases k with
  | global => cases h; rfl
  | voice v =>
    obtain ⟨w, hw, rfl⟩ := Option.map_eq_some_iff.1 h
    exact ⟨w, hw, rfl⟩

/-- What a register reads is its value in terms of the state. -/
theorem State.registerHas_of_readReg {s : State} {r : Reg} {v : U32} (h : s.readReg r = some v) :
    Claims.RegisterHas s r v := by
  cases r <;> simp only [State.readReg, Option.map_eq_some_iff, Option.bind_eq_some_iff, Option.some.injEq] at h
  case env | lfo | op | voice =>
    obtain ⟨x, hx, rfl⟩ := h
    exact ⟨x, hx, x.read_eq _⟩
  case opAnchor => exact h
  case packEnv | packLfo =>
    obtain ⟨q, hq, x, hx, rfl⟩ := h
    exact ⟨q, x, State.packOf_of_pack? hq, hx, x.read_eq _⟩
  all_goals subst h
  case status => exact s.statusWord_toNat
  case err => exact BitVec.toNat_setWidth_of_le (by decide)
  case errCmdHi => exact toNat_highHalf _
  case errCmdLo => exact toNat_lowHalf _
  case polyMode => cases h : s.polyMode <;> simp [Claims.RegisterHas, h, PolyMode.code]
  case hasNote n => exact s.hasNote_value n
  all_goals rfl

/-! #### A sized state holds every slot of its core (R16, R40) -/

/-- An index below the length of a list. -/
theorem exists_getElem?_of_lt {α : Type} {xs : List α} {i n : Nat} (hl : xs.length = n) (hi : i < n) :
    ∃ x, xs[i]? = some x :=
  ⟨xs[i], List.getElem?_eq_getElem (hl ▸ hi)⟩

/-- A reading of an element at an index below the length of a list. -/
theorem exists_map_getElem?_of_lt {α β : Type} {xs : List α} {i n : Nat} (hl : xs.length = n) (hi : i < n)
    (g : α → β) : ∃ y, (xs[i]?).map g = some y := by
  obtain ⟨x, hx⟩ := exists_getElem?_of_lt hl hi
  exact ⟨g x, by rw [hx, Option.map_some]⟩

theorem State.Sized.exists_voice {s : State} (h : s.Sized) {i : Nat} (hi : i < s.par.voices) :
    ∃ v, s.voice[i]? = some v ∧ v.sized s.par := by
  obtain ⟨v, hv⟩ := exists_getElem?_of_lt h.voice hi
  exact ⟨v, hv, h.voices v (List.mem_of_getElem? hv)⟩

theorem State.Sized.exists_pack {s : State} (h : s.Sized) {k : PackId} (hk : ∀ v, k = .voice v → v < s.par.voices) :
    ∃ q, s.pack? k = some q ∧ q.sized s.par := by
  cases k with
  | global => exact ⟨s.global, rfl, h.global⟩
  | voice i =>
    obtain ⟨v, hv, -, hsize⟩ := h.exists_voice (hk i rfl)
    exact ⟨v.pack, by rw [State.pack?, hv, Option.map_some], hsize⟩

/-- Every register of the core reads a value. -/
theorem State.Sized.exists_readReg {s : State} (h : s.Sized) {r : Reg} (hm : Claims.Mapped s.par r) :
    ∃ v, s.readReg r = some v := by
  cases r with
  | env => exact exists_map_getElem?_of_lt h.env hm _
  | lfo => exact exists_map_getElem?_of_lt h.lfo hm _
  | op => exact exists_map_getElem?_of_lt h.op hm _
  | voice => exact exists_map_getElem?_of_lt h.voice hm _
  | opAnchor j i =>
    obtain ⟨hj, hi⟩ := hm
    obtain ⟨x, hx, hanchors, -⟩ := h.exists_voice hj
    obtain ⟨a, ha⟩ := exists_getElem?_of_lt hanchors hi
    exact ⟨a, by rw [State.readReg, hx, Option.bind_some, ha]⟩
  | packEnv k e f =>
    obtain ⟨hk, he⟩ := mapped_packEnv.1 hm
    obtain ⟨q, hq, henvs, -⟩ := h.exists_pack hk
    obtain ⟨v, hv⟩ := exists_map_getElem?_of_lt henvs he fun x => x.read f
    exact ⟨v, by rw [State.readReg, hq, Option.bind_some, hv]⟩
  | packLfo k l f =>
    obtain ⟨hk, hl⟩ := mapped_packLfo.1 hm
    obtain ⟨q, hq, -, hlfos⟩ := h.exists_pack hk
    obtain ⟨v, hv⟩ := exists_map_getElem?_of_lt hlfos hl fun x => x.read f
    exact ⟨v, by rw [State.readReg, hq, Option.bind_some, hv]⟩
  | _ => exact ⟨_, rfl⟩

/-- An RD of a mapped address reads its register. -/
theorem State.peek_of_regAt {s : State} {a : BitVec 16} {r : Reg} (h : regAt s.par a = some r) :
    s.peek a = s.readReg r := by
  rw [State.peek, h, Option.bind_some]

/-- Settles O27: a mapped address names a register of the core, which a sized state holds; the response is what it reads. -/
theorem readEmitsTheRegister : Obligations.ReadEmitsTheRegister := by
  intro s a r hs hr
  obtain ⟨v, hv⟩ := hs.exists_readReg (regAtNat_sound hr).1
  have hpeek : s.peek a = some v := (State.peek_of_regAt hr).trans hv
  exact ⟨v, State.registerHas_of_readReg hv, hpeek, exec_rd_mapped hpeek⟩

/-- Settles O28: the response 0 comes before trap entry, which does not touch the streams. -/
theorem unmappedReadEmitsZeroAndFaults : Obligations.UnmappedReadEmitsZeroAndFaults := by
  intro s a hr ha
  have hpeek : s.peek a = none := by rw [State.peek, ha, Option.bind_none]
  rw [exec_rd_unmapped hpeek, State.takeFault_eq_faulted (s := s.emitRead 0) hr]
  rfl

/-! ### WR (R73 to R80) -/

/-! #### The operand checks accept the legal values, and what they store reads back (R64, R74 to R79) -/

theorem boolOperand_isSome {v : U32} : (boolOperand v).isSome = true ↔ v.toNat ≤ 1 := by
  unfold boolOperand
  split_ifs <;> simp <;> bv_omega

theorem boolCode_of_boolOperand {v : U32} {b : Bool} (h : boolOperand v = some b) : boolCode b = v := by
  unfold boolOperand at h
  split_ifs at h <;> cases h <;> subst v <;> rfl

theorem unitOperand_isSome {v : U32} : (unitOperand v).isSome = true ↔ F32.isFinite v = true := by
  unfold unitOperand
  split_ifs <;> simp [*]

theorem eq_clampU_of_unitOperand {v : U32} {x : F32} (h : unitOperand v = some x) : x = F32.clampU v := by
  unfold unitOperand at h
  split_ifs at h
  cases h
  rfl

theorem freqOperand_isSome {v : U32} : (freqOperand v).isSome = true ↔
    F32.isFinite v = true ∧ F32.lt F32.zero v = true ∧ F32.le v F32.twoPow20 = true := by
  unfold freqOperand
  rw [← and_assoc, ← Bool.and_eq_true, ← Bool.and_eq_true]
  split_ifs <;> simp [*]

theorem eq_of_freqOperand {v : U32} {x : F32} (h : freqOperand v = some x) : x = v := by
  unfold freqOperand at h
  split_ifs at h
  cases h
  rfl

theorem nonzeroOperand_isSome {v : U32} : (nonzeroOperand v).isSome = true ↔ 1 ≤ v.toNat := by
  unfold nonzeroOperand
  split_ifs <;> simp <;> bv_omega

theorem eq_of_nonzeroOperand {v x : U32} (h : nonzeroOperand v = some x) : x = v := by
  unfold nonzeroOperand at h
  split_ifs at h
  cases h
  rfl

theorem targetOperand_isSome {p : Params} {v : U32} : (targetOperand p v).isSome = true ↔ v.toNat < 2 + p.oscs := by
  unfold targetOperand
  split_ifs <;> simp <;> bv_omega

theorem code_of_targetOperand {p : Params} {v : U32} {t : ModTarget} (h : targetOperand p v = some t) :
    t.code = v := by
  unfold targetOperand at h
  split_ifs at h <;> cases h
  · subst v; rfl
  · subst v; rfl
  · rename_i h0 h1 _
    have : 2 + (v.toNat - 2) = v.toNat := by bv_omega
    rw [ModTarget.code, this, BitVec.ofNat_toNat, BitVec.setWidth_eq]

theorem waveformOperand_isSome {v : U32} : (waveformOperand v).isSome = true ↔ v.toNat ≤ 4 := by
  unfold waveformOperand
  split_ifs <;> simp <;> bv_omega

theorem code_of_waveformOperand {v : U32} {w : Waveform} (h : waveformOperand v = some w) : w.code = v := by
  unfold waveformOperand at h
  split_ifs at h <;> cases h <;> subst v <;> rfl

theorem outputOperand_isSome {v : U32} : (outputOperand v).isSome = true ↔ v.toNat ≤ 3 := by
  unfold outputOperand
  split_ifs <;> simp <;> bv_omega

theorem code_of_outputOperand {v : U32} {o : Output} (h : outputOperand v = some o) : o.code = v := by
  unfold outputOperand at h
  split_ifs at h <;> cases h <;> subst v <;> rfl

theorem polyModeOperand_isSome {v : U32} : (polyModeOperand v).isSome = true ↔ v.toNat ≤ 1 := by
  unfold polyModeOperand
  split_ifs <;> simp <;> bv_omega

theorem code_of_polyModeOperand {v : U32} {m : PolyMode} (h : polyModeOperand v = some m) : m.code = v := by
  unfold polyModeOperand at h
  split_ifs at h <;> cases h <;> subst v <;> rfl

theorem tuneOperand_isSome {b : Int} {v : U32} : (tuneOperand b v).isSome = true ↔ -b ≤ v.toInt ∧ v.toInt ≤ b := by
  unfold tuneOperand
  split_ifs <;> simp [*]

theorem ofInt_of_tuneOperand {b : Int} {v : U32} {z : Int} (h : tuneOperand b v = some z) : BitVec.ofInt 32 z = v := by
  unfold tuneOperand at h
  split_ifs at h
  cases h
  exact BitVec.ofInt_toInt

theorem countOperand_isSome {p : Params} {v : U32} :
    (countOperand p v).isSome = true ↔ 1 ≤ v.toNat ∧ v.toNat ≤ p.voices := by
  unfold countOperand
  split_ifs <;> simp [*]

theorem ofNat_of_countOperand {p : Params} {v : U32} {n : Nat} (h : countOperand p v = some n) :
    BitVec.ofNat 32 n = v := by
  unfold countOperand at h
  split_ifs at h
  cases h
  rw [BitVec.ofNat_toNat, BitVec.setWidth_eq]

/-! #### The slots -/

theorem EnvProps.write_isSome (p : Params) (e : EnvProps) (i : Nat) (f : EnvField) (v : U32) :
    (e.write p f v).isSome = true ↔ Claims.LegalValue p (.env i f) v := by
  cases f <;> simp only [EnvProps.write, Option.isSome_map, Option.isSome_some, Claims.LegalValue, boolOperand_isSome,
    unitOperand_isSome, targetOperand_isSome, nonzeroOperand_isSome]

theorem LfoProps.write_isSome (p : Params) (l : LfoProps) (i : Nat) (f : LfoField) (v : U32) :
    (l.write p f v).isSome = true ↔ Claims.LegalValue p (.lfo i f) v := by
  cases f <;> simp only [LfoProps.write, Option.isSome_map, Claims.LegalValue, boolOperand_isSome, unitOperand_isSome,
    freqOperand_isSome, waveformOperand_isSome, targetOperand_isSome]

theorem OpProps.write_isSome (p : Params) (o : OpProps) (i : Nat) (f : OpField) (v : U32) :
    (o.write f v).isSome = true ↔ Claims.LegalValue p (.op i f) v := by
  cases f <;> simp only [OpProps.write, Option.isSome_map, Claims.LegalValue, boolOperand_isSome, unitOperand_isSome,
    outputOperand_isSome, tuneOperand_isSome]

theorem EnvProps.read_write {p : Params} {e e' : EnvProps} {f : EnvField} {v : U32} (h : e.write p f v = some e')
    (i : Nat) : e'.read f = Claims.storedValue (.env i f) v := by
  cases f <;> simp only [EnvProps.write, Option.map_eq_some_iff, Option.some.injEq] at h
  case delay | attack | hold | decay => subst h; rfl
  all_goals obtain ⟨x, hx, rfl⟩ := h
  case enabled => exact boolCode_of_boolOperand hx
  case amount | sustain => exact eq_clampU_of_unitOperand hx
  case target => exact code_of_targetOperand hx
  case release => exact eq_of_nonzeroOperand hx

theorem LfoProps.read_write {p : Params} {l l' : LfoProps} {f : LfoField} {v : U32} (h : l.write p f v = some l')
    (i : Nat) : l'.read f = Claims.storedValue (.lfo i f) v := by
  cases f <;> simp only [LfoProps.write, Option.map_eq_some_iff] at h <;> obtain ⟨x, hx, rfl⟩ := h
  case enabled => exact boolCode_of_boolOperand hx
  case amount | width => exact eq_clampU_of_unitOperand hx
  case freq => exact eq_of_freqOperand hx
  case waveform => exact code_of_waveformOperand hx
  case target => exact code_of_targetOperand hx

theorem OpProps.read_write {o o' : OpProps} {f : OpField} {v : U32} (h : o.write f v = some o') (i : Nat) :
    o'.read f = Claims.storedValue (.op i f) v := by
  cases f <;> simp only [OpProps.write, Option.map_eq_some_iff] at h <;> obtain ⟨x, hx, rfl⟩ := h
  case enabled => exact boolCode_of_boolOperand hx
  case output => exact code_of_outputOperand hx
  case tuneSemi | tuneCents => exact ofInt_of_tuneOperand hx
  case wtPos => exact eq_clampU_of_unitOperand hx

theorem EnvProps.read_write_other {p : Params} {e e' : EnvProps} {f g : EnvField} {v : U32}
    (h : e.write p f v = some e') (hne : g ≠ f) : e'.read g = e.read g := by
  cases f <;> simp only [EnvProps.write, Option.map_eq_some_iff, Option.some.injEq] at h
  case delay | attack | hold | decay => subst h; cases g <;> trivial
  all_goals obtain ⟨x, -, rfl⟩ := h; cases g <;> trivial

theorem LfoProps.read_write_other {p : Params} {l l' : LfoProps} {f g : LfoField} {v : U32}
    (h : l.write p f v = some l') (hne : g ≠ f) : l'.read g = l.read g := by
  cases f <;> simp only [LfoProps.write, Option.map_eq_some_iff] at h <;> obtain ⟨x, -, rfl⟩ := h <;>
    cases g <;> trivial

theorem OpProps.read_write_other {o o' : OpProps} {f g : OpField} {v : U32}
    (h : o.write f v = some o') (hne : g ≠ f) : o'.read g = o.read g := by
  cases f <;> simp only [OpProps.write, Option.map_eq_some_iff] at h <;> obtain ⟨x, -, rfl⟩ := h <;>
    cases g <;> trivial

/-! #### The lists of slots -/

/-- A write of an element that is there succeeds exactly when its own write does. -/
theorem writeAt_isSome {α : Type} {xs : List α} {i : Nat} {x : α} (hx : xs[i]? = some x) (f : α → Option α) :
    (writeAt xs i f).isSome = (f x).isSome := by
  rw [writeAt, hx, Option.bind_some, Option.isSome_map]

/-- What is read of the element written. -/
theorem map_getElem?_writeAt {α β : Type} {xs ys : List α} {i : Nat} {f : α → Option α} {g : α → β} {b : β}
    (h : writeAt xs i f = some ys) (hg : ∀ x y, f x = some y → g y = b) : (ys[i]?).map g = some b := by
  obtain ⟨x, y, hx, hy, rfl⟩ := writeAt_eq_some.1 h
  obtain ⟨hlt, -⟩ := List.getElem?_eq_some_iff.1 hx
  rw [List.getElem?_set_self hlt, Option.map_some, hg x y hy]

/-- What is read of another element, or of a part of the element that the write keeps. -/
theorem map_getElem?_writeAt_other {α β : Type} {xs ys : List α} {i j : Nat} {f : α → Option α} {g : α → β}
    (h : writeAt xs i f = some ys) (hg : j = i → ∀ x y, f x = some y → g y = g x) :
    (ys[j]?).map g = (xs[j]?).map g := by
  obtain ⟨x, y, hx, hy, rfl⟩ := writeAt_eq_some.1 h
  obtain ⟨hlt, -⟩ := List.getElem?_eq_some_iff.1 hx
  by_cases hj : j = i
  · subst hj
    rw [List.getElem?_set_self hlt, hx, Option.map_some, Option.map_some, hg rfl x y hy]
  · rw [List.getElem?_set_ne (Ne.symm hj)]

/-! #### The register space -/

/-- A WR of a register of the core is accepted exactly for the legal values. -/
theorem State.Sized.writeReg_isSome {s : State} (hs : s.Sized) {r : Reg} (hm : Claims.Mapped s.par r) (v : U32) :
    (s.writeReg r v).isSome = true ↔ Claims.LegalValue s.par r v := by
  cases r
  case env e f =>
    obtain ⟨x, hx⟩ := exists_getElem?_of_lt hs.env hm
    rw [State.writeReg, Option.isSome_map, writeAt_isSome hx, x.write_isSome s.par e f v]
  case lfo l f =>
    obtain ⟨x, hx⟩ := exists_getElem?_of_lt hs.lfo hm
    rw [State.writeReg, Option.isSome_map, writeAt_isSome hx, x.write_isSome s.par l f v]
  case op i f =>
    obtain ⟨x, hx⟩ := exists_getElem?_of_lt hs.op hm
    rw [State.writeReg, Option.isSome_map, writeAt_isSome hx, x.write_isSome s.par i f v]
  case notePriority => exact Option.isSome_ite
  all_goals simp only [State.writeReg, Option.isSome_map, Option.isSome_some, Option.isSome_none, Bool.false_eq_true,
    Claims.LegalValue, boolOperand_isSome, unitOperand_isSome, nonzeroOperand_isSome, polyModeOperand_isSome,
    countOperand_isSome]

/-- What a write stored is what the register then reads. -/
theorem State.readReg_writeReg {s t : State} {r : Reg} {v : U32} (h : s.writeReg r v = some t) :
    t.readReg r = some (Claims.storedValue r v) := by
  cases r <;> simp only [State.writeReg, Option.map_eq_some_iff, Option.some.injEq, reduceCtorEq] at h
  case clkTick => subst h; rfl
  case notePriority =>
    split at h <;> cases h
    subst v
    rfl
  all_goals obtain ⟨x, hx, rfl⟩ := h
  case env e f => exact map_getElem?_writeAt hx fun _ _ hw => EnvProps.read_write hw e
  case lfo l f => exact map_getElem?_writeAt hx fun _ _ hw => LfoProps.read_write hw l
  case op i f => exact map_getElem?_writeAt hx fun _ _ hw => OpProps.read_write hw i
  case irqEn => exact congrArg some (boolCode_of_boolOperand hx)
  case clkRate => exact congrArg some (eq_of_nonzeroOperand hx)
  case polyMode => exact congrArg some (code_of_polyModeOperand hx)
  case uniCount => exact congrArg some (ofNat_of_countOperand hx)
  all_goals exact congrArg some (eq_clampU_of_unitOperand hx)

/-- A write to a register other than POLY_MODE leaves what every other register reads. -/
theorem State.readReg_writeReg_other {s t : State} {r q : Reg} {v : U32} (h : s.writeReg r v = some t)
    (hr : r ≠ .polyMode) (hq : q ≠ r) : t.readReg q = s.readReg q := by
  cases r <;> simp only [State.writeReg, Option.map_eq_some_iff, Option.some.injEq, reduceCtorEq] at h
  case polyMode => exact absurd rfl hr
  case notePriority => split at h <;> cases h; rfl
  case clkTick => subst h; cases q <;> trivial
  all_goals obtain ⟨x, hx, rfl⟩ := h
  case env e f =>
    cases q
    case env e' f' =>
      exact map_getElem?_writeAt_other hx fun he _ _ hw => EnvProps.read_write_other hw fun hf => hq (by rw [he, hf])
    all_goals rfl
  case lfo l f =>
    cases q
    case lfo l' f' =>
      exact map_getElem?_writeAt_other hx fun hl _ _ hw => LfoProps.read_write_other hw fun hf => hq (by rw [hl, hf])
    all_goals rfl
  case op i f =>
    cases q
    case op i' f' =>
      exact map_getElem?_writeAt_other hx fun hi _ _ hw => OpProps.read_write_other hw fun hf => hq (by rw [hi, hf])
    all_goals rfl
  all_goals cases q <;> trivial

/-! #### The command -/

/-- WR to an unmapped address. -/
theorem exec_wr_unmapped {s : State} (hr : s.running) {a : BitVec 16} (ha : regAt s.par a = none) (v : U32) :
    exec (.wr a v) s = .next (Claims.faulted s FaultKind.badAddr.bit (encode (.wr a v))) :=
  next_faulted hr (by rw [State.writeAddress, ha])

/-- WR to a read-only register. -/
theorem exec_wr_readOnly {s : State} (hr : s.running) {a : BitVec 16} {r : Reg} (ha : regAt s.par a = some r)
    (hro : r.access = .ro) (v : U32) :
    exec (.wr a v) s = .next (Claims.faulted s FaultKind.roWrite.bit (encode (.wr a v))) :=
  next_faulted hr (by simp only [State.writeAddress, ha, hro, if_true])

/-- WR of a value that the register refuses. -/
theorem exec_wr_badValue {s : State} (hr : s.running) {a : BitVec 16} {r : Reg} {v : U32}
    (ha : regAt s.par a = some r) (hrw : r.access = .rw) (hw : s.writeReg r v = none) :
    exec (.wr a v) s = .next (Claims.faulted s FaultKind.badValue.bit (encode (.wr a v))) :=
  next_faulted hr (by simp only [State.writeAddress, ha, hrw, hw, reduceCtorEq, if_false])

/-- Settles O24: each check of WR in its order; a register of the core accepts exactly its legal values, and what is
stored reads back. -/
theorem writeStoresLegalValuesOrFaults : Obligations.WriteStoresLegalValuesOrFaults := by
  intro s a v hs hr
  refine ⟨fun ha => exec_wr_unmapped hr ha v, fun r ha hro => exec_wr_readOnly hr ha hro v,
    fun r ha hrw hv => ?_, fun r ha hrw hv => ?_⟩
  · rw [← hs.writeReg_isSome (regAtNat_sound ha).1, Option.not_isSome_iff_eq_none] at hv
    exact exec_wr_badValue hr ha hrw hv
  · rw [← hs.writeReg_isSome (regAtNat_sound ha).1] at hv
    obtain ⟨t, ht⟩ := Option.isSome_iff_exists.1 hv
    have hpar : t.par = s.par := by rw [State.writeReg_frame ht]
    refine ⟨t, exec_wr hr ha hrw ht, by rw [State.writeReg_frame ht]; exact hr, ?_⟩
    rw [State.peek_of_regAt (hpar ▸ ha), State.readReg_writeReg ht]

/-- A write to a register other than POLY_MODE leaves what every other address reads. -/
theorem State.peek_writeReg_other {s t : State} {a b : BitVec 16} {r : Reg} {v : U32} (h : s.writeReg r v = some t)
    (ha : regAt s.par a = some r) (hr : r ≠ .polyMode) (hb : b ≠ a) : t.peek b = s.peek b := by
  have hpar : t.par = s.par := by rw [State.writeReg_frame h]
  rw [State.peek, State.peek, hpar]
  refine Option.bind_congr fun q hq => State.readReg_writeReg_other h hr ?_
  rintro rfl
  exact hb (BitVec.eq_of_toNat_eq ((regAtNat_sound hq).2.trans (regAtNat_sound ha).2.symm))

/-- Settles O25: distinct addresses name distinct registers, a write leaves what the others read, and it touches neither
the wavetable nor the streams. -/
theorem legalWriteChangesItsRegisterAlone : Obligations.LegalWriteChangesItsRegisterAlone := by
  intro s t a v r hs hr ha hrw hv hne hst
  rw [← hs.writeReg_isSome (regAtNat_sound ha).1] at hv
  obtain ⟨u, hu⟩ := Option.isSome_iff_exists.1 hv
  cases (exec_wr hr ha hrw hu).symm.trans hst
  refine ⟨fun b hb => State.peek_writeReg_other hu ha hne hb, ?_⟩
  rw [State.writeReg_frame hu]
  exact ⟨rfl, rfl, rfl, rfl, rfl⟩

end Sys2Proof.Machine

/-! PROOFS. The phase accumulator (spec/41_phase_accumulator.md): the fractional part (R94), the phase at the anchor
(R89, R90, R93) and the frozen phase of a slow LFO (R98, R191). -/

namespace Sys2Proof.F32

/-! ### The order of the binary32 values -/

theorem le_iff {a b : F32} : le a b = true ↔ isNaN a = false ∧ isNaN b = false ∧ key a ≤ key b := by
  simp [le, and_assoc]

theorem lt_iff {a b : F32} : lt a b = true ↔ isNaN a = false ∧ isNaN b = false ∧ key a < key b := by
  simp [lt, and_assoc]

protected theorem le_trans {a b c : F32} (hab : le a b = true) (hbc : le b c = true) : le a c = true := by
  obtain ⟨ha, -, hkab⟩ := le_iff.1 hab
  obtain ⟨-, hc, hkbc⟩ := le_iff.1 hbc
  exact le_iff.2 ⟨ha, hc, hkab.trans hkbc⟩

/-- The values that are at least 0 are those without a sign, and -0.0. -/
theorem zero_le_iff {a : F32} (ha : mag a ≤ infMag) : le zero a = true ↔ sign a = false ∨ mag a = 0 := by
  simp only [le_iff, isNaN_zero, isNaN_of_le ha, key_zero, true_and]
  cases hs : sign a
  · simp [key_of_nonneg hs]
  · simp [key_of_neg hs]

theorem key_le_mag (a : F32) : key a ≤ mag a := by
  unfold key; split <;> omega

/-- Below a value without a sign lies every value of no greater magnitude. -/
theorem le_of_mag_le {a b : F32} (hb : sign b = false) (hfin : mag b ≤ infMag) (h : mag a ≤ mag b) :
    le a b = true := by
  rw [le_iff, key_of_nonneg hb]
  exact ⟨isNaN_of_le (h.trans hfin), isNaN_of_le hfin, (key_le_mag a).trans (by exact_mod_cast h)⟩

theorem lt_of_mag_lt {a b : F32} (hb : sign b = false) (hfin : mag b ≤ infMag) (h : mag a < mag b) :
    lt a b = true := by
  rw [lt_iff, key_of_nonneg hb]
  exact ⟨isNaN_of_le (h.le.trans hfin), isNaN_of_le hfin, (key_le_mag a).trans_lt (by exact_mod_cast h)⟩

/-- Above a value without a sign every value has no smaller magnitude. -/
theorem mag_le_of_le {a b : F32} (ha : sign a = false) (h : le a b = true) : mag a ≤ mag b := by
  obtain ⟨-, -, hk⟩ := le_iff.1 h
  rw [key_of_nonneg ha] at hk
  exact_mod_cast hk.trans (key_le_mag b)

theorem sign_one : sign one = false := by decide
theorem mag_one : mag one = 0x3F800000 := by decide

/-- A positive value has no sign and is not zero. -/
theorem sign_mag_of_pos {a : F32} (h : lt zero a = true) : sign a = false ∧ mag a ≠ 0 := by
  obtain ⟨-, -, hk⟩ := lt_iff.1 h
  rw [key_zero] at hk
  cases hs : sign a
  · rw [key_of_nonneg hs] at hk
    exact ⟨rfl, by omega⟩
  · rw [key_of_neg hs] at hk
    omega

/-! ### Exact rounding -/

/-- A magnitude of at least 1.0 is at least 2^149 units. -/
theorem le_magUnits_of_one_le {a : F32} (ha : mag a ≤ infMag) (h : 0x3F800000 ≤ mag a) : 2 ^ 149 ≤ magUnits a := by
  rw [magUnits_eq, ← unitsOfMag_one]
  exact (unitsOfMag_le_iff (by decide) ha).2 h

/-- A binary32 is a multiple of the spacing of its significands. -/
theorem spacing_dvd_unitsOfMag (m : Nat) : 2 ^ (m / 2 ^ 23 - 1) ∣ unitsOfMag m := by
  unfold unitsOfMag
  split
  · rw [show m / 2 ^ 23 - 1 = 0 by omega]
    exact one_dvd _
  · exact Nat.dvd_mul_left _ _

theorem unitsOfMag_lt_spacing (m : Nat) : unitsOfMag m < 2 ^ 24 * 2 ^ (m / 2 ^ 23 - 1) := by
  unfold unitsOfMag
  split
  · exact (by omega : m < 2 ^ 24).trans_le (Nat.le_mul_of_pos_right _ (by positivity))
  · exact Nat.mul_lt_mul_of_pos_right (by omega) (by positivity)

/-- Rounding is exact on the multiples of a binary32's spacing that do not exceed it. -/
theorem unitsOfMag_roundMag_of_dvd {n m : Nat} (hm : m < infMag) (hle : n ≤ unitsOfMag m)
    (hdvd : 2 ^ (m / 2 ^ 23 - 1) ∣ n) : unitsOfMag (roundMag n 1) = n := by
  have hfin : roundMag n 1 < infMag := (roundMag_le_of_le hm.le Nat.one_pos (by omega)).trans_lt hm
  have hlog : n.log2 - 23 ≤ m / 2 ^ 23 - 1 := by
    rcases eq_or_ne n 0 with rfl | hn
    · simp
    · have : n.log2 < 24 + (m / 2 ^ 23 - 1) := (Nat.log2_lt hn).2 <| by
        rw [pow_add]
        exact hle.trans_lt (unitsOfMag_lt_spacing m)
      omega
  obtain ⟨q, hq⟩ := (pow_dvd_pow 2 hlog).trans hdvd
  rw [unitsOfMag_roundMag Nat.one_pos hfin, Nat.div_one, one_mul]
  generalize n.log2 - 23 = sh at hq
  rw [hq, mul_comm (2 ^ sh) q, nearest_exact (by positivity)]

/-- A value's integer part lies on its grid. -/
theorem pow_dvd_floor {n e : Nat} (k : Nat) (h : 2 ^ e ∣ n) : 2 ^ e ∣ n / 2 ^ k * 2 ^ k := by
  rcases le_total e k with hek | hke
  · exact (pow_dvd_pow 2 hek).mul_left _
  · rwa [Nat.div_mul_cancel ((pow_dvd_pow 2 hke).trans h)]

/-! ### The fractional part (R94) -/

theorem magUnits_neg (a : F32) : magUnits (neg a) = magUnits a := by
  rw [magUnits_eq, magUnits_eq, mag_neg]

theorem units_neg (a : F32) : units (neg a) = -units a := by
  rw [units_eq_signedInt, units_eq_signedInt, sign_neg, magUnits_neg, signedInt_not]

theorem fract_zero : fract zero = zero := by decide

theorem sign_ofNat (n : Nat) : sign (ofNat n) = false := sign_pack (roundMag_lt _ _)

theorem mag_ofNat (n : Nat) : mag (ofNat n) = roundMag (n * 2 ^ 149) 1 := mag_pack (roundMag_lt _ _)

theorem units_of_sign_or_zero {p : F32} (hp : sign p = false ∨ mag p = 0) : units p = magUnits p := by
  rcases hp with hs | h0
  · exact units_of_nonneg hs
  · have : magUnits p = 0 := by simp [magUnits, h0]
    simp [units, this]

section
variable {p : F32} (hfin : mag p < infMag) (hp : sign p = false ∨ mag p = 0)
include hfin hp

theorem floor_eq : floor p = magUnits p / 2 ^ 149 := by
  have : (isFinite p && (!sign p || isZero p)) = true := by simpa [isFinite, isZero] using ⟨hfin, hp⟩
  rw [floor, if_pos this]

/-- The integer part is a binary32, no greater than the value. -/
theorem ofNat_floor :
    mag (ofNat (floor p)) < infMag ∧ units (ofNat (floor p)) = (magUnits p / 2 ^ 149 * 2 ^ 149 : Nat) := by
  have hle : magUnits p / 2 ^ 149 * 2 ^ 149 ≤ unitsOfMag (mag p) := Nat.div_mul_le_self _ _
  rw [units_of_nonneg (sign_ofNat _), magUnits_eq, mag_ofNat, floor_eq hfin hp]
  exact ⟨(roundMag_le_of_le hfin.le Nat.one_pos (by omega)).trans_lt hfin,
    congrArg _ (unitsOfMag_roundMag_of_dvd hfin hle (pow_dvd_floor 149 (spacing_dvd_unitsOfMag _)))⟩

/-- `fract` rounds the exact fractional part. -/
theorem fract_eq : fract p = ofUnits (sign p) (magUnits p % 2 ^ 149 : Nat) 1 := by
  obtain ⟨hmag, hunits⟩ := ofNat_floor hfin hp
  have hrem : (magUnits p : Int) + -(magUnits p / 2 ^ 149 * 2 ^ 149 : Nat) = (magUnits p % 2 ^ 149 : Nat) := by
    have := Nat.div_add_mod' (magUnits p) (2 ^ 149)
    omega
  rw [fract, sub, add_finite hfin (by rwa [mag_neg]), units_neg, hunits, units_of_sign_or_zero hp, hrem,
    sign_neg, sign_ofNat, Bool.not_false, Bool.and_true]

theorem mag_fract : mag (fract p) = roundMag (magUnits p % 2 ^ 149) 1 := by
  rw [fract_eq hfin hp, mag_ofUnits]
  split
  · rename_i h0
    rw [show magUnits p % 2 ^ 149 = 0 by exact_mod_cast h0]
    decide
  · rfl

theorem sign_fract : sign (fract p) = false ∨ mag (fract p) = 0 := by
  rw [fract_eq hfin hp, mag_ofUnits, sign_ofUnits]
  split
  · exact .inr rfl
  · exact .inl (by simp; omega)

/-- The fractional part is exact (R94): it is itself a binary32. -/
theorem magUnits_fract : magUnits (fract p) = magUnits p % 2 ^ 149 := by
  have hdvd : 2 ^ (mag p / 2 ^ 23 - 1) ∣ magUnits p % 2 ^ 149 := by
    rw [← Nat.sub_eq_of_eq_add' (Nat.div_add_mod' (magUnits p) (2 ^ 149)).symm]
    exact Nat.dvd_sub (spacing_dvd_unitsOfMag _) (pow_dvd_floor 149 (spacing_dvd_unitsOfMag _))
  rw [magUnits_eq, mag_fract hfin hp]
  exact unitsOfMag_roundMag_of_dvd hfin (Nat.mod_le _ _) hdvd

end

/-- Settles O55: the fractional part is exact, so it is the remainder of the units modulo 2^149, the units of 1.0, and
from 2^23 on the units are a multiple of these. -/
theorem fractionLiesBelowOne : Obligations.FractionLiesBelowOne := by
  intro p hfin hle
  have hfin := mag_lt_of_isFinite hfin
  have hp := (zero_le_iff hfin.le).1 hle
  have hunits := magUnits_fract hfin hp
  have hmag : mag (fract p) < 0x3F800000 := by
    by_contra hc
    have hone := le_magUnits_of_one_le (mag_fract hfin hp ▸ roundMag_le _ _) (Nat.not_lt.1 hc)
    rw [hunits] at hone
    exact absurd hone (Nat.not_le.2 (Nat.mod_lt _ (by norm_num)))
  refine ⟨(zero_le_iff (lt_inf (by omega)).le).2 (sign_fract hfin hp), lt_of_mag_lt sign_one (by decide) hmag,
    fun hbig => ?_⟩
  have hge : 0x4B000000 ≤ mag p := mag_le_of_le (a := 0x4B000000#32) (by decide) hbig
  have hdvd : 2 ^ 149 ∣ magUnits p :=
    (pow_dvd_pow 2 (by omega : 149 ≤ mag p / 2 ^ 23 - 1)).trans (spacing_dvd_unitsOfMag _)
  rw [isZero, mag_fract hfin hp, Nat.mod_eq_zero_of_dvd hdvd]
  decide

/-! ### Products and quotients -/

theorem roundMag_zero {d : Nat} (hd : 0 < d) : roundMag 0 d = 0 :=
  Nat.le_zero.1 (roundMag_le_of_le (by decide) hd (Nat.zero_le _))

theorem zero_mul_pos {b : F32} (hb : mag b < infMag) (hs : sign b = false) : mul zero b = zero := by
  rw [mul_finite (by decide) hb, hs, show magUnits zero = 0 by decide, Nat.zero_mul, roundMag_zero (by positivity)]
  decide

theorem zero_div_pos {b : F32} (hb : mag b < infMag) (hs : sign b = false) (h0 : isZero b = false) :
    div zero b = zero := by
  rw [div_finite (by decide) hb (of_decide_eq_false h0), hs, show magUnits zero = 0 by decide, Nat.zero_mul,
    roundMag_zero (magUnits_pos h0)]
  decide

/-- A factor of at most 1.0 makes no product greater than the other factor. -/
theorem mul_bound {a b : F32} (ha : mag a < infMag) (hb : mag b ≤ 0x3F800000) :
    sign (mul a b) = (sign a != sign b) ∧ mag (mul a b) ≤ mag a := by
  rw [mul_finite ha (lt_inf (by omega)), sign_pack (roundMag_lt _ _), mag_pack (roundMag_lt _ _)]
  exact ⟨rfl, roundMag_le_of_le ha.le (by positivity) (Nat.mul_le_mul_left _ (magUnits_le_one hb))⟩

/-- A divisor of at least 1.0 makes no quotient greater than the dividend. -/
theorem div_bound {a b : F32} (ha : mag a < infMag) (hb : mag b < infMag) (h1 : 0x3F800000 ≤ mag b) :
    sign (div a b) = (sign a != sign b) ∧ mag (div a b) ≤ mag a := by
  have hunits := le_magUnits_of_one_le hb.le h1
  rw [div_finite ha hb (by omega), sign_pack (roundMag_lt _ _), mag_pack (roundMag_lt _ _)]
  exact ⟨rfl, roundMag_le_of_le ha.le (by omega) (Nat.mul_le_mul_left _ hunits)⟩

/-- The reciprocal of a positive value of at most 1.0 is at least 1.0; it may be the infinity. -/
theorem one_le_one_div {f : F32} (hs : sign f = false) (h0 : isZero f = false) (h1 : mag f ≤ 0x3F800000) :
    le one (div one f) = true := by
  rw [div_finite (by decide) (lt_inf (by omega)) (of_decide_eq_false h0), hs, sign_one]
  refine le_of_mag_le (sign_pack (roundMag_lt _ _)) (by rw [mag_pack (roundMag_lt _ _)]; exact roundMag_le _ _) ?_
  rw [mag_pack (roundMag_lt _ _), mag_one]
  refine le_roundMag_of_le (by decide) (magUnits_pos h0) ?_
  rw [magUnits_eq one, mag_one, unitsOfMag_one]
  exact Nat.mul_le_mul_left _ (magUnits_le_one h1)

/-- `fl(1 - p)` is at most 1.0 for every finite `p` without a sign. -/
theorem one_sub_le_one {p : F32} (hfin : mag p < infMag) (hs : sign p = false) : le (sub one p) one = true := by
  have hsub : sub one p = ofUnits false (2 ^ 149 - magUnits p) 1 := by
    rw [sub, add_finite (by decide) (by rwa [mag_neg]), units_one, units_neg, units_of_nonneg hs]
    rfl
  rw [hsub]
  by_cases hneg : (2 ^ 149 - magUnits p : Int) < 0
  · have hkey : key (ofUnits false (2 ^ 149 - magUnits p) 1) ≤ 0 := by
      rw [key_of_neg (by rw [sign_ofUnits, if_neg hneg.ne, decide_eq_true hneg])]
      omega
    refine le_iff.2 ⟨isNaN_of_le ?_, isNaN_one, hkey.trans (by decide)⟩
    rw [mag_ofUnits, if_neg hneg.ne]
    exact roundMag_le _ _
  · refine le_of_mag_le sign_one (by decide) ?_
    rw [mag_ofUnits, mag_one]
    split
    · decide
    · exact roundMag_le_of_le (by decide) Nat.one_pos (by rw [unitsOfMag_one]; omega)

/-! ### Conversions of a 32-bit word -/

theorem mag_ofNat_lt {n : Nat} (h : n < 2 ^ 32) : mag (ofNat n) < infMag := by
  have h32 : unitsOfMag 0x4F800000 = 2 ^ 32 * 2 ^ 149 := by decide +kernel
  have hle : roundMag (n * 2 ^ 149) 1 ≤ 0x4F800000 := roundMag_le_of_le (by decide) Nat.one_pos (by omega)
  rw [mag_ofNat]
  exact hle.trans_lt (by decide)

theorem one_le_mag_ofNat {n : Nat} (h : n ≠ 0) : 0x3F800000 ≤ mag (ofNat n) := by
  rw [mag_ofNat]
  exact le_roundMag_of_le (by decide) Nat.one_pos (by rw [unitsOfMag_one]; omega)

end Sys2Proof.F32

namespace Sys2Proof.Machine

/-! ### The clock (R88 to R90, R92) -/

theorem Clock.sign_sr (c : Clock) : F32.sign c.sr = false := F32.sign_ofNat _

theorem Clock.mag_sr_lt (c : Clock) : F32.mag c.sr < F32.infMag := F32.mag_ofNat_lt c.rate.isLt

theorem Clock.one_le_mag_sr {c : Clock} (hr : c.rate ≠ 0) : 0x3F800000 ≤ F32.mag c.sr :=
  F32.one_le_mag_ofNat fun h => hr (BitVec.eq_of_toNat_eq h)

theorem Clock.isZero_sr {c : Clock} (hr : c.rate ≠ 0) : F32.isZero c.sr = false := by
  have := Clock.one_le_mag_sr hr
  exact decide_eq_false (by omega)

/-- The user whose anchor is the current tick has measured no sample. -/
theorem Clock.delta_tick (c : Clock) : c.delta c.tick = F32.zero := by
  rw [Clock.delta, BitVec.sub_self]
  decide

/-- The step of a finite frequency without a sign is finite and has no sign. -/
theorem Clock.step_finite {c : Clock} {f : F32} (hr : c.rate ≠ 0) (hfin : F32.mag f < F32.infMag)
    (hs : F32.sign f = false) : F32.sign (c.step f) = false ∧ F32.mag (c.step f) < F32.infMag := by
  obtain ⟨hsign, hmag⟩ := F32.div_bound hfin c.mag_sr_lt (Clock.one_le_mag_sr hr)
  rw [hs, c.sign_sr] at hsign
  exact ⟨hsign, hmag.trans_lt hfin⟩

/-- Within the threshold of a cycle's end the anchor moves to the current tick (R92). -/
theorem Clock.resynchronise_of_le {c : Clock} {f p : F32} (anchor : U32)
    (h : F32.le (F32.sub F32.one p) (c.threshold f) = true) : (c.resynchronise f p anchor).1 = c.tick := if_pos h

theorem Clock.phaseExact_phase (c : Clock) (f : F32) (anchor : U32) :
    (c.phaseExact f anchor).2 = F32.fract (F32.div (F32.mul (c.delta anchor) f) c.sr) := by
  rw [Clock.phaseExact, Clock.resynchronise]

theorem Clock.phaseFast_phase (c : Clock) (f s : F32) (anchor : U32) :
    (c.phaseFast f s anchor).2 = F32.fract (F32.mul (c.delta anchor) s) := by
  rw [Clock.phaseFast, Clock.resynchronise]

/-! ### The phase at the anchor's own tick (R89, R90, R93) -/

/-- Settles O56: the sample count is 0, and its product with a finite step, or with the frequency, is +0.0. -/
theorem phaseAtTheAnchorIsZero : Obligations.PhaseAtTheAnchorIsZero := by
  intro c f hr hfin hpos
  have hfin := F32.mag_lt_of_isFinite hfin
  obtain ⟨hs, -⟩ := F32.sign_mag_of_pos hpos
  constructor
  · obtain ⟨hstepSign, hstepFin⟩ := Clock.step_finite hr hfin hs
    rw [Clock.phaseFast_phase, c.delta_tick, F32.zero_mul_pos hstepFin hstepSign, F32.fract_zero]
  · rw [Clock.phaseExact_phase, c.delta_tick, F32.zero_mul_pos hfin hs,
      F32.zero_div_pos c.mag_sr_lt c.sign_sr (Clock.isZero_sr hr), F32.fract_zero]

/-! ### The frozen phase of a slow LFO (R98, R191) -/

/-- Settles O57: the unreduced phase is finite and has no sign, so `fl(1 - p)` is at most 1.0, and the threshold
`fl(1 / f)` is at least 1.0. -/
theorem slowLfoResynchronisesAlways : Obligations.SlowLfoResynchronisesAlways := by
  intro c f anchor hmode hr hfin hpos hle
  have hfin := F32.mag_lt_of_isFinite hfin
  obtain ⟨hs, h0⟩ := F32.sign_mag_of_pos hpos
  have h1 : F32.mag f ≤ 0x3F800000 := F32.mag_le_of_le hs hle
  have hdelta : F32.mag (c.delta anchor) < F32.infMag := F32.mag_ofNat_lt (c.tick - anchor).isLt
  obtain ⟨hmulSign, hmulMag⟩ := F32.mul_bound hdelta h1
  have hmulFin := hmulMag.trans_lt hdelta
  obtain ⟨hdivSign, hdivMag⟩ := F32.div_bound hmulFin c.mag_sr_lt (Clock.one_le_mag_sr hr)
  rw [hmulSign, hs, c.sign_sr, Clock.delta, F32.sign_ofNat] at hdivSign
  have hthreshold : F32.le F32.one (c.threshold f) = true := by
    rw [Clock.threshold, hmode]
    exact F32.one_le_one_div hs (decide_eq_false h0) h1
  exact Clock.resynchronise_of_le anchor
    (F32.le_trans (F32.one_sub_le_one (hdivMag.trans_lt hmulFin) hdivSign) hthreshold)

end Sys2Proof.Machine

/-! PROOFS. The wavetable (spec/42_wavetable.md): the place between two cells (R103, R104), the linear interpolation
(R105) and the range of the looked-up value (R107). -/

namespace Sys2Proof.F32

/-! ### Zeros and products -/

theorem magUnits_of_mag_zero {a : F32} (h : mag a = 0) : magUnits a = 0 := by
  rw [magUnits_eq, h]
  rfl

theorem units_of_mag_zero {a : F32} (h : mag a = 0) : units a = 0 := by
  rw [units_of_sign_or_zero (.inr h), magUnits_of_mag_zero h]
  rfl

theorem mag_of_units_zero {a : F32} (h : units a = 0) : mag a = 0 := by
  by_contra hne
  have hpos := magUnits_pos (decide_eq_false hne)
  rw [← units_natAbs, h] at hpos
  exact absurd hpos (by decide)

theorem magUnits_le_of_mag_le {a b : F32} (hb : mag b < infMag) (h : mag a ≤ mag b) : magUnits a ≤ magUnits b := by
  rw [magUnits_eq, magUnits_eq]
  exact (unitsOfMag_le_iff (h.trans hb.le) hb.le).2 h

theorem mul_comm_of_finite {a b : F32} (ha : mag a < infMag) (hb : mag b < infMag) : mul a b = mul b a := by
  rw [mul_finite ha hb, mul_finite hb ha, bne_comm, Nat.mul_comm]

theorem mag_mul_of_mag_zero {a b : F32} (ha : mag a < infMag) (hb : mag b = 0) : mag (mul a b) = 0 := by
  rw [mul_finite ha (hb ▸ by decide), magUnits_of_mag_zero hb, Nat.mul_zero, mag_pack (roundMag_lt _ _),
    roundMag_zero (by positivity)]

theorem decide_units_neg {a : F32} (h : units a ≠ 0) : decide (units a < 0) = sign a := by
  unfold units at h ⊢
  cases hs : sign a <;> simp only [hs, Bool.false_eq_true, if_true, if_false] at h ⊢
  · exact decide_eq_false (by omega)
  · exact decide_eq_true (by omega)

/-- To add a zero leaves the value, the sign of a zero aside. -/
theorem key_add_of_mag_zero {a z : F32} (ha : mag a < infMag) (hz : mag z = 0) : key (add a z) = key a := by
  rw [add_finite ha (hz ▸ by decide), units_of_mag_zero hz, add_zero, key, sign_ofUnits, mag_ofUnits]
  by_cases h0 : units a = 0
  · simp [h0, key, mag_of_units_zero h0]
  · have hmag : roundMag (units a).natAbs 1 = mag a := by
      rw [units_natAbs, magUnits_eq, ← Nat.mul_one (unitsOfMag _)]
      exact roundMag_exact ha.le Nat.one_pos
    rw [if_neg h0, if_neg h0, hmag, decide_units_neg h0, key]

/-! ### Values in [0, 1] -/

/-- A value in [0, 1], -0.0 included: where a point lies between two cells. -/
structure InUnit (t : F32) : Prop where
  nonneg : sign t = false ∨ mag t = 0
  le_one : mag t ≤ 0x3F800000

theorem finite_of_le_one {a : F32} (h : mag a ≤ 0x3F800000) : mag a < infMag := lt_inf (h.trans (by decide))

theorem InUnit.finite {t : F32} (h : InUnit t) : mag t < infMag := finite_of_le_one h.le_one

theorem inUnit_of_bits {t : F32} (h : t.toNat ≤ 0x3F800000) : InUnit t where
  nonneg := .inl (by simp only [sign, decide_eq_false_iff_not]; omega)
  le_one := (Nat.mod_le _ _).trans h

theorem inUnit_of_le {t : F32} (hfin : mag t < infMag) (h0 : le zero t = true) (h1 : le t one = true) :
    InUnit t where
  nonneg := (zero_le_iff hfin.le).1 h0
  le_one := by
    rcases (zero_le_iff hfin.le).1 h0 with hs | hm
    · exact mag_le_of_le hs h1
    · omega

protected theorem le_of_lt {a b : F32} (h : lt a b = true) : le a b = true := by
  obtain ⟨ha, hb, hk⟩ := lt_iff.1 h
  exact le_iff.2 ⟨ha, hb, hk.le⟩

/-- The rounding of an exact value in [0, 1]. -/
theorem inUnit_ofUnits (s : Bool) {n : Nat} (h : n ≤ 2 ^ 149) : InUnit (ofUnits s n 1) := by
  by_cases h0 : (n : Int) = 0
  · have hm : mag (ofUnits s n 1) = 0 := by rw [mag_ofUnits, if_pos h0]
    exact ⟨.inr hm, hm ▸ by decide⟩
  · constructor
    · left
      rw [sign_ofUnits, if_neg h0]
      exact decide_eq_false (by omega)
    · rw [mag_ofUnits, if_neg h0]
      exact roundMag_le_of_le (by decide) Nat.one_pos (by rw [unitsOfMag_one]; omega)

/-- A factor in [0, 1] brings a value nearer to 0, on its own side of it. -/
theorem units_mul_between {e t : F32} (he : mag e < infMag) (ht : InUnit t) :
    (0 ≤ units (mul e t) ∧ units (mul e t) ≤ units e) ∨ (units e ≤ units (mul e t) ∧ units (mul e t) ≤ 0) := by
  rcases ht.nonneg with hs | h0
  · obtain ⟨hsign, hmag⟩ := mul_bound he ht.le_one
    rw [hs, Bool.bne_false] at hsign
    have hle := magUnits_le_of_mag_le he hmag
    rw [units, units, hsign]
    cases sign e
    · exact .inl ⟨by simp, by simpa using hle⟩
    · exact .inr ⟨by simpa using hle, by simp⟩
  · rw [units_of_mag_zero (mag_mul_of_mag_zero he h0)]
    omega

/-! ### The place between two cells -/

/-- Up to 65536, the greatest LENGTH, the integers are binary32 values. -/
theorem ofNat_exact {n : Nat} (h : n ≤ 65536) :
    mag (ofNat n) < infMag ∧ magUnits (ofNat n) = n * 2 ^ 149 := by
  have hU : unitsOfMag 0x47800000 = 65536 * 2 ^ 149 := by decide +kernel
  have hdvd : 2 ^ (0x47800000 / 2 ^ 23 - 1) ∣ n * 2 ^ 149 := (pow_dvd_pow 2 (by norm_num)).mul_left n
  refine ⟨mag_ofNat_lt (by omega), ?_⟩
  rw [magUnits_eq, mag_ofNat]
  exact unitsOfMag_roundMag_of_dvd (by decide) (by omega) hdvd

/-- A factor `u` in [0, 1] scales `n` to a value in [0, n]. -/
theorem scaled_bounds {u : F32} (hu : InUnit u) {n : Nat} (hn : n ≤ 65536) :
    mag (mul u (ofNat n)) < infMag ∧ (sign (mul u (ofNat n)) = false ∨ mag (mul u (ofNat n)) = 0) ∧
    magUnits (mul u (ofNat n)) ≤ n * 2 ^ 149 := by
  obtain ⟨hfin, hunits⟩ := ofNat_exact hn
  rw [mul_comm_of_finite hu.finite hfin]
  obtain ⟨hsign, hmag⟩ := mul_bound hfin hu.le_one
  refine ⟨hmag.trans_lt hfin, ?_, ?_⟩
  · rcases hu.nonneg with hs | h0
    · exact .inl (by rw [hsign, hs, sign_ofNat]; rfl)
    · exact .inr (mag_mul_of_mag_zero hfin h0)
  · exact hunits ▸ magUnits_le_of_mag_le hfin hmag

/-- The place of `u * n` above its cell lies in [0, 1], also where the cell is held at the last one, `cap`, and the
product was rounded up to `n` (R103, R104). -/
theorem inUnit_place {u : F32} (hu : InUnit u) {n cap : Nat} (hn : n ≤ 65536) (hcap : n ≤ cap + 1) :
    InUnit (sub (mul u (ofNat n)) (ofNat (min (floor (mul u (ofNat n))) cap))) := by
  obtain ⟨hfin, hnonneg, hle⟩ := scaled_bounds hu hn
  rw [floor_eq hfin hnonneg]
  generalize mul u (ofNat n) = x at *
  generalize hi : min (magUnits x / 2 ^ 149) cap = i
  have hlow : i * 2 ^ 149 ≤ magUnits x :=
    (Nat.mul_le_mul_right _ (hi ▸ min_le_left ..)).trans (Nat.div_mul_le_self _ _)
  have hhigh : magUnits x ≤ (i + 1) * 2 ^ 149 := by
    rcases le_total (magUnits x / 2 ^ 149) cap with hcell | hheld
    · rw [← hi, min_eq_left hcell]
      exact ((Nat.div_lt_iff_lt_mul (by norm_num)).1 (Nat.lt_succ_self _)).le
    · rw [← hi, min_eq_right hheld]
      exact hle.trans (Nat.mul_le_mul_right _ hcap)
  obtain ⟨hifin, hiunits⟩ := ofNat_exact (n := i) (by omega)
  rw [sub, add_finite hfin (by rwa [mag_neg]), units_neg, units_of_sign_or_zero hnonneg,
    units_of_nonneg (sign_ofNat i), hiunits,
    show (magUnits x : Int) + -(i * 2 ^ 149 : Nat) = (magUnits x - i * 2 ^ 149 : Nat) by omega]
  exact inUnit_ofUnits _ (by omega)

/-! ### The rounding error of a difference -/

/-- Rounding to a multiple of `D` errs by at most half of it. -/
theorem two_mul_abs_nearest_sub_le {D : Nat} (hD : 0 < D) (n : Nat) : 2 * |(nearest n D : Int) * D - n| ≤ D := by
  have hdown := abs_nearest_mul_sub_le hD n (n / D)
  have hup := abs_nearest_mul_sub_le hD n (n / D + 1)
  have hr : n % D < D := Nat.mod_lt n hD
  have hn : (n : Int) = (n / D : Nat) * (D : Int) + (n % D : Nat) := by exact_mod_cast (Nat.div_add_mod' n D).symm
  rw [show ((n / D : Nat) : Int) * D - n = -(n % D : Nat) by omega, abs_neg, Nat.abs_cast] at hdown
  rw [show ((n / D + 1 : Nat) : Int) * D - n = (D - n % D : Nat) by push_cast [hr.le] at hn ⊢; linarith,
    Nat.abs_cast] at hup
  omega

theorem roundMag_le_two {n : Nat} (h : n ≤ 2 ^ 150) : roundMag n 1 ≤ 0x40000000 := by
  have hU : unitsOfMag 0x40000000 = 2 ^ 150 := by decide +kernel
  exact roundMag_le_of_le (by decide) Nat.one_pos (by omega)

/-- The spacing of the binary32 values below 2.0 is 2^126 units, so a value up to 2.0 is rounded by at most half of
that. -/
theorem abs_roundMag_error_le {n : Nat} (h : n ≤ 2 ^ 150) : |(unitsOfMag (roundMag n 1) : Int) - n| ≤ 2 ^ 125 := by
  rcases Nat.lt_or_eq_of_le h with hlt | rfl
  · have hfin := lt_inf (roundMag_le_two h)
    have hsh : n.log2 - 23 ≤ 126 := by
      rcases eq_or_ne n 0 with rfl | hne
      · simp
      · have := (Nat.log2_lt hne).2 hlt
        omega
    rw [unitsOfMag_roundMag Nat.one_pos hfin, Nat.div_one, one_mul]
    have herr := two_mul_abs_nearest_sub_le (D := 2 ^ (n.log2 - 23)) (by positivity) n
    have hpow : 2 ^ (n.log2 - 23) ≤ 2 ^ 126 := Nat.pow_le_pow_right (by norm_num) hsh
    rw [Nat.cast_mul]
    omega
  · decide +kernel

/-- A sum that is exactly up to 2.0 in magnitude is rounded to one up to 2.0, within 2^125 units of it. -/
theorem ofUnits_error_le (s : Bool) {z : Int} (h : z.natAbs ≤ 2 ^ 150) :
    mag (ofUnits s z 1) ≤ 0x40000000 ∧ (units (ofUnits s z 1) - z).natAbs ≤ 2 ^ 125 := by
  by_cases hz : z = 0
  · have hm : mag (ofUnits s z 1) = 0 := by rw [mag_ofUnits, if_pos hz]
    rw [units_of_mag_zero hm, hm, hz]
    decide
  · constructor
    · rw [mag_ofUnits, if_neg hz]
      exact roundMag_le_two h
    · have herr := abs_roundMag_error_le h
      have hsame := abs_signedInt_sub_same (decide (z < 0)) (unitsOfMag (roundMag z.natAbs 1)) z.natAbs 1
      rw [signedInt_natAbs, Nat.cast_one, mul_one, mul_one] at hsame
      rw [ofUnits, if_neg hz, units_pack (roundMag_lt _ _)]
      rw [← hsame, Int.abs_eq_natAbs] at herr
      exact_mod_cast herr

/-- 1.0 and half the spacing above it is a tie, which goes to 1.0. -/
theorem mag_ofUnits_le_one (s : Bool) {z : Int} (h : z.natAbs ≤ 2 ^ 149 + 2 ^ 125) :
    mag (ofUnits s z 1) ≤ 0x3F800000 := by
  rw [mag_ofUnits]
  split
  · decide
  · have htie : roundMag (2 ^ 149 + 2 ^ 125) 1 = 0x3F800000 := by decide +kernel
    rw [← htie]
    exact roundMag_mono Nat.one_pos Nat.one_pos (Nat.mul_le_mul_right 1 h)

theorem natAbs_units_le_one {a : F32} (h : mag a ≤ 0x3F800000) : (units a).natAbs ≤ 2 ^ 149 :=
  units_natAbs a ▸ magUnits_le_one h

/-- The difference of two values in [-1, 1] is finite and within 2^125 units of the exact one. -/
theorem sub_error_le {a b : F32} (ha : mag a ≤ 0x3F800000) (hb : mag b ≤ 0x3F800000) :
    mag (sub a b) ≤ 0x40000000 ∧ (units (sub a b) - (units a - units b)).natAbs ≤ 2 ^ 125 := by
  have hA := natAbs_units_le_one ha
  have hB := natAbs_units_le_one hb
  rw [sub, add_finite (finite_of_le_one ha) (by rw [mag_neg]; exact finite_of_le_one hb), units_neg,
    ← sub_eq_add_neg]
  exact ofUnits_error_le _ (by omega)

end Sys2Proof.F32

namespace Sys2Proof.Machine

/-! ### The samples (R82) -/

theorem mag_le_one_of_legalSample {x : F32} (h : legalSample x = true) : F32.mag x ≤ 0x3F800000 := by
  simp only [legalSample, Bool.and_eq_true, F32.le_iff, F32.key_negOne, F32.key_one] at h
  obtain ⟨⟨-, -, -, hlow⟩, -, -, hhigh⟩ := h
  cases hs : F32.sign x
  · rw [F32.key_of_nonneg hs] at hhigh
    omega
  · rw [F32.key_of_neg hs] at hlow
    omega

/-- A read gives a listed value or the one that an unlisted address reads as. -/
theorem Memory.read_cases (m : Memory) (a : Nat) : m.read a = Memory.unlisted ∨ ∃ c ∈ m, m.read a = c.2 := by
  induction m with
  | nil => exact .inl rfl
  | cons c m ih =>
    obtain ⟨b, x⟩ := c
    rw [Memory.read]
    split
    · exact .inr ⟨(b, x), by simp, rfl⟩
    · exact ih.imp_right fun ⟨c, hc, he⟩ => ⟨c, List.mem_cons_of_mem _ hc, he⟩

/-- Every cell of a legal table is in [-1, 1]; a cell never written is +0.0. -/
theorem State.TableLegal.mag_wtRead_le {s : State} (h : s.TableLegal) (row col : Nat) :
    F32.mag (s.wtRead row col) ≤ 0x3F800000 := by
  rw [State.wtRead]
  rcases Memory.read_cases s.wt (wtAddress row col) with he | ⟨c, hc, he⟩ <;> rw [he]
  · decide
  · exact mag_le_one_of_legalSample (h.cells c hc).2.2

/-! ### Linear interpolation (R105) -/

/-- Settles O59: the product with +0.0 is a zero, and to add a zero leaves the value. -/
theorem interpolationAtACellIsTheCell : Obligations.InterpolationAtACellIsTheCell := by
  intro a b ha hb
  have ha := mag_le_one_of_legalSample ha
  have hb := mag_le_one_of_legalSample hb
  have hdiff := F32.lt_inf (F32.sub_error_le hb ha).1
  exact F32.key_add_of_mag_zero (F32.finite_of_le_one ha) (F32.mag_mul_of_mag_zero hdiff (by decide))

/-- Between two values in [-1, 1] the interpolation stays in [-1, 1]: the rounded difference leads from `a` past `b` by
at most 2^125 units, and what lies so little outside [-1, 1] is rounded back to its end. -/
theorem mag_lerp_le_one {a b t : F32} (ha : F32.mag a ≤ 0x3F800000) (hb : F32.mag b ≤ 0x3F800000)
    (ht : F32.InUnit t) : F32.mag (lerp a b t) ≤ 0x3F800000 := by
  have hA := F32.natAbs_units_le_one ha
  have hB := F32.natAbs_units_le_one hb
  have hafin := F32.finite_of_le_one ha
  obtain ⟨hmag, herr⟩ := F32.sub_error_le hb ha
  have hEfin := F32.lt_inf hmag
  have hbetween := F32.units_mul_between hEfin ht
  rw [lerp, F32.add_finite hafin ((F32.mul_bound hEfin ht.le_one).2.trans_lt hEfin)]
  exact F32.mag_ofUnits_le_one _ (by omega)

/-! ### The looked-up value (R106, R107) -/

theorem inUnit_phaseIndex {p : Params} (hp : p.valid) {ph : F32} (h : F32.InUnit ph) :
    F32.InUnit (phaseIndex p.length ph).2.2 := by
  obtain ⟨-, -, -, -, -, ⟨-, hlen⟩, -⟩ := hp
  exact F32.inUnit_place h hlen (by omega)

theorem inUnit_depthIndex {p : Params} (hp : p.valid) {d : F32} (h : F32.InUnit d) :
    F32.InUnit (depthIndex p.depth d).2.2 := by
  obtain ⟨-, -, -, -, ⟨-, hdep⟩, -⟩ := hp
  exact F32.inUnit_place h (by omega) (by omega)

/-- The looked-up value lies in [-1, 1], which R107 leaves open. -/
theorem mag_wtLookup_le_one {s : State} (hp : s.par.valid) (ht : s.TableLegal) {ph d : F32} (hph : F32.InUnit ph)
    (hd : F32.InUnit d) : F32.mag (s.wtLookup ph d) ≤ 0x3F800000 := by
  have hrow : ∀ row : Nat, F32.mag (lerp (s.wtRead row (phaseIndex s.par.length ph).1)
      (s.wtRead row (phaseIndex s.par.length ph).2.1) (phaseIndex s.par.length ph).2.2) ≤ 0x3F800000 := fun row =>
    mag_lerp_le_one (ht.mag_wtRead_le _ _) (ht.mag_wtRead_le _ _) (inUnit_phaseIndex hp hph)
  exact mag_lerp_le_one (hrow _) (hrow _) (inUnit_depthIndex hp hd)

/-- Settles O60: the places between the cells are in [0, 1], so each of the three interpolations stays in [-1, 1]. -/
theorem lookupIsFiniteAndBounded : Obligations.LookupIsFiniteAndBounded := by
  intro s ph d hp ht hfin h0 h1 hd
  have hph := F32.inUnit_of_le (F32.mag_lt_of_isFinite hfin) h0 (F32.le_of_lt h1)
  have hle := mag_wtLookup_le_one hp ht hph (F32.inUnit_of_bits hd)
  exact ⟨decide_eq_true (F32.finite_of_le_one hle), hle.trans (by decide)⟩

end Sys2Proof.Machine

/-! PROOFS. The envelope statements (spec/43_envelope.md): the values of an envelope (R113 to R118), the note events
that start and release it (R111, R112, with the allocation of R156 and R160), and the amount that no output reads
(R119). -/

namespace Sys2Proof.F32

/-! ### The ends of a ramp -/

/-- A finite value other than zero divided by itself is exactly 1.0. -/
theorem div_self_eq_one {a : F32} (ha : mag a < infMag) (h0 : isZero a = false) : div a a = one := by
  have hround : roundMag (magUnits a * 2 ^ 149) (magUnits a) = 0x3F800000 := by
    rw [Nat.mul_comm, ← unitsOfMag_one, roundMag_exact (by decide) (magUnits_pos h0)]
  rw [div_finite ha ha (of_decide_eq_false h0), hround, bne_self_eq_false]
  rfl

theorem sub_one_one : sub one one = zero := by decide +kernel

theorem mul_zero_pos {a : F32} (ha : mag a < infMag) (hs : sign a = false) : mul a zero = zero := by
  rw [mul_comm_of_finite ha (by decide), zero_mul_pos ha hs]

theorem isZero_ofNat {n : Nat} (h : n ≠ 0) : isZero (ofNat n) = false := by
  have hmag := one_le_mag_ofNat h
  exact decide_eq_false (by omega)

end Sys2Proof.F32

namespace Sys2Proof.Machine

open Sys2Proof.Claims

/-! ### The values of an envelope (R113 to R118) -/

/-! #### The `NoteOn` stages (R114) -/

section
variable {e : EnvProps} {pos : U32}

theorem EnvProps.on_delay (vel : F32) (h : pos.toNat ≤ e.delay.toNat) : e.on vel pos = F32.zero := if_pos h

theorem EnvProps.on_hold (vel : F32) (ha : e.delay.toNat + e.attack.toNat < pos.toNat)
    (hh : pos.toNat ≤ e.delay.toNat + e.attack.toNat + e.hold.toNat) : e.on vel pos = vel := by
  simp only [EnvProps.on]
  rw [if_neg (by omega), if_neg (by omega), if_pos hh]

theorem EnvProps.on_sustain (vel : F32)
    (h : e.delay.toNat + e.attack.toNat + e.hold.toNat + e.decay.toNat < pos.toNat) : e.on vel pos = e.sustain := by
  simp only [EnvProps.on]
  rw [if_neg (by omega), if_neg (by omega), if_neg (by omega), if_neg (by omega)]

/-- Of the five stages, the two ramps pass through `clamp_u` and the three plateaus are +0.0, the velocity and the
sustain level (R118). -/
theorem EnvProps.on_unit {vel : F32} (hs : unitBits e.sustain) (hv : unitBits vel) : unitBits (e.on vel pos) := by
  simp only [EnvProps.on]
  split
  · decide
  · split
    · exact F32.clampU_unit _
    · split
      · exact hv
      · split
        · exact F32.clampU_unit _
        · exact hs

/-! #### The release stage (R116) -/

theorem EnvProps.off_after (h : e.release.toNat < pos.toNat) : e.off pos = none := if_neg (by omega)

theorem EnvProps.off_unit {u : F32} (h : e.off pos = some u) : unitBits u := by
  rw [EnvProps.off] at h
  split at h
  · cases h
    exact F32.clampU_unit _
  · cases h

end

/-- The quotient of the release ramp is 1.0 at its last position, which leaves a factor of +0.0. -/
theorem EnvProps.off_release {p : Params} {e : EnvProps} (h : e.Legal p) : e.off e.release = some F32.zero := by
  have hne : e.release.toNat ≠ 0 := fun h0 => h.release (BitVec.eq_of_toNat_eq h0)
  have hs := F32.inUnit_of_bits h.sustain
  have hsign : F32.sign e.sustain = false := decide_eq_false (by have := h.sustain; omega)
  rw [EnvProps.off, if_pos (Nat.le_refl _),
    F32.div_self_eq_one (F32.mag_ofNat_lt e.release.isLt) (F32.isZero_ofNat hne), F32.sub_one_one,
    F32.mul_zero_pos hs.finite hsign]
  decide

/-! #### `env_tick` (R113) -/

theorem envTick_disabled {e : EnvProps} (h : e.enabled = false) (tick : U32) (x : EnvState) :
    envTick tick e x = none := by
  simp [envTick, h]

@[simp] theorem envTick_idle (tick : U32) (e : EnvProps) : envTick tick e .idle = none := by
  simp [envTick]

theorem envTick_noteOn {e : EnvProps} (h : e.enabled = true) (tick : U32) (vel : F32) (t : U32) :
    envTick tick e (.noteOn vel t) = some (e.on vel (tick - t)) := by
  simp [envTick, h]

theorem envTick_noteOff {e : EnvProps} (h : e.enabled = true) (tick t : U32) :
    envTick tick e (.noteOff t) = e.off (tick - t) := by
  simp [envTick, h]

theorem envTick_unit {e : EnvProps} {x : EnvState} {tick : U32} {u : F32} (hs : unitBits e.sustain) (hx : x.legal)
    (h : envTick tick e x = some u) : unitBits u := by
  cases he : e.enabled with
  | false =>
    rw [envTick_disabled he] at h
    cases h
  | true =>
    cases x with
    | idle => simp at h
    | noteOn vel t =>
      rw [envTick_noteOn he] at h
      cases h
      exact EnvProps.on_unit hs hx
    | noteOff t =>
      rw [envTick_noteOff he] at h
      exact EnvProps.off_unit h

/-- The position at the tick of the note-on is 0, which lies in the delay whatever its length (R118). -/
theorem envTick_at_noteOn {e : EnvProps} (h : e.enabled = true) (tick : U32) (vel : F32) :
    envTick tick e (.noteOn vel tick) = some F32.zero := by
  rw [envTick_noteOn h, BitVec.sub_self, EnvProps.on_delay vel (Nat.zero_le _)]

/-- Settles O50: the ramps are clamped and the plateaus are UnitIntervals, and position 0 lies in the delay. -/
theorem envelopeValuesAreUnitIntervals : Obligations.EnvelopeValuesAreUnitIntervals := by
  intro p tick e x he hx
  exact ⟨fun _ hu => envTick_unit he.sustain hx hu, fun vel h => envTick_at_noteOn h tick vel,
    fun h => envTick_disabled h tick x, envTick_idle tick e⟩

/-- Settles O51: at the end of the release the ramp's quotient is exactly 1.0, since RELEASE is not 0. -/
theorem releaseEndsAtZeroThenNone : Obligations.ReleaseEndsAtZeroThenNone := fun _ _ _ h =>
  ⟨EnvProps.off_release h, EnvProps.off_after⟩

/-- Settles O52: each plateau is one stage of `env_on`. -/
theorem envelopePlateaus : Obligations.EnvelopePlateaus := fun _ vel _ =>
  ⟨EnvProps.on_delay vel, EnvProps.on_hold vel, EnvProps.on_sustain vel⟩

/-- Settles O53, by evaluation of the closed sequences. -/
theorem workedEnvelopeAndPhaseSequences : Obligations.WorkedEnvelopeAndPhaseSequences := by
  unfold Obligations.WorkedEnvelopeAndPhaseSequences
  decide +kernel

/-! ### NOTE_OFF (R72, R112, R146, R160) -/

theorem exec_noteOff {s : State} (hr : s.running) {note : BitVec 8} {vel : F32} (hn : note.toNat ≤ 127)
    (hv : F32.isFinite vel = true) : exec (.noteOff note vel) s = .next (s.releaseNote note.toNat) := by
  simp only [exec, execNoteOff, next_running hr, noteFault_none.2 ⟨hn, hv⟩]

theorem Pack.noteOff_packOff (tick : U32) (k : Pack) : PackOff tick k (k.noteOff tick) where
  envs := by
    refine List.forall₂_map_right_iff.2 (List.forall₂_same.2 fun x _ => ?_)
    cases x with
    | idle => exact .inl ⟨rfl, rfl⟩
    | noteOn vel t => exact .inr ⟨by simp, rfl⟩
    | noteOff t => exact .inr ⟨by simp, rfl⟩
  lfos := List.forall₂_map_right_iff.2 (List.forall₂_same.2 fun _ _ => rfl)

theorem VoiceRec.release_voiceOff (tick : U32) (v : VoiceRec) : VoiceOff tick v (v.release tick) where
  fields := rfl
  pack := v.pack.noteOff_packOff tick

/-- What releasing the selected voices does to the core (R160, R161). -/
theorem State.releaseWhere_released (s : State) {sel : VoiceRec → Bool} {P : VoiceRec → Prop}
    (h : ∀ v, sel v = true ↔ P v) : Released P s (s.releaseWhere sel) where
  frame := rfl
  voices := by
    refine List.forall₂_map_right_iff.2 (List.forall₂_same.2 fun v _ => ?_)
    rw [← h v]
    split
    · rename_i hsel
      exact .inl ⟨hsel, v.release_voiceOff s.clkTick⟩
    · rename_i hsel
      exact .inr ⟨hsel, rfl⟩
  global := by
    simp only [← h, State.releaseWhere]
    split
    · rename_i hany
      exact .inl ⟨List.any_eq_true.1 hany, s.global.noteOff_packOff s.clkTick⟩
    · rename_i hany
      exact .inr ⟨fun v hv hsel => hany (List.any_eq_true.2 ⟨v, hv, hsel⟩), rfl⟩

/-- With no voice to release, nothing changes. -/
theorem State.releaseWhere_none {s : State} {sel : VoiceRec → Bool} (h : ∀ v ∈ s.voice, sel v = false) :
    s.releaseWhere sel = s := by
  have hvoice : (s.voice.map fun v => if sel v then v.release s.clkTick else v) = s.voice :=
    (List.map_congr_left fun v hv => by simp [h v hv]).trans (List.map_id _)
  have hany : s.voice.any sel = false := by simpa using h
  rw [State.releaseWhere, hvoice, hany]
  rfl

/-- Settles O39: NOTE_OFF releases exactly the voices that hold the note; with none, the release changes nothing. -/
theorem noteOffReleasesItsNote : Obligations.NoteOffReleasesItsNote := by
  intro s note vel hr hn hv
  rw [exec_noteOff hr hn hv]
  refine ⟨⟨_, rfl, s.releaseWhere_released fun v => beq_iff_eq⟩, fun hheld => ?_⟩
  rw [State.releaseNote, State.releaseWhere_none fun v hmem => ?_]
  exact beq_eq_false_iff_ne.2 fun he => hheld ⟨v, hmem, he⟩

/-! ### NOTE_ON in Poly mode (R71, R111, R145, R156) -/

theorem exec_noteOn {s : State} (hr : s.running) {note : BitVec 8} {vel : F32} (hn : note.toNat ≤ 127)
    (hv : F32.isFinite vel = true) :
    exec (.noteOn note vel) s = .next (s.allocate note.toNat (F32.clampU vel)) := by
  simp only [exec, execNoteOn, next_running hr, noteFault_none.2 ⟨hn, hv⟩]

theorem State.allocate_poly {s : State} {note : Nat} (hn : s.hasNote note = false) (hp : s.polyMode = .poly)
    (vel : F32) : s.allocate note vel = (s.polyOn note vel).globalNoteOn vel := by
  simp [State.allocate, hn, hp]

theorem Pack.noteOn_eq_packOn {p : Params} {k : Pack} (h : k.sized p) (vel : F32) (tick : U32) :
    k.noteOn vel tick = packOn p vel tick := by
  rw [Pack.noteOn_eq, h.1, h.2]
  rfl

theorem VoiceRec.noteOn_eq_voiceOn {p : Params} {v : VoiceRec} (h : v.sized p) (tick : U32) (note : Nat)
    (vel det blend bal : F32) : v.noteOn p tick note vel det blend bal = voiceOn p tick note vel det blend bal := by
  rw [VoiceRec.noteOn, map_const, h.1, Pack.noteOn_eq_packOn h.2]
  rfl

/-- A voice of the core is overwritten, whatever it was doing (R145). -/
theorem State.Sized.voiceNoteOn_voice {s : State} (h : s.Sized) {i : Nat} (hi : i < s.par.voices) (note : Nat)
    (vel det blend bal : F32) : (s.voiceNoteOn i note vel det blend bal).voice =
      s.voice.set i (voiceOn s.par s.clkTick note vel det blend bal) := by
  have hlt : i < s.voice.length := by rwa [h.voice]
  rw [State.voiceNoteOn_voice, List.modify_eq_set_get _ hlt,
    VoiceRec.noteOn_eq_voiceOn (h.voices _ (List.get_mem _ _))]

/-- The scan passes every voice of the core, wherever it starts. -/
theorem exists_scan_index {n start i : Nat} (hi : i < n) : ∃ k, k < n ∧ (start + k) % n = i := by
  have hn : 0 < n := by omega
  have hsum : start + (i + (n - start % n)) = i + n * (start / n + 1) := by
    have hdiv := Nat.div_add_mod start n
    have hmod := Nat.mod_lt start hn
    rw [Nat.mul_add]
    omega
  refine ⟨(i + (n - start % n)) % n, Nat.mod_lt _ hn, ?_⟩
  rw [Nat.add_mod_mod, hsum, Nat.add_mul_mod_self_left, Nat.mod_eq_of_lt hi]

/-- The scan of the model takes the voice of R156. -/
theorem State.Sized.polyIndex_choice {s : State} (h : s.Sized) : PolyChoice s s.polyIndex := by
  rw [State.polyIndex, State.scanOrder, List.find?_map]
  cases hf : (List.range s.par.voices).find? (s.freeAt ∘ fun k => (s.lastVoice + 1 + k) % s.par.voices) with
  | some k =>
    obtain ⟨hfree, hk, hbefore⟩ := List.find?_range_eq_some.1 hf
    refine .inl ⟨k, List.mem_range.1 hk, rfl, State.freeAt_iff.1 hfree, fun j hj hfj => ?_⟩
    have hnot := hbefore j hj
    simp [State.freeAt_iff.2 hfj] at hnot
  | none =>
    refine .inr ⟨fun j hfj => ?_, rfl⟩
    have hj : j < s.par.voices := by
      obtain ⟨v, hv, -⟩ := hfj
      exact h.voice ▸ (List.getElem?_eq_some_iff.1 hv).1
    obtain ⟨k, hk, rfl⟩ := exists_scan_index (start := s.lastVoice + 1) hj
    have hnot := List.find?_range_eq_none.1 hf k hk
    simp [State.freeAt_iff.2 hfj] at hnot

/-- Settles O36: `polyIndex` is the choice of R156, and on a sized core the voice taken and the global pack have the
values of a note-on, whatever they were. -/
theorem polyNoteOnTakesScannedVoice : Obligations.PolyNoteOnTakesScannedVoice := by
  intro s note vel hs hr hp hn hv hheld
  have hi := State.polyIndex_lt hs.params.1.1
  have hnot : s.hasNote note.toNat = false := Bool.eq_false_iff.2 fun h => hheld (State.hasNote_iff.1 h)
  refine ⟨s.polyIndex, hi, hs.polyIndex_choice, ?_⟩
  rw [exec_noteOn hr hn hv, State.allocate_poly hnot hp, ← hs.voiceNoteOn_voice hi, ← Pack.noteOn_eq_packOn hs.global]
  rfl

/-! ### The amount (R119) -/

/-- An envelope slot with its amount forgotten: the part of it that TICK reads. -/
def EnvProps.withoutAmount (e : EnvProps) : EnvProps := { e with amount := F32.one }

theorem firstEnv_withoutAmount (envs : List EnvProps) (t : ModTarget) :
    firstEnv (envs.map .withoutAmount) t = firstEnv envs t := by
  rw [firstEnv, List.findIdx?_map]
  rfl

/-- `resolve` reads no amount. -/
theorem Pack.resolveEnv_withoutAmount (tick : U32) (envs : List EnvProps) (t : ModTarget) (k : Pack) :
    k.resolveEnv tick (envs.map .withoutAmount) t = k.resolveEnv tick envs t := by
  rw [Pack.resolveEnv, Pack.resolveEnv, firstEnv_withoutAmount]
  cases firstEnv envs t with
  | none => rfl
  | some e =>
    simp only [List.getElem?_map]
    cases envs[e]? <;> cases k.envs[e]? <;> rfl

theorem map_withoutAmount_eq {envs envs' : List EnvProps}
    (h : List.Forall₂ (fun e e' => e' = { e with amount := e'.amount }) envs envs') :
    envs'.map EnvProps.withoutAmount = envs.map .withoutAmount := by
  induction h with
  | nil => rfl
  | cons he _ ih =>
    rw [List.map_cons, List.map_cons, ih, he]
    rfl

section
variable {s : State} {envs : List EnvProps}

/-- The operators read no envelope slot. -/
theorem State.opPack_withEnv (fv pm : F32) (ops : List OpProps) (gws : List (Option ModValue)) (anchors : List U32)
    (mod : OscMod) (mix : F32) :
    { s with env := envs }.opPack fv pm ops gws anchors mod mix = s.opPack fv pm ops gws anchors mod mix := by
  induction ops generalizing gws anchors mod mix with
  | nil => rfl
  | cons op ops ih =>
    cases gws with
    | nil => rfl
    | cons gw gws =>
      cases anchors with
      | nil => rfl
      | cons anchor anchors =>
        simp only [State.opPack, ih]
        rfl

variable (h : envs.map EnvProps.withoutAmount = s.env.map .withoutAmount)
include h

theorem State.resolve_withEnv (t : ModTarget) (k : Pack) : { s with env := envs }.resolve t k = s.resolve t k := by
  have henv : ∀ q : Pack, q.resolveEnv s.clkTick envs t = q.resolveEnv s.clkTick s.env t := fun q => by
    rw [← q.resolveEnv_withoutAmount, h, q.resolveEnv_withoutAmount]
  rw [State.resolve, State.resolve, ← henv]
  rfl

theorem State.resolveAll_withEnv (ts : List ModTarget) (k : Pack) :
    { s with env := envs }.resolveAll ts k = s.resolveAll ts k := by
  induction ts generalizing k with
  | nil => rfl
  | cons t ts ih => simp only [State.resolveAll, State.resolve_withEnv h, ih]

theorem State.voiceTick_withEnv (gp : Option ModValue) (gw : List (Option ModValue)) (v : VoiceRec) :
    { s with env := envs }.voiceTick gp gw v = s.voiceTick gp gw v := by
  simp only [State.voiceTick, State.resolve_withEnv h, State.opPack_withEnv]

theorem State.mixVoices_withEnv (gp : Option ModValue) (gw : List (Option ModValue)) (vs : List VoiceRec) (l r : F32) :
    { s with env := envs }.mixVoices gp gw vs l r = s.mixVoices gp gw vs l r := by
  induction vs generalizing l r with
  | nil => rfl
  | cons v vs ih =>
    simp only [State.mixVoices, State.voiceTick_withEnv h, ih]
    rfl

theorem State.frameAt_withEnv : { s with env := envs }.frameAt = s.frameAt := by
  simp only [State.frameAt, State.resolveAll_withEnv h, State.mixVoices_withEnv h]

theorem State.tickFrame_withEnv : { s with env := envs }.tickFrame = { s.tickFrame with env := envs } := by
  rw [State.tickFrame, State.frameAt_withEnv h]
  rfl

end

/-- A TICK on a core with other amounts does what it does on the core, and leaves it with those amounts. -/
theorem exec_tick_withEnv {s : State} {envs : List EnvProps}
    (h : envs.map EnvProps.withoutAmount = s.env.map .withoutAmount) :
    exec .tick { s with env := envs } = mapNext (fun t => { t with env := envs }) (exec .tick s) := by
  by_cases hh : s.halted = true
  · rw [exec_halted hh (by simp), exec_halted (s := { s with env := envs }) hh (by simp)]
    rfl
  · have hr : s.running := by simpa using hh
    by_cases hs : s.sealed = true
    · rw [exec_tick ⟨hr, hs⟩, exec_tick (s := { s with env := envs }) ⟨hr, hs⟩, State.tickFrame_withEnv h]
      rfl
    · have hs : s.sealed = false := by simpa using hs
      rw [unsealedTickFaults s hr hs, unsealedTickFaults { s with env := envs } hr hs]
      rfl

/-- Settles O46: the targets and the values of the envelopes are those without the amounts, so the frame is the same. -/
theorem envelopeAmountHasNoEffect : Obligations.EnvelopeAmountHasNoEffect := by
  intro s t env' henv ht
  rw [exec_tick_withEnv (map_withoutAmount_eq henv), ht]
  rfl

end Sys2Proof.Machine

/-! PROOFS. The LFO statement (spec/44_lfo.md): the values of an LFO and its stop at a cycle start (R125, R127, R129). -/

namespace Sys2Proof.Machine

/-! ### The values of an LFO (R125) and its stop (R127) -/

/-- An LFO that is disabled or stopped has no value and moves no anchor (R125). -/
theorem lfoTick_silent {l : LfoProps} {x : LfoState} (h : l.enabled = false ∨ x.stopped = true) (c : Clock) :
    lfoTick c l x = (x, none) :=
  if_pos (by simpa using h)

theorem lfoTick_signedUnit {c : Clock} {l : LfoProps} {x : LfoState} {y : F32} (h : (lfoTick c l x).2 = some y) :
    signedUnitBits y := by
  by_cases hx : l.enabled = false ∨ x.stopped = true
  · rw [lfoTick_silent hx] at h
    cases h
  · obtain ⟨he, hs⟩ : l.enabled = true ∧ x.stopped = false := by simpa using hx
    rw [lfoTick_running he hs] at h
    split at h
    · cases h
    · cases h
      exact F32.clampS_unit _

/-- Settles O54: a running LFO stops exactly where it is inactive and its phase is at most one step, and every value it
gives is clamped. -/
theorem lfoStopsClickFree : Obligations.LfoStopsClickFree := by
  intro c l x
  refine ⟨fun y => lfoTick_signedUnit, fun h => lfoTick_silent h c, fun he hs ha hp => ?stops, fun he hs h => ?plays⟩
  case stops => rw [lfoTick_running he hs, if_pos ⟨ha, hp⟩]
  case plays =>
    have hgo : ¬ (x.active = false ∧ F32.le (c.phaseExact l.freq x.last).2 (c.step l.freq) = true) := by
      rintro ⟨ha, hp⟩
      rcases h with h | h
      · exact Bool.noConfusion (h.symm.trans ha)
      · exact Bool.noConfusion (h.symm.trans hp)
    rw [lfoTick_running he hs, if_neg hgo]

end Sys2Proof.Machine

/-! PROOFS. The modulation statements (spec/45_modulation.md): the slots that `resolve` asks for a target (R133), and
the anchors of a disabled operator (R143). -/

namespace Sys2Proof.Machine

open Sys2Proof.Claims

/-! ### The slots of a target (R133) -/

/-- A search finds the first element that passes its test. -/
theorem findIdx?_eq_some_of_first {α : Type} {p : α → Bool} {xs : List α} {i : Nat} {x : α} (hx : xs[i]? = some x)
    (hp : p x = true) (hfirst : ∀ j q, j < i → xs[j]? = some q → ¬ p q = true) : xs.findIdx? p = some i := by
  obtain ⟨hi, rfl⟩ := List.getElem?_eq_some_iff.1 hx
  exact List.findIdx?_eq_some_iff_getElem.2
    ⟨hi, hp, fun j hj => hfirst j _ hj (List.getElem?_eq_getElem (hj.trans hi))⟩

theorem firstLfo_eq_some {lfos : List LfoProps} {t : ModTarget} {l : Nat} {p : LfoProps} (hp : lfos[l]? = some p)
    (ht : p.target = t) (hfirst : ∀ j q, j < l → lfos[j]? = some q → q.target ≠ t) : firstLfo lfos t = some l :=
  findIdx?_eq_some_of_first hp (beq_iff_eq.2 ht) fun j q hj hq h => hfirst j q hj hq (beq_iff_eq.1 h)

theorem firstLfo_eq_none {lfos : List LfoProps} {t : ModTarget} (h : ∀ q ∈ lfos, q.target ≠ t) :
    firstLfo lfos t = none :=
  List.findIdx?_eq_none_iff.2 fun q hq => beq_eq_false_iff_ne.2 (h q hq)

theorem firstEnv_eq_some {envs : List EnvProps} {t : ModTarget} {e : Nat} {p : EnvProps} (hp : envs[e]? = some p)
    (ht : p.target = t) (hfirst : ∀ j q, j < e → envs[j]? = some q → q.target ≠ t) : firstEnv envs t = some e :=
  findIdx?_eq_some_of_first hp (beq_iff_eq.2 ht) fun j q hj hq h => hfirst j q hj hq (beq_iff_eq.1 h)

theorem firstEnv_eq_none {envs : List EnvProps} {t : ModTarget} (h : ∀ q ∈ envs, q.target ≠ t) :
    firstEnv envs t = none :=
  List.findIdx?_eq_none_iff.2 fun q hq => beq_eq_false_iff_ne.2 (h q hq)

/-! ### Resolving a target (R133) -/

/-- The envelope part answers with the lowest envelope slot of the target. -/
theorem Pack.resolveEnv_answer (s : State) (k : Pack) (t : ModTarget) :
    EnvelopeAnswer s k t ((k.resolveEnv s.clkTick s.env t).map .env) := by
  refine ⟨fun e pe z hpe ht hfirst hz => ?slot, fun h => ?noSlot⟩
  case slot => simp only [Pack.resolveEnv, firstEnv_eq_some hpe ht hfirst, hpe, hz]
  case noSlot => simp only [Pack.resolveEnv, firstEnv_eq_none h, Option.map_none]

/-- The envelope part reads no LFO instance. -/
theorem Pack.resolveEnv_congr {k q : Pack} (h : q.envs = k.envs) (tick : U32) (envs : List EnvProps) (t : ModTarget) :
    q.resolveEnv tick envs t = k.resolveEnv tick envs t := by
  simp only [Pack.resolveEnv, h]

theorem Pack.resolveLfo_of_no_slot {lfos : List LfoProps} {t : ModTarget} (h : ∀ q ∈ lfos, q.target ≠ t) (c : Clock)
    (k : Pack) : k.resolveLfo c lfos t = (k, none) := by
  simp only [Pack.resolveLfo, firstLfo_eq_none h]

/-- The LFO part evaluates the lowest LFO slot of the target and stores its instance. -/
theorem Pack.resolveLfo_of_first {lfos : List LfoProps} {t : ModTarget} {l : Nat} {p : LfoProps} {k : Pack}
    {x : LfoState} (hp : lfos[l]? = some p) (ht : p.target = t)
    (hfirst : ∀ j q, j < l → lfos[j]? = some q → q.target ≠ t) (hx : k.lfos[l]? = some x) (c : Clock) :
    k.resolveLfo c lfos t = ({ k with lfos := k.lfos.set l (lfoTick c p x).1 }, (lfoTick c p x).2) := by
  simp only [Pack.resolveLfo, firstLfo_eq_some hp ht hfirst, Pack.tickLfo, hp, hx]

/-- A value of the LFO part has priority. -/
theorem State.resolve_snd_of_lfo {s : State} {t : ModTarget} {k : Pack} {y : F32}
    (h : (k.resolveLfo s.clock s.lfo t).2 = some y) : (s.resolve t k).2 = some (.lfo y) := by
  simp only [State.resolve, h]

/-- Where the LFO part gives nothing, the envelopes of the pack answer. -/
theorem State.resolve_answer_of_no_lfo {s : State} {t : ModTarget} {k : Pack}
    (h : (k.resolveLfo s.clock s.lfo t).2 = none) : EnvelopeAnswer s k t (s.resolve t k).2 := by
  have hsnd : (s.resolve t k).2 = (k.resolveEnv s.clkTick s.env t).map .env := by
    simp only [State.resolve, h, Pack.resolveEnv_congr (k.resolveLfo_ticked s.clock s.lfo t).envs]
  exact hsnd ▸ k.resolveEnv_answer s t

/-- Settles O49: the LFO part is that of the lowest LFO slot, or leaves the pack as it is, and `resolve` asks the
envelopes where it gives nothing. -/
theorem resolveAsksFirstLfoThenFirstEnvelope : Obligations.ResolveAsksFirstLfoThenFirstEnvelope := by
  intro s k t
  refine ⟨fun hno => ?noLfo, fun l pl x hpl ht hfirst hx => ?lfo⟩
  case noLfo =>
    have hlfo := Pack.resolveLfo_of_no_slot hno s.clock k
    exact ⟨by rw [State.resolve_fst, hlfo], State.resolve_answer_of_no_lfo (congrArg Prod.snd hlfo)⟩
  case lfo =>
    have hlfo := Pack.resolveLfo_of_first hpl ht hfirst hx s.clock
    have hval : (k.resolveLfo s.clock s.lfo t).2 = (lfoTick s.clock pl x).2 := congrArg Prod.snd hlfo
    have hpack : (s.resolve t k).1 = { k with lfos := k.lfos.set l (lfoTick s.clock pl x).1 } := by
      rw [State.resolve_fst, hlfo]
    obtain ⟨hl, -⟩ := List.getElem?_eq_some_iff.1 hx
    rw [hpack]
    exact ⟨fun y hy => State.resolve_snd_of_lfo (hval.trans hy),
      fun hnone => State.resolve_answer_of_no_lfo (hval.trans hnone),
      List.getElem?_set_self hl, fun j hj => List.getElem?_set_ne hj.symm, rfl⟩

/-! ### The anchors of a disabled operator (R143) -/

/-- One operator of the pack gives one anchor, the one before where it is disabled, and the rest follow (R137). -/
theorem State.opPack_cons_anchors (s : State) (fv pm : F32) (op : OpProps) (ops : List OpProps) (gw : Option ModValue)
    (gws : List (Option ModValue)) (a : U32) (anchors : List U32) (mod : OscMod) (mix : F32) :
    ∃ a' mod' mix', (s.opPack fv pm (op :: ops) (gw :: gws) (a :: anchors) mod mix).1 =
      a' :: (s.opPack fv pm ops gws anchors mod' mix').1 ∧ (op.enabled = false → a' = a) := by
  by_cases he : op.enabled = true
  · exact ⟨_, _, _, congrArg Prod.fst (if_pos he), fun hd => absurd (he.symm.trans hd) Bool.noConfusion⟩
  · exact ⟨a, _, _, congrArg Prod.fst (if_neg he), fun _ => rfl⟩

/-- The operator pack passes over a disabled operator: its anchor stays. -/
theorem State.opPack_anchor_disabled (s : State) (fv pm : F32) {ops : List OpProps} (gws : List (Option ModValue))
    (anchors : List U32) (mod : OscMod) (mix : F32) {i : Nat} {o : OpProps} (ho : ops[i]? = some o)
    (hd : o.enabled = false) : (s.opPack fv pm ops gws anchors mod mix).1[i]? = anchors[i]? := by
  induction ops generalizing gws anchors mod mix i with
  | nil => cases ho
  | cons op ops ih =>
    cases gws with
    | nil => rfl
    | cons gw gws =>
      cases anchors with
      | nil => rfl
      | cons a anchors =>
        obtain ⟨a', mod', mix', hq, ha⟩ := s.opPack_cons_anchors fv pm op ops gw gws a anchors mod mix
        rw [hq]
        cases i with
        | zero =>
          cases ho
          rw [ha hd]
          rfl
        | succ i => exact ih gws anchors mod' mix' ho

/-- The voices of a core after a TICK, in terms of those before: each has its own tick, or none moves (R70, R150). -/
theorem exec_tick_voice {s t : State} (h : exec .tick s = .next t) :
    t.voice = s.voice ∨ ∃ gp gw, t.voice = s.voice.map fun v => (s.voiceTick gp gw v).1 := by
  cases exec_effect h with
  | nothing => exact .inl rfl
  | fault k => exact .inl (State.takeFault_voice ..)
  | tick => exact .inr ⟨_, _, s.mixVoices_fst ..⟩

/-- Settles O47: every voice's anchors after a TICK are those its operator pack leaves. -/
theorem disabledOperatorKeepsItsAnchors : Obligations.DisabledOperatorKeepsItsAnchors := by
  intro s t i j o v w ho hd ht hv hw
  rcases exec_tick_voice ht with hsame | ⟨gp, gw, hmap⟩
  · rw [hsame, hv] at hw
    cases hw
    rfl
  · rw [hmap, List.getElem?_map, hv] at hw
    cases hw
    exact s.opPack_anchor_disabled _ _ gw v.anchors _ _ ho hd

end Sys2Proof.Machine

/-! PROOFS. The voice statements (spec/46_voice.md): the frame as the sum of the voices (R147, R149, R150), the silent
frame after reset (R151) and the worked frames (R153, with the routing cases of R144). -/

namespace Sys2Proof.F32

theorem mul_one_of_finite {a : F32} (ha : mag a < infMag) : mul a one = a := by
  rw [mul_finite ha (by decide), show magUnits one = 2 ^ 149 by decide +kernel, magUnits_eq,
    roundMag_exact ha.le (by positivity), show sign one = false by decide, Bool.bne_false, pack_sign_mag]

end Sys2Proof.F32

namespace Sys2Proof.Machine

/-! ### The frame of a TICK (R147, R149, R150) -/

/-- A voice's output before the pan: its operator mix times `blend * level` (R147). -/
def State.voiceOut (s : State) (gp : Option ModValue) (gw : List (Option ModValue)) (v : VoiceRec) : F32 :=
  F32.mul (s.opPack (fm s.par v.rootFreq v.detune) (asSigned gp) s.op gw v.anchors .none F32.zero).2
    (F32.mul v.blend (voiceLevel v (s.resolve .globalLevel v.pack).2))

/-- The pan law (R149). -/
theorem State.voiceTick_snd (s : State) (gp : Option ModValue) (gw : List (Option ModValue)) (v : VoiceRec) :
    (s.voiceTick gp gw v).2 =
      (F32.mul (s.voiceOut gp gw v) (F32.sub F32.one v.balance), F32.mul (s.voiceOut gp gw v) v.balance) := rfl

/-- Each channel folds the voices in index order, whatever else their ticks leave (R150). -/
theorem State.mixVoices_snd (s : State) (gp : Option ModValue) (gw : List (Option ModValue)) (vs : List VoiceRec)
    (l r : F32) :
    (s.mixVoices gp gw vs l r).2 =
      (vs.foldl (fun acc v => s.mixIn acc (s.voiceTick gp gw v).2.1) l,
        vs.foldl (fun acc v => s.mixIn acc (s.voiceTick gp gw v).2.2) r) := by
  induction vs generalizing l r with
  | nil => rfl
  | cons v vs ih => exact ih _ _

/-- The frame mixes the voices under the pitch and the positions that the global pack resolves first (R134, R150). -/
theorem State.frameAt_mixVoices (s : State) : ∃ gp gw,
    s.resolveAll (globalTargets s.par) s.global = (s.frameAt.global, gp :: gw) ∧ gw.length = s.par.oscs ∧
      s.mixVoices gp gw s.voice F32.zero F32.zero = (s.frameAt.voice, s.frameAt.left, s.frameAt.right) :=
  ⟨_, _, rfl, by simp, rfl⟩

/-- Folding a list zipped with its own image is folding the list. -/
theorem foldl_zip_map {α β γ : Type} (f : α → β) (g : γ → α × β → γ) (xs : List α) (z : γ) :
    (xs.zip (xs.map f)).foldl g z = xs.foldl (fun acc x => g acc (x, f x)) z := by
  rw [← List.map_prod_left_eq_zip, List.foldl_map]

/-- Settles O43: the channels fold the voices' outputs, and an enabled operator's anchor is that of `phase_fast` at its
own frequency. -/
theorem frameSumsTheVoices : Obligations.FrameSumsTheVoices := by
  intro s t hs hp ht
  obtain rfl : s.tickFrame = t := Host.Outcome.next.inj ((exec_tick hp).symm.trans ht)
  obtain ⟨gp, gw, hglobal, hgw, hmix⟩ := s.frameAt_mixVoices
  have hvoice : s.tickFrame.voice = s.voice.map fun v => (s.voiceTick gp gw v).1 :=
    (congrArg Prod.fst hmix).symm.trans (s.mixVoices_fst ..)
  have hframe := (congrArg Prod.snd hmix).symm.trans (s.mixVoices_snd gp gw s.voice F32.zero F32.zero)
  refine ⟨gp, gw, s.voice.map (s.voiceOut gp gw), hglobal, ?outs, ?left, ?right, ?voices,
    fun j i v w o a hv hw ho he ha => ?anchor⟩
  case outs => exact List.forall₂_map_right_iff.2 (List.forall₂_same.2 fun _ _ => rfl)
  case left =>
    rw [foldl_zip_map]
    exact congrArg Prod.fst hframe
  case right =>
    rw [foldl_zip_map]
    exact congrArg Prod.snd hframe
  case voices =>
    rw [hvoice]
    exact List.forall₂_map_right_iff.2 (List.forall₂_same.2 fun _ _ => ⟨rfl, rfl⟩)
  case anchor =>
    rw [hvoice, List.getElem?_map, hv] at hw
    cases hw
    obtain ⟨m, hm, hanchor⟩ := s.opPack_anchor_enabled (fm s.par v.rootFreq v.detune) (asSigned gp) .none F32.zero
      (hs.op.trans hgw.symm).le ho he ha
    exact ⟨m, _, rfl, hm fun _ _ => OscMod.noConfusion, hanchor⟩

/-! ### Without an enabled slot (R113, R125, R133) -/

section
variable {s : State} (hlfo : ∀ l ∈ s.lfo, l.enabled = false) (henv : ∀ e ∈ s.env, e.enabled = false)

include hlfo in
theorem State.resolveLfo_of_disabled (t : ModTarget) (k : Pack) : (k.resolveLfo s.clock s.lfo t).2 = none := by
  unfold Pack.resolveLfo
  split
  · unfold Pack.tickLfo
    split
    · next p x hp _ => exact congrArg Prod.snd (lfoTick_silent (.inl (hlfo p (List.mem_of_getElem? hp))) s.clock)
    · rfl
  · rfl

include henv in
theorem State.resolveEnv_of_disabled (t : ModTarget) (k : Pack) : k.resolveEnv s.clkTick s.env t = none := by
  unfold Pack.resolveEnv
  split
  · split
    · next p x hp _ => exact envTick_disabled (henv p (List.mem_of_getElem? hp)) s.clkTick x
    · rfl
  · rfl

include hlfo henv

/-- With every slot disabled no target is modulated. -/
theorem State.resolve_of_disabled (t : ModTarget) (k : Pack) : (s.resolve t k).2 = none := by
  simp only [State.resolve, State.resolveLfo_of_disabled hlfo, State.resolveEnv_of_disabled henv, Option.map_none]

theorem State.resolveAll_of_disabled (ts : List ModTarget) (k : Pack) :
    (s.resolveAll ts k).2 = List.replicate ts.length none := by
  induction ts generalizing k with
  | nil => rfl
  | cons t ts ih =>
    simp only [State.resolveAll, State.resolve_of_disabled hlfo henv, ih, List.length_cons, List.replicate_succ]

end

/-! ### Operators without effect (R139, R143) -/

/-- Disabled operators add nothing to the mix (R143). -/
theorem State.opPack_mix_of_disabled (s : State) (fv pm : F32) {ops : List OpProps}
    (h : ∀ o ∈ ops, o.enabled = false) (gws : List (Option ModValue)) (anchors : List U32) (mod : OscMod) (mix : F32) :
    (s.opPack fv pm ops gws anchors mod mix).2 = mix := by
  induction ops generalizing gws anchors mod with
  | nil => rfl
  | cons op ops ih =>
    obtain ⟨hop, hops⟩ := List.forall_mem_cons.1 h
    cases gws with
    | nil => rfl
    | cons gw gws =>
      cases anchors with
      | nil => rfl
      | cons a anchors =>
        simp only [State.opPack, hop, Bool.false_eq_true, if_false]
        exact ih hops gws anchors .none

/-- No modulation leaves the frequency as it is, in both modes (R139). -/
theorem fm_zero (p : Params) {f : F32} (hf : F32.mag f < F32.infMag) : fm p f F32.zero = f := by
  cases h : p.fmMode with
  | symmetric => simp only [fm, h, show F32.numExp2 F32.zero = F32.one by decide +kernel, F32.mul_one_of_finite hf]
  | asymmetric => simp only [fm, h, show F32.lt F32.zero F32.zero = false by decide, Bool.false_eq_true, if_false]

/-! ### The lookup at the first cell (R103, R104, R106) -/

/-- Phase +0.0 is the place of the first cell of a row. -/
theorem phaseIndex_zero {len : Nat} (h : len < 2 ^ 32) : phaseIndex len F32.zero = (0, 1 % len, F32.zero) := by
  have hx : F32.mul F32.zero (F32.ofNat len) = F32.zero := F32.zero_mul_pos (F32.mag_ofNat_lt h) (F32.sign_ofNat len)
  have hfloor : F32.floor F32.zero = 0 := by decide +kernel
  have hrest : F32.sub F32.zero (F32.ofNat 0) = F32.zero := by decide +kernel
  simp only [phaseIndex, hx, hfloor, Nat.zero_min, Nat.zero_add, hrest]

/-- Depth +0.0 is the place of the first row. -/
theorem depthIndex_zero {dep : Nat} (h : dep < 2 ^ 32) :
    depthIndex dep F32.zero = (0, min 1 (dep - 1), F32.zero) := by
  have hy : F32.mul F32.zero (F32.ofNat (dep - 1)) = F32.zero :=
    F32.zero_mul_pos (F32.mag_ofNat_lt (by omega)) (F32.sign_ofNat _)
  have hfloor : F32.floor F32.zero = 0 := by decide +kernel
  have hrest : F32.sub F32.zero (F32.ofNat 0) = F32.zero := by decide +kernel
  simp only [depthIndex, hy, hfloor, Nat.zero_min, Nat.zero_add, hrest]

/-- An empty table gives +0.0 at its first cell, whatever its sizes. -/
theorem State.wtLookup_zero_of_empty {s : State} (hp : s.par.valid) (hwt : s.wt = []) :
    s.wtLookup F32.zero F32.zero = F32.zero := by
  obtain ⟨-, -, -, -, ⟨-, hdep⟩, ⟨-, hlen⟩, -⟩ := hp
  have hcell : ∀ row col, s.wtRead row col = F32.zero := fun row col => by rw [State.wtRead, hwt]; rfl
  have hlerp : lerp F32.zero F32.zero F32.zero = F32.zero := by decide +kernel
  simp only [State.wtLookup, phaseIndex_zero (show s.par.length < 2 ^ 32 by omega),
    depthIndex_zero (show s.par.depth < 2 ^ 32 by omega), hcell, hlerp]

/-! ### The silent frame after reset (R151, R182) -/

/-- Voices that each put out +0.0 on both channels mix to +0.0. -/
theorem State.mixVoices_silent {s : State} (hp : s.par.valid) {gp : Option ModValue} {gw : List (Option ModValue)}
    {vs : List VoiceRec} (h : ∀ v ∈ vs, (s.voiceTick gp gw v).2 = (F32.zero, F32.zero)) :
    (s.mixVoices gp gw vs F32.zero F32.zero).2 = (F32.zero, F32.zero) := by
  obtain ⟨⟨hvoices, hmax⟩, -⟩ := hp
  have hdiv : F32.div F32.zero (F32.ofNat s.par.voices) = F32.zero :=
    F32.zero_div_pos (F32.mag_ofNat_lt (by omega)) (F32.sign_ofNat _) (F32.isZero_ofNat (by omega))
  have hmix : s.mixIn F32.zero F32.zero = F32.zero := by
    rw [State.mixIn, hdiv]
    decide
  induction vs with
  | nil => rfl
  | cons v vs ih =>
    obtain ⟨hv, hvs⟩ := List.forall_mem_cons.1 h
    simp only [State.mixVoices, hv, hmix]
    exact ih hvs

/-- The core right after reset and the seal. -/
def State.resetSealed (p : Params) : State := { State.resetWith p with sealed := true }

theorem State.resetSealed_lfo_disabled (p : Params) : ∀ l ∈ (State.resetSealed p).lfo, l.enabled = false := by
  intro l hl
  rw [List.eq_of_mem_replicate hl]

theorem State.resetSealed_env_disabled (p : Params) : ∀ e ∈ (State.resetSealed p).env, e.enabled = false := by
  intro e he
  rw [List.eq_of_mem_replicate he]

/-- After reset operator 0 alone is enabled (R182). -/
theorem State.resetSealed_op {p : Params} {n : Nat} (h : p.oscs = n + 1) :
    (State.resetSealed p).op = { enabled := true } :: (List.range n).map fun _ => {} := by
  rw [State.resetSealed, State.resetWith, h, List.range_succ_eq_map, List.map_cons, List.map_map]
  rfl

/-- Operator 0, whose anchor is the current tick, reads the first cell of the empty table. -/
theorem State.opRaw_resetSealed {p : Params} (hp : p.valid) :
    ((State.resetSealed p).opRaw F32.a440 F32.zero { enabled := true } none .none 0).2 = F32.zero := by
  have htune : F32.add (tuneMod F32.zero { enabled := true }) (chainedFm .none) = F32.zero := by decide +kernel
  have hfreq : opFreq (State.resetSealed p).par F32.a440 F32.zero { enabled := true } .none = F32.a440 := by
    rw [opFreq, htune, fm_zero _ (by decide)]
  have hrate : (State.resetSealed p).clock.rate ≠ 0 := show (48000 : U32) ≠ 0 by decide
  have hphase : ((State.resetSealed p).clock.phaseFast F32.a440 ((State.resetSealed p).clock.step F32.a440) 0).2 =
      F32.zero := (phaseAtTheAnchorIsZero _ F32.a440 hrate (by decide) (by decide)).1
  simp only [State.opRaw, hfreq, hphase, depthOf]
  exact State.wtLookup_zero_of_empty hp rfl

/-- The operator mix of a core after reset is +0.0. -/
theorem State.opPack_resetSealed {p : Params} (hp : p.valid) :
    ((State.resetSealed p).opPack F32.a440 F32.zero (State.resetSealed p).op (List.replicate p.oscs none)
      (List.replicate p.oscs 0) .none F32.zero).2 = F32.zero := by
  have ⟨_, ⟨hosc, _⟩, _⟩ := hp
  obtain ⟨n, hn⟩ := Nat.exists_eq_add_of_le' hosc
  rw [State.resetSealed_op hn, hn, List.replicate_succ, List.replicate_succ]
  simp only [State.opPack, if_true, State.opRaw_resetSealed hp]
  rw [State.opPack_mix_of_disabled _ _ _ (by simp), applyMod]
  decide

/-- A voice after reset has the level 0.0 and the root frequency 440.0, which its detune of 0.0 leaves (R148). -/
theorem State.voiceTick_resetSealed {p : Params} (hp : p.valid) :
    ((State.resetSealed p).voiceTick none (List.replicate p.oscs none) (VoiceRec.reset p)).2 =
      (F32.zero, F32.zero) := by
  have hlevel : ((State.resetSealed p).resolve .globalLevel (VoiceRec.reset p).pack).2 = none :=
    State.resolve_of_disabled (State.resetSealed_lfo_disabled p) (State.resetSealed_env_disabled p) _ _
  have hfv : fm (State.resetSealed p).par (VoiceRec.reset p).rootFreq (VoiceRec.reset p).detune = F32.a440 :=
    fm_zero _ (by decide : F32.mag F32.a440 < F32.infMag)
  have hout : (State.resetSealed p).voiceOut none (List.replicate p.oscs none) (VoiceRec.reset p) = F32.zero := by
    have hamp : F32.mul F32.zero (F32.mul F32.one F32.zero) = F32.zero := by decide +kernel
    rw [State.voiceOut, hlevel, hfv]
    exact (congrArg (F32.mul · _) (State.opPack_resetSealed hp)).trans hamp
  have hpan : F32.mul F32.zero (F32.sub F32.one F32.half) = F32.zero ∧ F32.mul F32.zero F32.half = F32.zero := by
    decide +kernel
  rw [State.voiceTick_snd, hout]
  exact Prod.mk_inj.2 hpan

/-- Settles O45: nothing is modulated, so that every voice of the core after reset puts out +0.0. -/
theorem silentFrameAfterReset : Obligations.SilentFrameAfterReset := by
  intro p hp
  obtain ⟨gp, gw, hglobal, -, hmix⟩ := (State.resetSealed p).frameAt_mixVoices
  have hnone : gp :: gw = none :: List.replicate p.oscs none := by
    have hall := State.resolveAll_of_disabled (State.resetSealed_lfo_disabled p) (State.resetSealed_env_disabled p)
      (globalTargets p) (State.resetSealed p).global
    have hlen : (globalTargets p).length = p.oscs + 1 := by simp [globalTargets]
    rw [hlen] at hall
    exact (congrArg Prod.snd hglobal).symm.trans hall
  obtain ⟨rfl, rfl⟩ := List.cons.inj hnone
  have hvoices : ∀ v ∈ (State.resetSealed p).voice,
      ((State.resetSealed p).voiceTick none (List.replicate p.oscs none) v).2 = (F32.zero, F32.zero) := fun v hv => by
    rw [List.eq_of_mem_replicate hv, State.voiceTick_resetSealed hp]
  have hframe := (congrArg Prod.snd hmix).symm.trans (State.mixVoices_silent hp hvoices)
  exact ⟨_, exec_tick ⟨rfl, rfl⟩, congrArg (fun frame => [frame]) hframe, rfl⟩

/-! ### The worked frames (R144, R153) -/

/-- Settles O48, by evaluation of the closed frame and routing cases. -/
theorem workedFramesAtTickOne : Obligations.WorkedFramesAtTickOne := by
  unfold Obligations.WorkedFramesAtTickOne
  decide +kernel

end Sys2Proof.Machine

/-! PROOFS. The allocator statements (spec/47_allocator.md): the note map (R154, R162), the release of every voice
(R161), NOTE_ON of a held note and in Unison mode (R155, R157), and the spread of a unison group (R158, R164). -/

namespace Sys2Proof.Machine

open Sys2Proof.Claims

/-! ### The cases of `allocate` (R155, R157) -/

theorem State.allocate_held {s : State} {note : Nat} (h : s.hasNote note = true) (vel : F32) :
    s.allocate note vel = s := if_pos h

theorem State.allocate_unison {s : State} {note : Nat} (hn : s.hasNote note = false) (hm : s.polyMode = .unison)
    (vel : F32) : s.allocate note vel =
      if s.freeVoices.length < s.uniCount then s
      else (State.unisonGroup note vel (s.freeVoices.take s.uniCount) 0 s).globalNoteOn vel := by
  simp [State.allocate, hn, hm]

/-! ### The note map (R154, R162) -/

/-- Every note that a voice holds is a note number. -/
def NoteNumbers (vs : List VoiceRec) : Prop := ∀ v ∈ vs, ∀ n, v.note = some n → n ≤ 127

/-- No two voices hold one note. -/
def NoteOnce (vs : List VoiceRec) : Prop := vs.Pairwise fun v w => v.note = none ∨ v.note ≠ w.note

theorem noteOnce_iff_map {vs : List VoiceRec} :
    NoteOnce vs ↔ (vs.map VoiceRec.note).Pairwise fun a b => a = none ∨ a ≠ b := by
  rw [NoteOnce, List.pairwise_map]

/-- The note map speaks of the voices' notes, of `POLY_LAST` and of the mode alone. -/
theorem State.NotesLegal.congr {s t : State} (h : s.NotesLegal)
    (hv : t.voice.map VoiceRec.note = s.voice.map VoiceRec.note) (hpar : t.par = s.par)
    (hlast : t.lastVoice = s.lastVoice) (hmode : t.polyMode = s.polyMode) : t.NotesLegal where
  notes v hm n hn := by
    obtain ⟨w, hw, hwv⟩ := List.mem_map.1 (hv ▸ List.mem_map_of_mem (f := VoiceRec.note) hm)
    exact h.notes w hw n (hwv.trans hn)
  last := hpar ▸ hlast ▸ h.last
  poly hp := by
    have honce : NoteOnce s.voice := h.poly (hmode ▸ hp)
    rwa [noteOnce_iff_map, ← hv, ← noteOnce_iff_map] at honce

/-- With every voice free there is no note to hold twice, in either mode. -/
theorem State.notesLegal_of_free {s : State} (hv : ∀ v ∈ s.voice, v.note = none) (hlast : s.lastVoice < s.par.voices) :
    s.NotesLegal where
  notes v hm n hn := by simp [hv v hm] at hn
  last := hlast
  poly _ := List.pairwise_iff_getElem.2 fun _ _ ha _ _ => .inl (hv _ (List.getElem_mem ha))

theorem State.resetWith_notesLegal {p : Params} (hp : 1 ≤ p.voices) : (State.resetWith p).NotesLegal :=
  State.notesLegal_of_free (fun v hv => by rw [List.eq_of_mem_replicate hv]; rfl)
    (show p.voices - 1 < p.voices by omega)

/-- After `release_all()` every voice is free (R161). -/
theorem State.releaseAll_free (s : State) : ∀ v ∈ s.releaseAll.voice, v.note = none := by
  intro v hv
  obtain ⟨u, -, rfl⟩ := List.mem_map.1 hv
  split
  · rfl
  · next hfree => simpa using hfree

/-- Releasing voices frees them and gives no voice a note (R160). -/
theorem State.NotesLegal.releaseWhere {s : State} (h : s.NotesLegal) (sel : VoiceRec → Bool) :
    (s.releaseWhere sel).NotesLegal where
  notes v hm n hn := by
    obtain ⟨u, hu, rfl⟩ := List.mem_map.1 hm
    split at hn
    · cases hn
    · exact h.notes u hu n hn
  last := h.last
  poly hp := by
    refine List.Pairwise.map _ (fun u w huw => ?_) (h.poly hp)
    by_cases hu : sel u
    · exact .inl (by simp [hu])
    · by_cases hw : sel w <;> simp only [hu, hw, if_true, if_false, Bool.false_eq_true]
      · exact eq_or_ne u.note none
      · exact huw

/-- A `note_on` of one voice gives it a note number and leaves the other voices' notes. -/
theorem State.voiceNoteOn_notes {s : State} (h : NoteNumbers s.voice) {note : Nat} (hn : note ≤ 127) (i : Nat)
    (vel det blend bal : F32) : NoteNumbers (s.voiceNoteOn i note vel det blend bal).voice := by
  intro v hm
  rw [State.voiceNoteOn_voice] at hm
  obtain ⟨j, hj, rfl⟩ := List.mem_iff_getElem.1 hm
  rw [List.getElem_modify]
  split
  · rintro n ⟨⟩
    exact hn
  · exact h _ (List.getElem_mem _)

theorem State.unisonGroup_notes {note : Nat} (hn : note ≤ 127) (vel : F32) (is : List Nat) (k : Nat) {s : State}
    (h : NoteNumbers s.voice) : NoteNumbers (State.unisonGroup note vel is k s).voice := by
  induction is generalizing k s with
  | nil => exact h
  | cons i is ih => exact ih (k + 1) (State.voiceNoteOn_notes h hn i vel _ _ _)

/-- A voice that takes a note no voice holds makes no note held twice, whatever it held before. -/
theorem NoteOnce.modify {vs : List VoiceRec} (h : NoteOnce vs) {note : Nat} (hnew : ∀ v ∈ vs, v.note ≠ some note)
    {f : VoiceRec → VoiceRec} (hf : ∀ v, (f v).note = some note) (i : Nat) : NoteOnce (vs.modify i f) := by
  rw [NoteOnce, List.pairwise_iff_getElem] at h ⊢
  intro a b ha hb hab
  rw [List.length_modify] at ha hb
  have hva := hnew _ (List.getElem_mem ha)
  have hvb := hnew _ (List.getElem_mem hb)
  rw [List.getElem_modify, List.getElem_modify]
  split
  · have hib : i ≠ b := by omega
    rw [if_neg hib, hf]
    exact .inr hvb.symm
  · split
    · rw [hf]
      exact .inr hva
    · exact h a b ha hb hab

/-- In Poly mode a note that no voice holds goes to one voice of the core, which becomes `POLY_LAST` (R156). -/
theorem State.NotesLegal.polyOn {s : State} (h : s.NotesLegal) (hvoices : 1 ≤ s.par.voices) (hmode : s.polyMode = .poly)
    {note : Nat} (hn : note ≤ 127) (hnew : s.hasNote note = false) (vel : F32) : (s.polyOn note vel).NotesLegal where
  notes := State.voiceNoteOn_notes h.notes hn s.polyIndex vel F32.zero F32.one F32.half
  last := State.polyIndex_lt hvoices
  poly _ := by
    have hfree : ∀ v ∈ s.voice, v.note ≠ some note := fun v hv he => by
      rw [State.hasNote_iff.2 ⟨v, hv, he⟩] at hnew
      cases hnew
    exact NoteOnce.modify (h.poly hmode) hfree (fun _ => rfl) s.polyIndex

/-- In Unison mode several voices may hold the note; only the note numbers are left to show (R157). -/
theorem State.NotesLegal.unisonGroup {s : State} (h : s.NotesLegal) (hmode : s.polyMode = .unison) {note : Nat}
    (hn : note ≤ 127) (vel : F32) (is : List Nat) (k : Nat) : (State.unisonGroup note vel is k s).NotesLegal where
  notes := State.unisonGroup_notes hn vel is k h.notes
  last := by rw [State.unisonGroup_frame]; exact h.last
  poly hp := by rw [State.unisonGroup_frame, hmode] at hp; cases hp

/-- `allocate` keeps the note map, in either mode (R155 to R157). -/
theorem State.NotesLegal.allocate {s : State} (h : s.NotesLegal) (hvoices : 1 ≤ s.par.voices) {note : Nat}
    (hn : note ≤ 127) (vel : F32) : (s.allocate note vel).NotesLegal := by
  cases hnew : s.hasNote note with
  | true =>
    rw [State.allocate_held hnew]
    exact h
  | false =>
    cases hmode : s.polyMode with
    | poly =>
      rw [State.allocate_poly hnew hmode]
      exact (h.polyOn hvoices hmode hn hnew vel).congr rfl rfl rfl rfl
    | unison =>
      rw [State.allocate_unison hnew hmode]
      split
      · exact h
      · exact (h.unisonGroup hmode hn vel _ 0).congr rfl rfl rfl rfl

/-- A TICK changes no voice's note (R70). -/
theorem State.tickFrame_notes (s : State) : s.tickFrame.voice.map VoiceRec.note = s.voice.map VoiceRec.note := by
  rw [State.tickFrame_voice, ← List.forall₂_eq_eq_eq, List.forall₂_map_left_iff, List.forall₂_map_right_iff]
  exact (s.frameAt_voice_ticked.imp fun _ _ h => h.note).flip

/-- Of all registers POLY_MODE alone touches the note map when it is written, and then every voice is free (R80, R161). -/
theorem State.NotesLegal.writeReg {s t : State} (h : s.NotesLegal) (hvoices : 1 ≤ s.par.voices) {r : Reg} {v : U32}
    (hw : s.writeReg r v = some t) : t.NotesLegal := by
  cases r <;> simp only [State.writeReg, Option.map_eq_some_iff, reduceCtorEq] at hw
  case clkTick => cases hw; exact { h with }
  case notePriority => split at hw <;> cases hw; exact h
  all_goals obtain ⟨x, -, rfl⟩ := hw
  case polyMode => exact State.notesLegal_of_free s.releaseAll_free (show s.par.voices - 1 < s.par.voices by omega)
  all_goals exact { h with }

theorem State.NotesLegal.takeFault {s : State} (h : s.NotesLegal) (k : FaultKind) (w : Word) :
    (s.takeFault k w).NotesLegal := by
  rw [State.takeFault_frame]
  exact { h with }

/-- Every command keeps the note map. -/
theorem Effect.notesLegal {s t : State} {i : Instr} (he : Effect s i t) (hvoices : 1 ≤ s.par.voices)
    (h : s.NotesLegal) : t.NotesLegal := by
  cases he with
  | nothing => exact h
  | fault => exact h.takeFault _ _
  | read => exact { h with }
  | readUnmapped => exact State.NotesLegal.takeFault (s := s.emitRead 0) { h with } _ _
  | tick => exact h.congr s.tickFrame_notes rfl rfl rfl
  | noteOn n v _ hn => exact h.allocate hvoices hn _
  | noteOff => exact h.releaseWhere _
  | write _ _ _ _ _ _ _ hw => exact h.writeReg hvoices hw
  | wtWr => exact { h with }
  | wtSeal => exact { h with }

/-- Settles O16: NOTE_ON alone gives a voice a note, in Poly mode one that no voice holds and to one voice alone; a WR of
POLY_MODE, which could bring a Unison core back to Poly, frees every voice. -/
theorem stepKeepsNoteMap : Obligations.StepKeepsNoteMap := by
  intro s t hs hn hst
  have hkeep : 1 ≤ t.par.voices ∧ t.NotesLegal := step_keeps (P := fun u => 1 ≤ u.par.voices ∧ u.NotesLegal)
    (hport := fun _ _ ⟨hp, h⟩ => ⟨hp, { h with }⟩)
    (hcount := fun _ ⟨hp, h⟩ => ⟨hp, { h with }⟩)
    (hreset := fun _ ⟨hp, _⟩ => ⟨hp, State.resetWith_notesLegal hp⟩)
    (hill := fun u w _ ⟨hp, h⟩ => ⟨(u.takeFault_par .illegalCmd w).symm ▸ hp, h.takeFault _ _⟩)
    (heff := fun _ _ _ he ⟨hp, h⟩ => ⟨he.keeps.1.symm ▸ hp, he.notesLegal hp h⟩)
    ⟨hs.params.1.1, hn⟩ hst
  exact hkeep.2

/-! ### A WR of POLY_MODE (R80, R161) -/

/-- POLY_MODE accepts the code of either mode and releases every voice. -/
theorem State.writeReg_polyMode (s : State) (m : PolyMode) :
    s.writeReg .polyMode m.code = some { s.releaseAll with polyMode := m } := by
  cases m <;> rfl

/-- Settles O26: the address is POLY_MODE's on every core, both codes pass its check, and the write is `release_all()` and
the mode. -/
theorem polyModeWriteReleasesEveryVoice : Obligations.PolyModeWriteReleasesEveryVoice := by
  intro s m hr
  refine ⟨_, s.releaseWhere_released fun v => Option.isSome_iff_ne_none, ?_⟩
  exact exec_wr (r := .polyMode) hr rfl rfl (s.writeReg_polyMode m)

/-! ### NOTE_ON of a held note (R155) -/

/-- Settles O38: `allocate` ignores a note that a voice holds, whatever the mode. -/
theorem heldNoteIsNotRetriggered : Obligations.HeldNoteIsNotRetriggered := by
  intro s note vel hr hn hv hheld
  rw [exec_noteOn hr hn hv, State.allocate_held (State.hasNote_iff.2 hheld)]

/-! ### NOTE_ON in Unison mode (R157) -/

/-- The free voices of the model are those of R157. -/
theorem State.freeVoices_eq_freeList (s : State) : s.freeVoices = freeList s := by
  refine List.filter_congr fun i _ => ?_
  rw [State.freeAt]
  cases s.voice[i]? <;> rfl

theorem State.freeVoices_nodup (s : State) : s.freeVoices.Nodup := s.freeVoices_pairwise.imp Nat.ne_of_lt

/-- A voice outside the group keeps its record. -/
theorem State.unisonGroup_voice_of_notMem (note : Nat) (vel : F32) (s : State) {is : List Nat} (hnd : is.Nodup)
    {i : Nat} (hi : i ∉ is) : (State.unisonGroup note vel is 0 s).voice[i]? = s.voice[i]? := by
  have hnone : is.findIdx? (· == i) = none := List.findIdx?_eq_none_iff.2 fun x hx => by
    simpa using ne_of_mem_of_not_mem hx hi
  rw [State.unisonGroup_voice note vel is 0 s hnd, hnone]

/-- The `k`-th voice of the group takes the note with the spread of index `k`. -/
theorem State.Sized.unisonGroup_voice_getElem {s : State} (h : s.Sized) (note : Nat) (vel : F32) {is : List Nat}
    (hnd : is.Nodup) {k i : Nat} (hk : is[k]? = some i) (hi : i < s.par.voices) :
    (State.unisonGroup note vel is 0 s).voice[i]? = some (voiceOn s.par s.clkTick note vel
      (spreadDetune s.uniCount k s.uniDetune) (spreadBlend s.par s.uniCount k s.uniBlend)
      (spreadBalance s.uniCount k s.uniSpread)) := by
  obtain ⟨hlt, rfl⟩ := List.getElem?_eq_some_iff.1 hk
  have hidx : is.findIdx? (· == is[k]) = some k := by
    refine List.findIdx?_eq_some_iff_getElem.2 ⟨hlt, by simp, fun j hj => ?_⟩
    simpa using fun he => hj.ne ((List.Nodup.getElem_inj_iff hnd).1 he)
  obtain ⟨v, hv, hsize⟩ := h.exists_voice hi
  rw [State.unisonGroup_voice note vel is 0 s hnd, hidx, hv]
  simp only [Option.map_some, Nat.zero_add, VoiceRec.noteOn_eq_voiceOn hsize]

/-- Settles O37: the group is the front of the ascending free voices, whose indices do not repeat, so the `k`-th voice has
the spread index `k` and no other voice changes. -/
theorem unisonNoteOnTakesItsGroupOrNothing : Obligations.UnisonNoteOnTakesItsGroupOrNothing := by
  intro s note vel hs hr hm hn hv hheld
  have hnot : s.hasNote note.toNat = false := Bool.eq_false_iff.2 fun h => hheld (State.hasNote_iff.1 h)
  rw [exec_noteOn hr hn hv, State.allocate_unison hnot hm, ← s.freeVoices_eq_freeList]
  refine ⟨fun hle => ?_, fun hlt => by rw [if_pos hlt]⟩
  have hnd : (s.freeVoices.take s.uniCount).Nodup := s.freeVoices_nodup.sublist (List.take_sublist _ _)
  rw [if_neg (by omega)]
  refine ⟨_, rfl, fun k i hk hki => ?_, fun i hi => ?_, ?_⟩
  · refine hs.unisonGroup_voice_getElem note.toNat _ hnd ?_ (State.mem_freeVoices.1 (List.mem_of_getElem? hki)).1
    rwa [List.getElem?_take_of_lt hk]
  · exact State.unisonGroup_voice_of_notMem note.toNat _ s hnd hi
  · rw [← Pack.noteOn_eq_packOn hs.global, State.globalNoteOn, State.unisonGroup_frame]

end Sys2Proof.Machine

namespace Sys2Proof.F32

/-! ### Signs and magnitudes of integers, quotients and differences -/

theorem neg_pack {s : Bool} {m : Nat} (h : m < 2 ^ 31) : neg (pack s m) = pack (!s) m := by
  rw [neg, sign_pack h, mag_pack h]

theorem abs_pack {s : Bool} {m : Nat} (h : m < 2 ^ 31) : abs (pack s m) = pack false m := by
  rw [abs, mag_pack h]

theorem sign_ofInt (z : Int) : sign (ofInt z) = decide (z < 0) := by
  rw [ofInt, sign_ofUnits]
  split
  · exact (decide_eq_false (by omega)).symm
  · exact decide_eq_decide.2 (by omega)

theorem mag_ofInt (z : Int) : mag (ofInt z) = mag (ofNat z.natAbs) := by
  rw [ofInt, mag_ofUnits, mag_ofNat]
  split
  · have hz : z.natAbs = 0 := by omega
    rw [hz, Nat.zero_mul, roundMag_zero Nat.one_pos]
  · rw [Int.natAbs_mul]
    rfl

/-- Rounding is exact on the integers of the quotient `z / n`, which is rounded once. -/
theorem div_ofInt_ofNat {z : Int} (hz : z.natAbs ≤ 65536) {n : Nat} (h1 : 1 ≤ n) (hn : n ≤ 65536) :
    div (ofInt z) (ofNat n) =
      pack (decide (z < 0)) (roundMag (z.natAbs * 2 ^ 149 * 2 ^ 149) (n * 2 ^ 149)) := by
  obtain ⟨hzfin, hzunits⟩ := ofNat_exact hz
  obtain ⟨hnfin, hnunits⟩ := ofNat_exact hn
  have h0 : mag (ofNat n) ≠ 0 := of_decide_eq_false (isZero_ofNat (by omega))
  rw [div_finite (mag_ofInt z ▸ hzfin) hnfin h0, magUnits_eq (ofInt z), mag_ofInt, ← magUnits_eq, hzunits, hnunits,
    sign_ofInt, sign_ofNat, Bool.bne_false]

/-- A finite value less itself is +0.0. -/
theorem sub_self_of_finite {a : F32} (ha : mag a < infMag) : sub a a = zero := by
  rw [sub, add_finite ha (by rwa [mag_neg]), units_neg, add_neg_cancel, sign_neg, Bool.and_not_self]
  rfl

end Sys2Proof.F32

namespace Sys2Proof.Machine

open Sys2Proof.Claims

/-! ### The spread of a unison group (R158, R164) -/

section
variable {count k : Nat} (h64 : count ≤ 64) (hk : k < count)
include h64 hk

/-- The centre offset has the sign and the rounded magnitude of the exact `(2k + 1 - count) / count`. -/
theorem centerOffset_eq : centerOffset count k = F32.pack (decide ((2 * k + 1 - count : Int) < 0))
    (F32.roundMag ((2 * k + 1 - count : Int).natAbs * 2 ^ 149 * 2 ^ 149) (count * 2 ^ 149)) :=
  F32.div_ofInt_ofNat (by omega) (by omega) (by omega)

/-- Of an even count no voice is at the centre, and a mirrored voice is as far from it on the other side. -/
theorem centerOffset_mirror (heven : count % 2 = 0) :
    centerOffset count (count - 1 - k) = F32.neg (centerOffset count k) := by
  have hmirror : (2 * (count - 1 - k : Nat) + 1 - count : Int) = -(2 * k + 1 - count) := by omega
  rw [centerOffset_eq h64 hk, centerOffset_eq h64 (by omega), hmirror, F32.neg_pack (F32.roundMag_lt _ _),
    Int.natAbs_neg, ← decide_not]
  congr 1
  exact decide_eq_decide.2 (by omega)

/-- Of an even count the offset is at least `1 / count`, far above the least binary32. -/
theorem centerOffset_isZero (heven : count % 2 = 0) : F32.isZero (centerOffset count k) = false := by
  have hone : 1 ≤ (2 * k + 1 - count : Int).natAbs := by omega
  have hleast : F32.unitsOfMag 1 = 1 := by decide
  have hpos : 1 ≤ F32.roundMag ((2 * k + 1 - count : Int).natAbs * 2 ^ 149 * 2 ^ 149) (count * 2 ^ 149) := by
    refine F32.le_roundMag_of_le (by decide) (by omega) ?_
    rw [hleast]
    omega
  rw [centerOffset_eq h64 hk, F32.isZero, F32.mag_pack (F32.roundMag_lt _ _)]
  exact decide_eq_false (by omega)

/-- The two voices nearest the centre are `1 / count` from it. -/
theorem abs_centerOffset_centre (heven : count % 2 = 0) (hc : k = count / 2 - 1 ∨ k = count / 2) :
    F32.abs (centerOffset count k) = F32.div F32.one (F32.ofNat count) := by
  have hone : F32.one = F32.ofInt 1 := by decide +kernel
  have hdist : (2 * k + 1 - count : Int).natAbs = 1 := by omega
  rw [centerOffset_eq h64 hk, F32.abs_pack (F32.roundMag_lt _ _), hdist, hone,
    F32.div_ofInt_ofNat (by decide) (by omega) (by omega)]
  rfl

/-- So they are innermost whatever EPS_DETUNE: the rounded difference is exactly 0. -/
theorem innermost_centre {p : Params} (hp : p.valid) (heven : count % 2 = 0)
    (hc : k = count / 2 - 1 ∨ k = count / 2) : innermost p count k = true := by
  obtain ⟨-, -, -, -, -, -, -, heps, -⟩ := hp
  have hfin : F32.mag (F32.div F32.one (F32.ofNat count)) < F32.infMag :=
    (F32.div_bound (by decide) (F32.mag_ofNat_lt (by omega)) (F32.one_le_mag_ofNat (by omega))).2.trans_lt (by decide)
  rw [innermost, abs_centerOffset_centre h64 hk heven hc, F32.sub_self_of_finite hfin]
  exact heps

end

/-- Settles O41: the exact offsets of an even count are odd multiples of `1 / count`, and one rounding keeps signs and
magnitudes apart. -/
theorem evenSpreadIsSymmetric : Obligations.EvenSpreadIsSymmetric := by
  intro p count k blend hp heven _ h64 hk
  exact ⟨centerOffset_mirror h64 hk heven, centerOffset_isZero h64 hk heven,
    fun hc => if_pos (innermost_centre h64 hk hp heven hc)⟩

end Sys2Proof.Machine

/-! PROOFS. The exception statements (spec/60_exceptions.md): the trap entry (R168, R169), the halted core (R170) and
the stickiness of the fault record and of the interrupt output (R171, R174). -/

namespace Sys2Proof.Machine

open Sys2Proof.Claims

/-! ### The step of a word (R68) -/

/-- A step on a word is the effect of the command it decodes to, or an ILLEGAL word, and the count. -/
theorem step_word_cases {s t : State} {w : Word} {rest : List Input} (hport : s.port = .word w :: rest)
    (h : step s = .next t) :
    (∃ i u, decode w = some i ∧ Effect { s with port := rest } i u ∧ t = u.countCommand) ∨
    (decode w = none ∧ t = (State.illegalWord { s with port := rest } w).countCommand) := by
  rcases step_cases h with ⟨hp, -⟩ | ⟨_, hp, -⟩ | ⟨_, _, i, u, hp, hd, -, he, rfl⟩ | ⟨_, _, hp, hd, rfl⟩ <;>
    cases hport.symm.trans hp
  · exact .inl ⟨i, u, hd, he, rfl⟩
  · exact .inr ⟨hd, rfl⟩

/-! ### Precise faults (R168, R169) -/

/-- A command that halts a running core has done nothing but trap entry, and for an RD the response 0 before it. -/
theorem Effect.fault_of_halts {s t : State} {i : Instr} (he : Effect s i t) (hr : s.running) (ht : t.halted = true) :
    ((∀ a, i ≠ .rd a) ∧ ∃ k : FaultKind, t = faulted s k.bit (encode i)) ∨
    (∃ a, i = .rd a ∧ t = { faulted s FaultKind.badAddr.bit (encode i) with reads := s.reads ++ [0] }) := by
  have hcontra {P : Prop} (h : t.halted = s.halted) : P := by
    rw [h, hr] at ht
    cases ht
  cases he with
  | fault _ k _ hi => exact .inl ⟨hi, k, State.takeFault_eq_faulted hr k _⟩
  | readUnmapped a => exact .inr ⟨a, rfl, State.takeFault_eq_faulted (s := s.emitRead 0) hr .badAddr _⟩
  | noteOn => exact hcontra (by rw [State.allocate_frame])
  | write _ _ _ _ _ _ _ hw => exact hcontra (by rw [State.writeReg_frame hw])
  | nothing | read | tick | noteOff | wtWr | wtSeal => exact hcontra rfl

/-- Settles O19: of a command's effects only trap entry halts a running core, and an ILLEGAL word is trap entry. -/
theorem faultsArePrecise : Obligations.FaultsArePrecise := by
  intro s t w rest hr hport hst ht
  rcases step_word_cases hport hst with ⟨i, u, hd, he, rfl⟩ | ⟨hd, rfl⟩
  · have hw : encode i = w := encode_of_decode hd
    rcases he.fault_of_halts hr ht with ⟨hi, k, rfl⟩ | ⟨a, rfl, rfl⟩
    · exact ⟨k, by rw [hw]; rfl, fun ⟨a, ha⟩ => absurd (Option.some.inj (hd.symm.trans ha)) (hi a), fun _ => rfl⟩
    · exact ⟨.badAddr, by rw [hw]; rfl, fun _ => rfl, fun hnot => absurd hd (hnot a)⟩
  · have hrun : State.running { s with port := rest } := hr
    rw [State.illegalWord, State.unlessHalted_running hrun, State.takeFault_eq_faulted hrun]
    exact ⟨.illegalCmd, rfl, fun ⟨a, ha⟩ => absurd (hd.symm.trans ha) (by simp), fun _ => rfl⟩

/-! ### The halted core (R170) -/

/-- RD of an unmapped address on a halted core: the response 0 and the bit, without a capture. -/
theorem exec_rd_unmapped_halted {s : State} (hh : s.halted = true) {a : BitVec 16} (ha : s.peek a = none) :
    exec (.rd a) s = .next { s with reads := s.reads ++ [0], err := s.err ||| FaultKind.badAddr.bit } := by
  rw [exec_rd_unmapped ha, State.takeFault_halted (s := s.emitRead 0) hh]
  rfl

/-- Settles O20: RD does not ask whether the core is halted, and its trap entry then sets the bit alone; every other word
asks first. -/
theorem haltedCoreExecutesOnlyReads : Obligations.HaltedCoreExecutesOnlyReads := by
  intro s w rest hh hport
  have hh' : State.halted { s with port := rest } = true := hh
  rw [step_word hport]
  refine ⟨fun a v hd hv => ?_, fun a hd ha => ?_, fun hd => ?_⟩
  · rw [stepWord_legal _ hd, exec_rd_mapped (s := { s with port := rest }) hv]
    rfl
  · have hpeek : State.peek { s with port := rest } a = none := by rw [State.peek, ha, Option.bind_none]
    rw [stepWord_legal _ hd, exec_rd_unmapped_halted hh' hpeek]
    rfl
  · cases hi : decode w with
    | some i =>
      rw [stepWord_legal _ hi, exec_halted hh' fun a hrd => hd a (hrd ▸ hi)]
      rfl
    | none =>
      rw [stepWord_illegal _ hi, State.illegalWord, State.unlessHalted_halted hh']
      rfl

/-! ### The fault record is sticky (R168, R171, R174) -/

/-- From `s` to `t` no `ERR` bit is cleared, and if `s` is halted it stays so, with its capture and `IRQ_EN`. -/
structure KeepsFaults (s t : State) : Prop where
  err    : t.err &&& s.err = s.err
  halted : s.halted = true → t.halted = true ∧ t.errSeq = s.errSeq ∧ t.errCmd = s.errCmd ∧ t.irqEn = s.irqEn

theorem KeepsFaults.refl (s : State) : KeepsFaults s s := ⟨BitVec.and_self, fun hh => ⟨hh, rfl, rfl, rfl⟩⟩

/-- A command that only a running core executes, and that does not touch `ERR`. -/
theorem keepsFaults_of_running {s t : State} (hr : s.halted = false) (herr : t.err = s.err) : KeepsFaults s t where
  err := by rw [herr, BitVec.and_self]
  halted hh := by rw [hr] at hh; cases hh

/-- Trap entry sets a bit and, on a halted core, nothing else (R168). -/
theorem State.takeFault_keepsFaults (s : State) (k : FaultKind) (w : Word) : KeepsFaults s (s.takeFault k w) where
  err := by
    rw [State.takeFault_err]
    ext i hi
    simp +contextual
  halted hh := by
    rw [State.takeFault_halted hh]
    exact ⟨hh, rfl, rfl, rfl⟩

/-- Every command keeps the faults that are recorded. -/
theorem Effect.keepsFaults {s t : State} {i : Instr} (he : Effect s i t) : KeepsFaults s t := by
  cases he with
  | nothing => exact .refl s
  | read =>
    have h := KeepsFaults.refl s
    exact ⟨h.err, h.halted⟩
  | fault => exact s.takeFault_keepsFaults _ _
  | readUnmapped a =>
    have h := (s.emitRead 0).takeFault_keepsFaults .badAddr (encode (.rd a))
    exact ⟨h.err, h.halted⟩
  | tick hr => exact keepsFaults_of_running hr rfl
  | noteOn _ _ hr => exact keepsFaults_of_running hr (by rw [State.allocate_frame])
  | noteOff _ _ hr => exact keepsFaults_of_running hr rfl
  | write _ _ _ _ hr _ _ hw => exact keepsFaults_of_running hr (by rw [State.writeReg_frame hw])
  | wtWr _ _ _ hr => exact keepsFaults_of_running hr rfl
  | wtSeal hr => exact keepsFaults_of_running hr rfl

theorem State.illegalWord_keepsFaults (s : State) (w : Word) : KeepsFaults s (s.illegalWord w) := by
  rcases s.illegalWord_cases w with e | e <;> rw [e]
  · exact .refl s
  · exact s.takeFault_keepsFaults _ _

/-- Settles O21: trap entry alone touches the fault record, where it sets a bit; no command that writes `IRQ_EN` executes on
a halted core. -/
theorem commandsNeverClearFaults : Obligations.CommandsNeverClearFaults := by
  intro s t w rest hport hst
  rcases step_word_cases hport hst with ⟨i, u, -, he, rfl⟩ | ⟨-, rfl⟩
  · have h := he.keepsFaults
    exact ⟨h.err, h.halted⟩
  · have h := State.illegalWord_keepsFaults { s with port := rest } w
    exact ⟨h.err, h.halted⟩

theorem State.irq_iff {s : State} : s.irq = true ↔ s.irqEn = true ∧ s.err ≠ 0 := by simp [State.irq]

/-- Settles O22: a core with an `ERR` bit set is halted, so neither the bit nor `IRQ_EN` can be cleared. -/
theorem interruptStaysRaised : Obligations.InterruptStaysRaised := by
  intro s t w rest hf hirq hport hst
  obtain ⟨hen, herr⟩ := State.irq_iff.1 hirq
  obtain ⟨hkept, hhalted⟩ := commandsNeverClearFaults s t w rest hport hst
  obtain ⟨-, -, -, hirqEn⟩ := hhalted (hf.halted.2 herr)
  refine State.irq_iff.2 ⟨hirqEn.trans hen, fun ht => herr ?_⟩
  simpa [ht] using hkept.symm

end Sys2Proof.Machine

/-! PROOFS. The reset statements (spec/70_reset_and_hazards.md): the reset input (R181), the reset values (R182) and the
invariant of the reset state (R183). -/

namespace Sys2Proof.Machine

open Sys2Proof.Claims

/-! ### The reset input (R181) -/

/-- Settles O8: the reset depends on the parameters alone, and the inputs behind it stay. -/
theorem resetInputRestoresResetState : Obligations.ResetInputRestoresResetState := fun _ _ hport =>
  ⟨_, step_reset hport, rfl, rfl, rfl⟩

/-! ### The invariant (R182, R183) -/

/-- Settles O11: each part of the invariant holds of the reset values. -/
theorem resetMeetsInvariant : Obligations.ResetMeetsInvariant := fun p hp =>
  { sized := State.resetWith_sized hp
    config := State.resetWith_configLegal hp.1.1
    fault := State.resetWith_faultRecord p
    table := ⟨reset_wt_wf p, nofun⟩
    notes := State.resetWith_notesLegal hp.1.1
    voices := State.resetWith_voicesLegal p }

/-! ### The reset values (R182) -/

section
variable (p : Params)

/-- Operator 0 alone is enabled. -/
theorem State.resetWith_op {i : Nat} (h : i < p.oscs) : (State.resetWith p).op[i]? = some { enabled := i == 0 } := by
  rw [State.resetWith, List.getElem?_map, List.getElem?_range h, Option.map_some]

theorem State.resetWith_voice {v : Nat} (h : v < p.voices) :
    (State.resetWith p).voice[v]? = some (VoiceRec.reset p) := List.getElem?_replicate_of_lt h

theorem State.resetWith_pack {k : PackId} (hk : ∀ v, k = .voice v → v < p.voices) :
    (State.resetWith p).pack? k = some (Pack.reset p) := by
  cases k with
  | global => rfl
  | voice v => rw [State.pack?, State.resetWith_voice p (hk v rfl)]; rfl

/-- No voice holds a note. -/
theorem State.resetWith_hasNote (n : Nat) : (State.resetWith p).hasNote n = false := by
  refine Bool.eq_false_iff.2 fun h => ?_
  obtain ⟨v, hv, hn⟩ := State.hasNote_iff.1 h
  rw [List.eq_of_mem_replicate hv] at hn
  cases hn

/-- Every register of the core reads the value of the reset table. -/
theorem State.readReg_resetWith {r : Reg} (hm : Mapped p r) :
    (State.resetWith p).readReg r = some (resetValue p r) := by
  cases r with
  | env e f =>
    have hslot : (State.resetWith p).env[e]? = some {} := List.getElem?_replicate_of_lt hm
    rw [State.readReg, hslot]
    cases f <;> rfl
  | lfo l f =>
    have hslot : (State.resetWith p).lfo[l]? = some {} := List.getElem?_replicate_of_lt hm
    rw [State.readReg, hslot]
    cases f <;> rfl
  | op i f =>
    rw [State.readReg, State.resetWith_op p hm]
    cases i <;> cases f <;> rfl
  | hasNote n => rw [State.readReg, State.resetWith_hasNote]; rfl
  | voice v f =>
    rw [State.readReg, State.resetWith_voice p hm]
    cases f <;> rfl
  | opAnchor v i =>
    obtain ⟨hv, hi⟩ := hm
    rw [State.readReg, State.resetWith_voice p hv]
    exact List.getElem?_replicate_of_lt hi
  | packEnv k e f =>
    obtain ⟨hk, he⟩ := mapped_packEnv.1 hm
    have hslot : (Pack.reset p).envs[e]? = some .idle := List.getElem?_replicate_of_lt he
    rw [State.readReg, State.resetWith_pack p hk, Option.bind_some, hslot]
    cases f <;> rfl
  | packLfo k l f =>
    obtain ⟨hk, hl⟩ := mapped_packLfo.1 hm
    have hslot : (Pack.reset p).lfos[l]? = some {} := List.getElem?_replicate_of_lt hl
    rw [State.readReg, State.resetWith_pack p hk, Option.bind_some, hslot]
    cases f <;> rfl
  | status => exact congrArg some (by decide : 0#32 ||| 0#32 = 0#32)
  | errCmdHi => exact congrArg some (by decide : (0 : Word).extractLsb' 32 32 = 0#32)
  | _ => rfl

/-- Every cell of the wavetable is +0.0. -/
theorem State.wtRead_resetWith (row col : Nat) : (State.resetWith p).wtRead row col = F32.zero := by
  have hwt : (State.resetWith p).wt = [] := rfl
  rw [State.wtRead, hwt, Memory.read]
  rfl

end

/-- Settles O10: a mapped address names a register of the core, and each reads its reset value. -/
theorem resetRegistersReadTheirResetValues : Obligations.ResetRegistersReadTheirResetValues := by
  intro p _
  refine ⟨fun a r hr => ?_, State.wtRead_resetWith p, rfl, rfl, rfl⟩
  exact (State.peek_of_regAt (s := .resetWith p) hr).trans (State.readReg_resetWith p (regAtNat_sound hr).1)

end Sys2Proof.Machine
